-- ==== Sys2Proof/Word.lean ====
section
/-! DEFINITION. The widths of the values the block handles (00_scope.md R7, R8) and the one mask
of the register port (20_memory.md R60). -/

namespace Sys2Proof

/-- A register byte, a memory byte, an operand byte (20_memory.md R78). -/
abbrev Byte := BitVec 8

/-- A 16-bit address: the host's register-port address, the value of `VADDR`, an `ExtRead`
address (20_memory.md R42, R60, R77). -/
abbrev Addr := BitVec 16

/-- A 32-bit word: a command word (30_encoding.md R100), an RGB table entry, a true-colour pixel
(30_encoding.md R116). -/
abbrev Word := BitVec 32

/-- The register-port reduction `ra = A & 0x3FFF` (20_memory.md R60). -/
def portAddr (a : Addr) : Addr := a &&& 0x3FFF#16

end Sys2Proof
end

