-- ==== Sys2Proof/Syntax.lean ====
section
/-! DEFINITION. The commands: one constructor per row of the opcode table (30_encoding.md R105, R106).
An operand is what the format gives the command; fields the spec calls ignored are no operands (R100). -/

namespace Sys2Proof

/-- `SRC` of `SCALE`: which frame buffer is copied (30_encoding.md R103). -/
inductive FrameSource where
  /-- `SRC` = 0. -/
  | fb16
  /-- `SRC` = 1. -/
  | fb32
deriving DecidableEq, Repr

/-- The block's commands. `addr` is the 16-bit host address of format B (R101), kept whole; `RD`
ignores the data byte and `DMA` ignores the address. -/
inductive Instr where
  /-- RD.STATUS (R151). -/
  | rdStatus (addr : Addr)
  /-- RD.OAMDATA (R152). -/
  | rdOamData (addr : Addr)
  /-- RD.DATA (R153). -/
  | rdData (addr : Addr)
  /-- RD.OTHER (R154). -/
  | rdOther (addr : Addr)
  /-- WR.CTRL (R160). -/
  | wrCtrl (addr : Addr) (data : Byte)
  /-- WR.MASK (R161). -/
  | wrMask (addr : Addr) (data : Byte)
  /-- WR.OAMADDR (R162). -/
  | wrOamAddr (addr : Addr) (data : Byte)
  /-- WR.OAMDATA (R163). -/
  | wrOamData (addr : Addr) (data : Byte)
  /-- WR.SCROLL (R164). -/
  | wrScroll (addr : Addr) (data : Byte)
  /-- WR.ADDR (R165). -/
  | wrAddr (addr : Addr) (data : Byte)
  /-- WR.DATA (R166). -/
  | wrData (addr : Addr) (data : Byte)
  /-- WR.OTHER (R167). -/
  | wrOther (addr : Addr) (data : Byte)
  /-- DMA (R180). -/
  | dma (page : Byte)
  /-- RENDER32 (R250). -/
  | render32
  /-- RENDER16 (R251). -/
  | render16
  /-- SCALE (R300). -/
  | scale (src : FrameSource) (destW destH : BitVec 13)
  /-- CCLR (R322). -/
  | cclr
  /-- LOADRGB (R320), the only command of two words. -/
  | loadRgb (index : BitVec 6) (value : Word)
  /-- RESET (R324). -/
  | reset
  /-- RESERVED_9 (R107). -/
  | reserved9
  /-- RESERVED_A (R107). -/
  | reservedA
  /-- RESERVED_B (R107). -/
  | reservedB
  /-- RESERVED_C (R107). -/
  | reservedC
  /-- RESERVED_D (R107). -/
  | reservedD
  /-- RESERVED_E (R107). -/
  | reservedE
  /-- RESERVED_F (R107). -/
  | reservedF
deriving DecidableEq, Repr

end Sys2Proof
end

