-- ==== Sys2Proof/WellFormed.lean ====
section
/-! DEFINITION. Which terms of `Instr` stand for a command word: the address operand of an `RD` or
`WR` selects the sub-opcode the constructor names (30_encoding.md R106). Every other operand is legal
at every value of its type. -/

namespace Sys2Proof

/-- The reduced address is one of the three readable registers (R106, column `RD`). -/
def readablePort (ra : Addr) : Bool :=
  ra == 0x2002#16 || ra == 0x2004#16 || ra == 0x2007#16

/-- The reduced address is one of the seven writable registers (R106, column `WR`). -/
def writablePort (ra : Addr) : Bool :=
  ra == 0x2000#16 || ra == 0x2001#16 || ra == 0x2003#16 || ra == 0x2004#16 ||
    ra == 0x2005#16 || ra == 0x2006#16 || ra == 0x2007#16

/-- Does the address operand select the constructor's own sub-opcode (R106)? -/
def Instr.wellFormed : Instr → Bool
  | .rdStatus a    => portAddr a == 0x2002#16
  | .rdOamData a   => portAddr a == 0x2004#16
  | .rdData a      => portAddr a == 0x2007#16
  | .rdOther a     => !readablePort (portAddr a)
  | .wrCtrl a _    => portAddr a == 0x2000#16
  | .wrMask a _    => portAddr a == 0x2001#16
  | .wrOamAddr a _ => portAddr a == 0x2003#16
  | .wrOamData a _ => portAddr a == 0x2004#16
  | .wrScroll a _  => portAddr a == 0x2005#16
  | .wrAddr a _    => portAddr a == 0x2006#16
  | .wrData a _    => portAddr a == 0x2007#16
  | .wrOther a _   => !writablePort (portAddr a)
  | .dma _         => true
  | .render32      => true
  | .render16      => true
  | .scale _ _ _   => true
  | .cclr          => true
  | .loadRgb _ _   => true
  | .reset         => true
  | .reserved9     => true
  | .reservedA     => true
  | .reservedB     => true
  | .reservedC     => true
  | .reservedD     => true
  | .reservedE     => true
  | .reservedF     => true

end Sys2Proof
end

