-- ==== Sys2Proof/Decode.lean ====
section
/-! DEFINITION. The decoder of command words, total on any list of words, and the encoder written from
the same formats (30_encoding.md R100 to R108), with the opcode table's masks and matches beside them. -/

namespace Sys2Proof

/-! ### Fields of a command word -/

/-- `OP`, bits 31:28 (R100). -/
def opField (w : Word) : BitVec 4 := w.extractLsb' 28 4
/-- `ADDR`, bits 23:8 (R101). -/
def addrField (w : Word) : Addr := w.extractLsb' 8 16
/-- `DATA`, bits 7:0 (R101). -/
def dataField (w : Word) : Byte := w.extractLsb' 0 8
/-- `SRC`, bit 27 (R103). -/
def srcField (w : Word) : FrameSource := if w.getLsbD 27 then .fb32 else .fb16
/-- `DESTW`, bits 25:13 (R103). -/
def destWField (w : Word) : BitVec 13 := w.extractLsb' 13 13
/-- `DESTH`, bits 12:0 (R103). -/
def destHField (w : Word) : BitVec 13 := w.extractLsb' 0 13
/-- `INDEX`, bits 5:0 (R104). -/
def indexField (w : Word) : BitVec 6 := w.extractLsb' 0 6

/-! ### Decoder -/

/-- The sub-opcode of an `RD`, by the reduced address (R106). -/
def decodeRead (a : Addr) : Instr :=
  if portAddr a = 0x2002#16 then .rdStatus a
  else if portAddr a = 0x2004#16 then .rdOamData a
  else if portAddr a = 0x2007#16 then .rdData a
  else .rdOther a

/-- The sub-opcode of a `WR`, by the reduced address (R106). -/
def decodeWrite (a : Addr) (d : Byte) : Instr :=
  if portAddr a = 0x2000#16 then .wrCtrl a d
  else if portAddr a = 0x2001#16 then .wrMask a d
  else if portAddr a = 0x2003#16 then .wrOamAddr a d
  else if portAddr a = 0x2004#16 then .wrOamData a d
  else if portAddr a = 0x2005#16 then .wrScroll a d
  else if portAddr a = 0x2006#16 then .wrAddr a d
  else if portAddr a = 0x2007#16 then .wrData a d
  else .wrOther a d

/-- Why a list of words holds no complete command. No word is ever rejected for its bits (R107). -/
inductive DecodeError where
  /-- No word has been issued. -/
  | noWord
  /-- The first word is a `LOADRGB` whose second word has not been issued (R108). -/
  | missingValueWord
deriving DecidableEq, Repr

/-- Read one command from the front of the words issued; the rest is what stands after it (R105, R108). -/
def decode : List Word → Except DecodeError (Instr × List Word)
  | [] => .error .noWord
  | w :: rest =>
    match opField w with
    | 0x0#4 => .ok (decodeRead (addrField w), rest)
    | 0x1#4 => .ok (decodeWrite (addrField w) (dataField w), rest)
    | 0x2#4 => .ok (.dma (dataField w), rest)
    | 0x3#4 => .ok (.render32, rest)
    | 0x4#4 => .ok (.render16, rest)
    | 0x5#4 => .ok (.scale (srcField w) (destWField w) (destHField w), rest)
    | 0x6#4 => .ok (.cclr, rest)
    | 0x7#4 =>
      match rest with
      | [] => .error .missingValueWord
      | v :: rest' => .ok (.loadRgb (indexField w) v, rest')
    | 0x8#4 => .ok (.reset, rest)
    | 0x9#4 => .ok (.reserved9, rest)
    | 0xA#4 => .ok (.reservedA, rest)
    | 0xB#4 => .ok (.reservedB, rest)
    | 0xC#4 => .ok (.reservedC, rest)
    | 0xD#4 => .ok (.reservedD, rest)
    | 0xE#4 => .ok (.reservedE, rest)
    | _     => .ok (.reservedF, rest)  -- 0xF, the one value left

/-! ### Encoder -/

/-- Format B, bits 27:24 written as zero (R101, R120). -/
def busWord (op : BitVec 4) (addr : Addr) (data : Byte) : Word := op ++ 0#4 ++ addr ++ data
/-- Format N, bits 27:0 written as zero (R102, R120). -/
def plainWord (op : BitVec 4) : Word := op ++ 0#28
/-- `SRC` as a bit (R103). -/
def srcBit : FrameSource → BitVec 1
  | .fb16 => 0#1
  | .fb32 => 1#1
/-- Format S, bit 26 written as zero (R103, R120). -/
def scaleWord (src : FrameSource) (w h : BitVec 13) : Word := 0x5#4 ++ srcBit src ++ 0#1 ++ w ++ h
/-- First word of format L, bits 27:6 written as zero (R104, R120). -/
def loadWord (index : BitVec 6) : Word := 0x7#4 ++ 0#22 ++ index

/-- The words of a command (R101 to R105). -/
def encode : Instr → List Word
  | .rdStatus a    => [busWord 0x0#4 a 0#8]
  | .rdOamData a   => [busWord 0x0#4 a 0#8]
  | .rdData a      => [busWord 0x0#4 a 0#8]
  | .rdOther a     => [busWord 0x0#4 a 0#8]
  | .wrCtrl a d    => [busWord 0x1#4 a d]
  | .wrMask a d    => [busWord 0x1#4 a d]
  | .wrOamAddr a d => [busWord 0x1#4 a d]
  | .wrOamData a d => [busWord 0x1#4 a d]
  | .wrScroll a d  => [busWord 0x1#4 a d]
  | .wrAddr a d    => [busWord 0x1#4 a d]
  | .wrData a d    => [busWord 0x1#4 a d]
  | .wrOther a d   => [busWord 0x1#4 a d]
  | .dma page      => [busWord 0x2#4 0#16 page]
  | .render32      => [plainWord 0x3#4]
  | .render16      => [plainWord 0x4#4]
  | .scale src w h => [scaleWord src w h]
  | .cclr          => [plainWord 0x6#4]
  | .loadRgb i v   => [loadWord i, v]
  | .reset         => [plainWord 0x8#4]
  | .reserved9     => [plainWord 0x9#4]
  | .reservedA     => [plainWord 0xA#4]
  | .reservedB     => [plainWord 0xB#4]
  | .reservedC     => [plainWord 0xC#4]
  | .reservedD     => [plainWord 0xD#4]
  | .reservedE     => [plainWord 0xE#4]
  | .reservedF     => [plainWord 0xF#4]

/-! ### The opcode table -/

/-- The row of spec/opcode_table.json an instruction stands for. -/
def Instr.mnemonic : Instr → String
  | .rdStatus _    => "RD.STATUS"
  | .rdOamData _   => "RD.OAMDATA"
  | .rdData _      => "RD.DATA"
  | .rdOther _     => "RD.OTHER"
  | .wrCtrl _ _    => "WR.CTRL"
  | .wrMask _ _    => "WR.MASK"
  | .wrOamAddr _ _ => "WR.OAMADDR"
  | .wrOamData _ _ => "WR.OAMDATA"
  | .wrScroll _ _  => "WR.SCROLL"
  | .wrAddr _ _    => "WR.ADDR"
  | .wrData _ _    => "WR.DATA"
  | .wrOther _ _   => "WR.OTHER"
  | .dma _         => "DMA"
  | .render32      => "RENDER32"
  | .render16      => "RENDER16"
  | .scale _ _ _   => "SCALE"
  | .cclr          => "CCLR"
  | .loadRgb _ _   => "LOADRGB"
  | .reset         => "RESET"
  | .reserved9     => "RESERVED_9"
  | .reservedA     => "RESERVED_A"
  | .reservedB     => "RESERVED_B"
  | .reservedC     => "RESERVED_C"
  | .reservedD     => "RESERVED_D"
  | .reservedE     => "RESERVED_E"
  | .reservedF     => "RESERVED_F"

/-- One row of spec/opcode_table.json: its `mnemonic`, `mask` and `match`. -/
structure TableRow where
  mnemonic : String
  mask     : Word
  bits     : Word
deriving DecidableEq, Repr

/-- The row's pattern holds of a word. -/
def TableRow.covers (r : TableRow) (w : Word) : Bool := w &&& r.mask == r.bits

/-- The rows of spec/opcode_table.json, with the two rows of lowest priority (`RD.OTHER`, `WR.OTHER`,
R106) after all the others: the first row that covers a word is the word's. -/
def opcodeTable : List TableRow :=
  [ ⟨"RD.STATUS",  0xF03FFF00#32, 0x00200200#32⟩, ⟨"RD.OAMDATA", 0xF03FFF00#32, 0x00200400#32⟩,
    ⟨"RD.DATA",    0xF03FFF00#32, 0x00200700#32⟩, ⟨"WR.CTRL",    0xF03FFF00#32, 0x10200000#32⟩,
    ⟨"WR.MASK",    0xF03FFF00#32, 0x10200100#32⟩, ⟨"WR.OAMADDR", 0xF03FFF00#32, 0x10200300#32⟩,
    ⟨"WR.OAMDATA", 0xF03FFF00#32, 0x10200400#32⟩, ⟨"WR.SCROLL",  0xF03FFF00#32, 0x10200500#32⟩,
    ⟨"WR.ADDR",    0xF03FFF00#32, 0x10200600#32⟩, ⟨"WR.DATA",    0xF03FFF00#32, 0x10200700#32⟩ ] ++
  [ ⟨"DMA",        0xF0000000#32, 0x20000000#32⟩, ⟨"RENDER32",   0xF0000000#32, 0x30000000#32⟩,
    ⟨"RENDER16",   0xF0000000#32, 0x40000000#32⟩, ⟨"SCALE",      0xF0000000#32, 0x50000000#32⟩,
    ⟨"CCLR",       0xF0000000#32, 0x60000000#32⟩, ⟨"LOADRGB",    0xF0000000#32, 0x70000000#32⟩,
    ⟨"RESET",      0xF0000000#32, 0x80000000#32⟩, ⟨"RESERVED_9", 0xF0000000#32, 0x90000000#32⟩,
    ⟨"RESERVED_A", 0xF0000000#32, 0xA0000000#32⟩, ⟨"RESERVED_B", 0xF0000000#32, 0xB0000000#32⟩,
    ⟨"RESERVED_C", 0xF0000000#32, 0xC0000000#32⟩, ⟨"RESERVED_D", 0xF0000000#32, 0xD0000000#32⟩,
    ⟨"RESERVED_E", 0xF0000000#32, 0xE0000000#32⟩, ⟨"RESERVED_F", 0xF0000000#32, 0xF0000000#32⟩ ] ++
  [ ⟨"RD.OTHER",   0xF0000000#32, 0x00000000#32⟩, ⟨"WR.OTHER",   0xF0000000#32, 0x10000000#32⟩ ]

/-! ### The table's numbering of a command's bits -/

/-- The words of the command whose `nbits` low bits are `w`, bit 0 the least significant of the first
word and the bits above `nbits` zero: one word, or two for a `LOADRGB` (R108). -/
def tableWords (nbits w : Nat) : List Word :=
  let bits := w % 2 ^ nbits
  let first : Word := BitVec.ofNat 32 bits
  if opField first = 0x7#4 then [first, BitVec.ofNat 32 (bits / 2 ^ 32)] else [first]

/-- What the decoder reads from the command whose bits are `w`, numbered as the opcode table numbers them. -/
def decodeTableWord (nbits w : Nat) : Option Instr :=
  match decode (tableWords nbits w) with
  | .ok (i, _) => some i
  | .error _   => none

end Sys2Proof
end

