-- ==== Sys2Proof/Config.lean ====
section
/-! DEFINITION. The parameters of the block (00_scope.md R4): the fixed numbers, each a named
constant; the parameters an instance is built with, as plain data; and the values the spec leaves
to the host, as constants without a body. -/

namespace Sys2Proof

/-! ### Fixed numbers (R4, kind "fixed") -/

/-- `FRAME_W`. -/
abbrev frameW : Nat := 256
/-- `FRAME_H`. -/
abbrev frameH : Nat := 240
/-- Words of a frame buffer, `FRAME_W * FRAME_H` (10_state.md R40). -/
abbrev frameWords : Nat := 61440
/-- `CHR_SIZE`: 512 tiles of 16 bytes (10_state.md R35). -/
abbrev chrSize : Nat := 8192
/-- `NT_SIZE` (10_state.md R32). -/
abbrev ntSize : Nat := 2048
/-- `PAL_SIZE` (10_state.md R33). -/
abbrev palSize : Nat := 32
/-- `OAM_SIZE` (10_state.md R34). -/
abbrev oamSize : Nat := 256
/-- `RGB_ENTRIES` (10_state.md R36). -/
abbrev rgbEntries : Nat := 64
/-- `BASE_CACHE_ENTRIES`, 512 × 8 (10_state.md R37). -/
abbrev baseCacheEntries : Nat := 4096
/-- `STATUS_ROWS`: tile rows 0 to 3 do not scroll (45_frame_renderer.md R261). -/
abbrev statusRows : Nat := 4
/-- `BG_ROWS`: tile rows of a nametable (30_encoding.md R111). -/
abbrev bgRows : Nat := 30
/-- Tile columns of a nametable (30_encoding.md R111). -/
abbrev bgCols : Nat := 32
/-- `SPRITE_Y_LIMIT`, a literal the spec calls unaudited (45_frame_renderer.md R255). -/
abbrev spriteYLimit : Byte := 0xEF#8
/-- `SPRITE_X_LIMIT`, a literal the spec calls unaudited (45_frame_renderer.md R255). -/
abbrev spriteXLimit : Byte := 0xF9#8
/-- The tile byte that makes sprite 0 special (45_frame_renderer.md R253). -/
abbrev specialTile : Byte := 0xFF#8

/-! ### Parameters (R4, kind "parameter") -/

/-- What an instance is built with. The block never writes it; the host may change `chr` alone. It is held in
`State` as data so that a statement about every state is a statement about every parameter value. -/
structure Config where
  /-- `MIRROR`: which 1 KB half of `NT` each of the four logical nametables uses (20_memory.md R68). -/
  mirror     : Vector (Fin 2) 4
  /-- `STATUS_EVEN`: the status byte while `STCNT` is 0 (10_state.md R30). -/
  statusEven : Byte
  /-- `STATUS_ODD`: the status byte while `STCNT` is 1 (10_state.md R30). -/
  statusOdd  : Byte
  /-- `HAS_SCALER` (46_output_scaler.md R307). -/
  hasScaler  : Bool
  /-- `CHR`, the host-owned pattern memory (10_state.md R35). -/
  chr        : Vector Byte 8192
deriving DecidableEq, Repr

/-- The constraint on the status parameters, `STATUS_EVEN[7] != STATUS_ODD[7]` (10_state.md R30). -/
def Config.wf (c : Config) : Bool := c.statusEven.getLsbD 7 != c.statusOdd.getLsbD 7

/-! ### Values the spec leaves to the host (no body: a statement holds whatever they are) -/

/-- The bytes of pattern memory the host has bound at power-on (93 U7). -/
opaque Config.chrBound : Nat → Byte
/-- `RGB_INIT`, the RGB table at power-on (92 D41, 93 U5). -/
opaque Config.rgbInit : Nat → Word
/-- The content of `FB32` before the block first writes it (93 U17). -/
opaque Config.fb32Start : Nat → Word
/-- The content of `FB16` before the block first writes it (93 U17). -/
opaque Config.fb16Start : Nat → BitVec 16
/-- The content of `DST`, word by word, before it is first written: what the host put there before the first command
(93 U17, U18). -/
opaque Config.dstStart : Nat → Word
/-- The host's answer to `ExtRead a` during its `n`-th OAM DMA, for an address the state lists no
answer for (42_oam_dma.md R181, 93 U8). -/
opaque Config.extRead : Nat → Addr → Byte

/-- The parameters at their defaults, with the pattern memory the host has bound (R4). -/
def Config.standard : Config where
  mirror     := #v[0, 1, 0, 1]
  statusEven := 0xC0#8
  statusOdd  := 0x00#8
  hasScaler  := true
  chr        := Vector.ofFn fun i => Config.chrBound i.val

end Sys2Proof
end

