-- ==== Sys2Proof/Machine/State.lean ====
section
/-! DEFINITION. The state of one instance of the block (10_state.md), as plain data, its invariant-free
types, and the state after power-on (10_state.md R43). -/

namespace Sys2Proof.Machine

/-! ### Outcomes a step does not have -/

/-- The faults of the block: none. "The block raises no exception" (60_exceptions.md R340), so the type
has no constructor and no meaning can answer with one. Safe. -/
inductive Fault
deriving DecidableEq, Repr

/-- The refusals of the model. -/
inductive Refusal where
  /-- Raised by `exec`'s arm of an instruction that has no meaning yet, under its mnemonic. No arm
  raises it now. Safe: nothing is said of the instruction. -/
  | notModelled (mnemonic : String)
deriving DecidableEq, Repr

/-! ### Memories -/

/-- A byte memory: its bytes that differ from what an unlisted address reads as, by rising address. -/
abbrev Memory := List Host.Cell

/-- What an unlisted address of `NT`, `PAL` or `OAM` reads as: their reset content (10_state.md R43). -/
def Memory.unlisted : Byte := 0x00#8

/-- The canonical form of a memory of `size` bytes: addresses strictly rising and inside the memory,
no entry equal to what an unlisted address reads as. -/
abbrev Memory.wf (size : Nat) (m : Memory) : Prop :=
  m.Pairwise (fun x y => x.1 < y.1) ∧ ∀ c ∈ m, c.1 < size ∧ c.2 ≠ Memory.unlisted

/-- The answers the host has ready for one OAM DMA, by host address (42_oam_dma.md R181). An address
that is not listed is answered by a free value. -/
abbrev HostImage := List Host.Cell

/-- A frame buffer, pixel `(X, Y)` at word `256*Y + X` (10_state.md R40). -/
abbrev Frame (n : Nat) := Vector (BitVec n) 61440

/-! ### Caches -/

/-- Eight rows of eight pixels at index `8*row + px`; `none` is the mark `T`, transparent
(10_state.md R37). -/
abbrev Block (n : Nat) := Vector (Option (BitVec n)) 64

/-- A valid base-cache entry: its identity tags and its pixels (10_state.md R37). -/
structure BaseEntry where
  tile  : BitVec 9
  ptype : BitVec 3
  attr  : BitVec 4
  px    : Block 16
deriving DecidableEq, Repr

/-- The two tiers of the Tile Pixel Cache. -/
structure Caches where
  /-- `BC` (10_state.md R37): `none` is an entry whose `valid` is 0; the other fields of such an entry
  are unspecified and never read (R43). -/
  bc : Vector (Option BaseEntry) 4096
  /-- `FC` (10_state.md R38): key and block, by rising key. -/
  fc : List (Nat × Block 16)
deriving DecidableEq, Repr

/-- Both tiers with nothing valid in them (44_tile_cache.md R228). -/
def Caches.empty : Caches where
  bc := Vector.replicate 4096 none
  fc := []

/-- `SC` when it is valid (10_state.md R39). -/
structure ScaleCache where
  destW  : BitVec 13
  destH  : BitVec 13
  factor : Nat
  offX   : Nat
  offY   : Nat
  mapX   : Vector Nat 256
  mapY   : Vector Nat 240
deriving DecidableEq, Repr

/-- One thing the host changes between two commands in what it owns: a word of a buffer (10_state.md R40,
70_reset_and_hazards.md R386) or a byte of pattern memory (10_state.md R35, 44_tile_cache.md R232). -/
inductive HostWrite where
  /-- Word `k` of `FB32`. -/
  | fb32 (k : Fin 61440) (v : Word)
  /-- Word `k` of `FB16`. -/
  | fb16 (k : Fin 61440) (v : BitVec 16)
  /-- Word `k` of `DST`: the letterbox, or any other word. -/
  | dst (k : Nat) (v : Word)
  /-- Byte `k` of `CHR`: a switch of pattern banks is a list of these. -/
  | chr (k : Fin 8192) (v : Byte)
deriving DecidableEq, Repr

/-! ### The state -/

/-- One instance of the block, with what stands between it and its host. -/
structure State where
  /-- The parameters (00_scope.md R4), which nothing writes, and `CHR`, which the host alone changes (R35). -/
  cfg      : Config
  /-- `CTRL` (R22). -/
  ctrl     : Byte
  /-- `MASK` (R23). -/
  mask     : Byte
  /-- `OAMADDR` (R24). -/
  oamAddr  : Byte
  /-- `SCROLLX` (R25). -/
  scrollX  : Byte
  /-- `SCROLLY` (R26). -/
  scrollY  : Byte
  /-- `VADDR` (R27). -/
  vaddr    : Addr
  /-- `W` (R28). -/
  w        : Bool
  /-- `RDBUF` (R29). -/
  rdBuf    : Byte
  /-- `STCNT` (R30). -/
  stCnt    : Bool
  /-- `NT` (R32). -/
  nt       : Memory
  /-- `PAL` (R33). -/
  pal      : Memory
  /-- `OAM` (R34). -/
  oam      : Memory
  /-- `RGB` (R36). -/
  rgb      : Vector Word 64
  /-- `BC` and `FC` (R37, R38). -/
  caches   : Caches
  /-- `SC` (R39): `none` is `valid` = 0. -/
  sc       : Option ScaleCache
  /-- `FB32` (R40). -/
  fb32     : Frame 32
  /-- `FB16` (R40). -/
  fb16     : Frame 16
  /-- `DST` (R40): the words the block or the host has written, by index; `none`, and every index beyond the
  end, is a word that still holds its content at power-on, `Config.dstStart` (read by `dstRead`). -/
  dst      : Array (Option Word)
  /-- The byte the last command returned to the host, if it returned one (00_scope.md R8, `result`). -/
  result   : Option Byte
  /-- The model's own: the command words the host has issued and the block has not performed, oldest first. -/
  cmds     : List Word
  /-- The model's own: the host's `ExtRead` answers, one image per coming `DMA`, oldest first. -/
  ext      : List HostImage
  /-- The model's own: how many `DMA` commands have been performed; it tells one `DMA`'s free answers
  from another's. -/
  dmaCount : Nat
  /-- The model's own: the host's writes into what it owns (R386), one list per coming step, made before its
  command. -/
  hostWrites : List (List HostWrite)
deriving DecidableEq, Repr

/-- The block after power-on, with no command issued (10_state.md R43). The parameters at their defaults are the
model's choice of an instance (log entry 1); with no word of `dst` listed, each reads as `Config.dstStart`. -/
def State.reset : State where
  cfg      := Config.standard
  ctrl     := 0x00#8
  mask     := 0x00#8
  oamAddr  := 0x00#8
  scrollX  := 0x00#8
  scrollY  := 0x00#8
  vaddr    := 0x0000#16
  w        := false
  rdBuf    := 0x00#8
  stCnt    := false
  nt       := []
  pal      := []
  oam      := []
  rgb      := Vector.ofFn fun i => Config.rgbInit i.val
  caches   := Caches.empty
  sc       := none
  fb32     := Vector.ofFn fun i => Config.fb32Start i.val
  fb16     := Vector.ofFn fun i => Config.fb16Start i.val
  dst      := #[]
  result   := none
  cmds     := []
  ext      := []
  dmaCount := 0
  hostWrites := []

end Sys2Proof.Machine
end

