-- ==== Sys2Proof/Machine/Flags.lean ====
section
/-! DEFINITION. The bit fields the rules read. The block has no arithmetic flags and no condition codes
(10_state.md R31); what stands here are the fields of `CTRL`, `MASK`, the status byte and the sprite
attribute byte. A bit with no name here is stored and has no effect. -/

namespace Sys2Proof.Machine

/-! ### `CTRL` (10_state.md R22) -/

/-- `CTRL.NTX`, bit 0. -/
def ctrlNtx (c : Byte) : Bool := c.getLsbD 0
/-- `CTRL.INC32`, bit 2. -/
def ctrlInc32 (c : Byte) : Bool := c.getLsbD 2
/-- `CTRL.SPT`, bit 3. -/
def ctrlSpt (c : Byte) : Bool := c.getLsbD 3
/-- `CTRL.BPT`, bit 4. -/
def ctrlBpt (c : Byte) : Bool := c.getLsbD 4

/-! ### `MASK` (10_state.md R23) -/

/-- `MASK.BGEN`, bit 3. -/
def maskBgen (m : Byte) : Bool := m.getLsbD 3
/-- `MASK.SPEN`, bit 4. -/
def maskSpen (m : Byte) : Bool := m.getLsbD 4

/-! ### The sprite attribute byte (30_encoding.md R112) -/

/-- `SPAL`, bits 1:0. -/
def attrSpal (a : Byte) : BitVec 2 := a.extractLsb' 0 2
/-- `BEHIND`, bit 5. -/
def attrBehind (a : Byte) : Bool := a.getLsbD 5
/-- `FLIPX`, bit 6. -/
def attrFlipX (a : Byte) : Bool := a.getLsbD 6
/-- `FLIPY`, bit 7. -/
def attrFlipY (a : Byte) : Bool := a.getLsbD 7

/-! ### The status byte (10_state.md R30) -/

/-- The byte an `RD.STATUS` returns: `STATUS_EVEN` while `STCNT` is 0, else `STATUS_ODD`. -/
def statusByte (c : Config) (stCnt : Bool) : Byte := if stCnt then c.statusOdd else c.statusEven

end Sys2Proof.Machine
end

