-- ==== Sys2Proof/Machine/Operands.lean ====
section
/-! DEFINITION. How operands become the values the semantics use (30_encoding.md R109) and the palette
type (43_compositor.md R194). -/

namespace Sys2Proof.Machine

/-- The host address of byte `i` of a DMA, `{page, 0x00} + i` (R109 c). -/
def dmaSource (page : Byte) (i : Nat) : Addr := BitVec.ofNat 16 (256 * page.toNat + i)

/-- `VADDR` with its high byte replaced (R109 d, 41_register_port.md R165). -/
def withHighByte (v : Addr) (d : Byte) : Addr := d ++ v.extractLsb' 0 8

/-- `VADDR` with its low byte replaced (R109 d, 41_register_port.md R165). -/
def withLowByte (v : Addr) (d : Byte) : Addr := v.extractLsb' 8 8 ++ d

/-- A tile number: `{selector bit, index byte}`, 0 to 511 (R109 e). -/
def tileNumber (selector : Bool) (index : Byte) : Nat := index.toNat + 256 * selector.toNat

/-- The effective scroll `{CTRL.NTX, SCROLLX}`, 0 to 511 (R109 f, 45_frame_renderer.md R262). -/
def effectiveScroll (ctrl scrollX : Byte) : Nat := scrollX.toNat + 256 * (ctrlNtx ctrl).toNat

/-- `Inc()`: what a data-port access adds to `VADDR` (41_register_port.md R150). -/
def increment (ctrl : Byte) : Addr := if ctrlInc32 ctrl then 32#16 else 1#16

/-- The five palette types that have a meaning (43_compositor.md R194, R204). -/
inductive PaletteType where
  /-- `ptype` 0: background palette, chosen by the attribute. -/
  | background
  /-- `ptype` 1 to 4: sprite palette `ptype - 1`. -/
  | sprite (palette : BitVec 2)
deriving DecidableEq, Repr

/-- The palette type of a `ptype` number; 5 and above are reserved (43_compositor.md R204). -/
def paletteTypeOf : Nat → Option PaletteType
  | 0 => some .background
  | 1 => some (.sprite 0#2)
  | 2 => some (.sprite 1#2)
  | 3 => some (.sprite 2#2)
  | 4 => some (.sprite 3#2)
  | _ => none

/-- The `ptype` number of a palette type (43_compositor.md R194). -/
def ptypeNumber : PaletteType → Nat
  | .background => 0
  | .sprite p   => p.toNat + 1

end Sys2Proof.Machine
end

