-- ==== Sys2Proof/Machine/Ops.lean ====
section
/-! DEFINITION. The shared operations: keyed lists and byte memories, the PPU address space
(20_memory.md), the cache clear, the host's DMA answers, and taking the next command from what the host
has issued. The block takes no exception and returns from none (60_exceptions.md R340, R344, R345), so
no operation for either stands here. -/

namespace Sys2Proof.Machine

/-! ### Lists keyed by a number, by rising key -/

/-- The value at a key. -/
def lookupKey {α : Type} : List (Nat × α) → Nat → Option α
  | [], _ => none
  | (b, v) :: m, a => if b = a then some v else lookupKey m a

/-- Put a value at a key, keeping the keys rising. -/
def insertKey {α : Type} : List (Nat × α) → Nat → α → List (Nat × α)
  | [], a, v => [(a, v)]
  | (b, u) :: m, a, v =>
    if a < b then (a, v) :: (b, u) :: m
    else if b = a then (a, v) :: m
    else (b, u) :: insertKey m a v

/-- Take a key out. -/
def eraseKey {α : Type} : List (Nat × α) → Nat → List (Nat × α)
  | [], _ => []
  | (b, u) :: m, a => if b = a then eraseKey m a else (b, u) :: eraseKey m a

/-! ### Byte memories -/

/-- The byte at an address. -/
def Memory.read (m : Memory) (a : Nat) : Byte := (lookupKey m a).getD Memory.unlisted

/-- Store a byte at an address, keeping the canonical form. -/
def Memory.write (m : Memory) (a : Nat) (v : Byte) : Memory :=
  if v = Memory.unlisted then eraseKey m a else insertKey m a v

/-! ### The PPU address space -/

/-- Every access reduces the 16-bit address to 14 bits (20_memory.md R65). -/
def ppuAddr (a : Addr) : Nat := a.toNat % 0x4000

/-- `NTIndex`: the byte of `NT` behind a nametable address, 0x2000 to 0x3EFF (20_memory.md R68). -/
def ntIndex (mirror : Vector (Fin 2) 4) (a : Nat) : Nat :=
  (mirror[(a - 0x2000) % 0x1000 / 0x400]'(by omega)).val * 0x400 + (a - 0x2000) % 0x400

/-- The palette byte behind an address from 0x3F00 (20_memory.md R71). -/
def palIndex (a : Nat) : Nat := a % 0x20

/-- `VRead` (20_memory.md R66). -/
def vRead (s : State) (addr : Addr) : Byte :=
  if h : ppuAddr addr < 0x2000 then s.cfg.chr[ppuAddr addr]
  else if ppuAddr addr < 0x3F00 then s.nt.read (ntIndex s.cfg.mirror (ppuAddr addr))
  else s.pal.read (palIndex (ppuAddr addr))

/-- `InvalidateCaches` (44_tile_cache.md R228). -/
def invalidateCaches (s : State) : State := { s with caches := Caches.empty }

/-- The sprite slots whose write also reaches the background slot 16 below (20_memory.md R70). -/
def mirroredSlot (p : Nat) : Bool := p == 0x10 || p == 0x14 || p == 0x18 || p == 0x1C

/-- `PAL` after a write of `v` to index `p`, the one-way mirroring included (20_memory.md R70). -/
def paletteStore (pal : Memory) (p : Nat) (v : Byte) : Memory :=
  if mirroredSlot p then (pal.write p v).write (p - 0x10) v else pal.write p v

/-- `VWrite` (20_memory.md R67). -/
def vWrite (s : State) (addr : Addr) (v : Byte) : State :=
  if ppuAddr addr < 0x2000 then s
  else if ppuAddr addr < 0x3F00 then
    { s with nt := s.nt.write (ntIndex s.cfg.mirror (ppuAddr addr)) v }
  else invalidateCaches { s with pal := paletteStore s.pal (palIndex (ppuAddr addr)) v }

/-- The advance of `VADDR` after a data-port access, modulo 65536 (41_register_port.md R153, R166). -/
def advanceVaddr (s : State) : State := { s with vaddr := s.vaddr + increment s.ctrl }

/-! ### Results and the host -/

/-- `result <- v`: the byte the command returns to the host (00_scope.md R8). -/
def returnByte (s : State) (v : Byte) : State := { s with result := some v }

/-- `ExtRead` during the coming `DMA`: the host's answer where it has one ready, else a free value of
this `DMA` and address (42_oam_dma.md R181). -/
def extRead (s : State) (a : Addr) : Byte :=
  match s.ext.head?.bind (lookupKey · a.toNat) with
  | some v => v
  | none   => Config.extRead s.dmaCount a

/-! ### What the host owns (10_state.md R35, R40) -/

/-- Store a word of the destination buffer; every other word keeps what it holds (R305). -/
def dstWrite (dst : Array (Option Word)) (k : Nat) (v : Word) : Array (Option Word) :=
  if h : k < dst.size then dst.set k (some v)
  else (dst ++ Array.replicate (k - dst.size) none).push (some v)

/-- The word of the destination buffer at `k`: the one the block or the host last wrote there, else its content at power-on,
a free value (10_state.md R40, R43). -/
def dstRead (dst : Array (Option Word)) (k : Nat) : Word := (dst[k]?.join).getD (Config.dstStart k)

/-- `FB32` after a write of the host. -/
def hostFb32 (fb : Frame 32) : HostWrite → Frame 32
  | .fb32 k v => fb.set k.val v
  | .fb16 _ _ | .dst _ _ | .chr _ _ => fb

/-- `FB16` after a write of the host. -/
def hostFb16 (fb : Frame 16) : HostWrite → Frame 16
  | .fb16 k v => fb.set k.val v
  | .fb32 _ _ | .dst _ _ | .chr _ _ => fb

/-- `DST` after a write of the host. -/
def hostDst (dst : Array (Option Word)) : HostWrite → Array (Option Word)
  | .dst k v => dstWrite dst k v
  | .fb32 _ _ | .fb16 _ _ | .chr _ _ => dst

/-- `CHR` after a write of the host. -/
def hostChr (chr : Vector Byte 8192) : HostWrite → Vector Byte 8192
  | .chr k v => chr.set k.val v
  | .fb32 _ _ | .fb16 _ _ | .dst _ _ => chr

/-- The host's writes into its buffers and its pattern memory before the coming command, in the order listed;
a host that lists none writes nothing (70_reset_and_hazards.md R386). The caches see nothing of a change of
`CHR` (44_tile_cache.md R232, 70_reset_and_hazards.md R379). -/
def hostTurn (s : State) : State :=
  let ws := s.hostWrites.head?.getD []
  { s with
    cfg        := { s.cfg with chr := ws.foldl hostChr s.cfg.chr }
    fb32       := ws.foldl hostFb32 s.fb32
    fb16       := ws.foldl hostFb16 s.fb16
    dst        := ws.foldl hostDst s.dst
    hostWrites := s.hostWrites.tail }

/-! ### The fetch of a command -/

/-- The next command the host has issued, and the state in which it is performed: its words are taken
and the earlier command's result is gone. `none` while no whole command has been issued
(00_scope.md R5, 30_encoding.md R108). -/
def fetchCommand (s : State) : Option (Instr × State) :=
  match decode s.cmds with
  | .ok (i, rest) => some (i, { s with cmds := rest, result := none })
  | .error _      => none

/-- What a step does while no whole command has been issued: nothing, and nothing is returned. -/
def idle (s : State) : State := { s with result := none }

end Sys2Proof.Machine
end

