-- ==== Sys2Proof/Machine/Dma.lean ====
section
/-! DEFINITION. OAM DMA (42_oam_dma.md). -/

namespace Sys2Proof.Machine

/-- The 256 stores of a `DMA`, in ascending `i`: byte `i` of the page lands at `(OAMADDR + i) mod 256`
(R180, R181). -/
def dmaStores (s : State) (page : Byte) : Memory :=
  (List.range 256).foldl
    (fun m i => m.write ((s.oamAddr.toNat + i) % 256) (extRead s (dmaSource page i))) s.oam

/-- DMA (R180): `OAM` is filled, `OAMADDR` ends where it began. The host's image for this `DMA` is
used up. -/
def execDma (page : Byte) (s : State) : Host.Outcome State Fault Refusal :=
  .next { s with oam := dmaStores s page, ext := s.ext.tail, dmaCount := s.dmaCount + 1 }

end Sys2Proof.Machine
end

