-- ==== Sys2Proof/Machine/HostControl.lean ====
section
/-! DEFINITION. The host control commands (47_host_control.md) and the reserved codes (30_encoding.md R107). -/

namespace Sys2Proof.Machine

/-- LOADRGB (R320). -/
def execLoadRgb (index : BitVec 6) (value : Word) (s : State) : Host.Outcome State Fault Refusal :=
  .next (invalidateCaches { s with rgb := s.rgb.set index.toNat value })

/-- CCLR (R322). -/
def execCclr (s : State) : Host.Outcome State Fault Refusal :=
  .next (invalidateCaches s)

/-- Every register zero, as after power-on (10_state.md R43). -/
def clearRegisters (s : State) : State :=
  { s with
    ctrl := 0x00#8, mask := 0x00#8, oamAddr := 0x00#8, scrollX := 0x00#8, scrollY := 0x00#8
    vaddr := 0x0000#16, w := false, rdBuf := 0x00#8, stCnt := false }

/-- The three memories all zero: nothing listed (10_state.md R43). -/
def clearMemories (s : State) : State := { s with nt := [], pal := [], oam := [] }

/-- RESET (R324). `RGB`, `CHR`, the frame buffers and `DST` are kept. -/
def execReset (s : State) : Host.Outcome State Fault Refusal :=
  .next (invalidateCaches { clearMemories (clearRegisters s) with sc := none })

/-- A reserved code is a no-operation: "it changes no state and returns nothing" (R107). -/
def noOperation (s : State) : State := s

/-- RESERVED_9 (R107). -/
def execReserved9 (s : State) : Host.Outcome State Fault Refusal := .next (noOperation s)
/-- RESERVED_A (R107). -/
def execReservedA (s : State) : Host.Outcome State Fault Refusal := .next (noOperation s)
/-- RESERVED_B (R107). -/
def execReservedB (s : State) : Host.Outcome State Fault Refusal := .next (noOperation s)
/-- RESERVED_C (R107). -/
def execReservedC (s : State) : Host.Outcome State Fault Refusal := .next (noOperation s)
/-- RESERVED_D (R107). -/
def execReservedD (s : State) : Host.Outcome State Fault Refusal := .next (noOperation s)
/-- RESERVED_E (R107). -/
def execReservedE (s : State) : Host.Outcome State Fault Refusal := .next (noOperation s)
/-- RESERVED_F (R107). -/
def execReservedF (s : State) : Host.Outcome State Fault Refusal := .next (noOperation s)

end Sys2Proof.Machine
end

