-- ==== Sys2Proof/Machine/RegisterPort.lean ====
section
/-! DEFINITION. The meanings of `RD` and `WR` (41_register_port.md). The address operand has selected
the sub-opcode; nothing else depends on it. -/

namespace Sys2Proof.Machine

/-! ### Reads -/

/-- RD.STATUS (R151). -/
def execRdStatus (_addr : Addr) (s : State) : Host.Outcome State Fault Refusal :=
  .next (returnByte { s with stCnt := !s.stCnt, w := false } (statusByte s.cfg s.stCnt))

/-- RD.OAMDATA (R152). -/
def execRdOamData (_addr : Addr) (s : State) : Host.Outcome State Fault Refusal :=
  .next (returnByte s (s.oam.read s.oamAddr.toNat))

/-- RD.DATA (R153): the old buffer is returned, the byte at `VADDR` is fetched, `VADDR` advances. -/
def execRdData (_addr : Addr) (s : State) : Host.Outcome State Fault Refusal :=
  .next (returnByte (advanceVaddr { s with rdBuf := vRead s s.vaddr }) s.rdBuf)

/-- RD.OTHER (R154). -/
def execRdOther (_addr : Addr) (s : State) : Host.Outcome State Fault Refusal :=
  .next (returnByte s 0x00#8)

/-! ### Writes -/

/-- WR.CTRL (R160). -/
def execWrCtrl (_addr : Addr) (data : Byte) (s : State) : Host.Outcome State Fault Refusal :=
  .next { s with ctrl := data }

/-- WR.MASK (R161). -/
def execWrMask (_addr : Addr) (data : Byte) (s : State) : Host.Outcome State Fault Refusal :=
  .next { s with mask := data }

/-- WR.OAMADDR (R162). -/
def execWrOamAddr (_addr : Addr) (data : Byte) (s : State) : Host.Outcome State Fault Refusal :=
  .next { s with oamAddr := data }

/-- WR.OAMDATA (R163). -/
def execWrOamData (_addr : Addr) (data : Byte) (s : State) : Host.Outcome State Fault Refusal :=
  .next { s with oam := s.oam.write s.oamAddr.toNat data, oamAddr := s.oamAddr + 1#8 }

/-- WR.SCROLL (R164). -/
def execWrScroll (_addr : Addr) (data : Byte) (s : State) : Host.Outcome State Fault Refusal :=
  .next { s with
    scrollX := if s.w then s.scrollX else data
    scrollY := if s.w then data else s.scrollY
    w := !s.w }

/-- WR.ADDR (R165). -/
def execWrAddr (_addr : Addr) (data : Byte) (s : State) : Host.Outcome State Fault Refusal :=
  .next { s with
    vaddr := if s.w then withLowByte s.vaddr data else withHighByte s.vaddr data
    w := !s.w }

/-- WR.DATA (R166). -/
def execWrData (_addr : Addr) (data : Byte) (s : State) : Host.Outcome State Fault Refusal :=
  .next (advanceVaddr (vWrite s s.vaddr data))

/-- WR.OTHER (R167). -/
def execWrOther (_addr : Addr) (_data : Byte) (s : State) : Host.Outcome State Fault Refusal :=
  .next s

end Sys2Proof.Machine
end

