-- ==== Sys2Proof/Machine/Pattern.lean ====
section
/-! DEFINITION. The Pattern Memory Accessor (40_pattern_accessor.md). -/

namespace Sys2Proof.Machine

/-- `READPLANE(tile, row)`: rows 0 to 7 are bit-plane 1, rows 8 to 15 bit-plane 2; an offset at or above
0x2000 reads as 0 (R140, R141). -/
def readPlane (chr : Vector Byte 8192) (tile : Nat) (row : Fin 16) : Byte :=
  if h : 16 * tile + row.val < 8192 then chr[16 * tile + row.val] else 0x00#8

/-- Bit-plane 1 of pixel row `row` (R142). -/
def plane1 (chr : Vector Byte 8192) (tile : Nat) (row : Fin 8) : Byte :=
  readPlane chr tile ⟨row.val, by omega⟩

/-- Bit-plane 2 of pixel row `row` (R142). -/
def plane2 (chr : Vector Byte 8192) (tile : Nat) (row : Fin 8) : Byte :=
  readPlane chr tile ⟨row.val + 8, by omega⟩

end Sys2Proof.Machine
end

