-- ==== Sys2Proof/Machine/Compositor.lean ====
section
/-! DEFINITION. The Pixel Compositor (43_compositor.md): pure functions of `CHR`, `PAL`, `RGB` and `NT`.
`row` and `px` are the row and the pixel column of 00_scope.md R9, both from the top left. -/

namespace Sys2Proof.Machine

/-! ### Places in a block -/

/-- The index `8*row + px` of a pixel (10_state.md R37). -/
def cellIndex (row px : Fin 8) : Fin 64 := ⟨8 * row.val + px.val, by omega⟩
/-- The row of an index. -/
def cellRow (i : Fin 64) : Fin 8 := ⟨i.val / 8, by omega⟩
/-- The pixel column of an index. -/
def cellCol (i : Fin 64) : Fin 8 := ⟨i.val % 8, by omega⟩

/-- The pixel of a block at a row and a pixel column. -/
def Block.at {n : Nat} (b : Block n) (row px : Fin 8) : Option (BitVec n) := b[cellIndex row px]

/-- A coordinate, mirrored when its flip flag is set (R193). -/
def mirrorIf (flip : Bool) (k : Fin 8) : Fin 8 := if flip then k.rev else k

/-- `Flip(B, flipX, flipY)` (R193). -/
def flipBlock {n : Nat} (flipX flipY : Bool) (b : Block n) : Block n :=
  Vector.ofFn fun i => Block.at b (mirrorIf flipY (cellRow i)) (mirrorIf flipX (cellCol i))

/-! ### From pattern to palette byte -/

/-- `Idx(tile, row, px)`: bit column `7 - px` of the two planes, plane 2 the more significant (R190). -/
def pixelIndex (chr : Vector Byte 8192) (tile : Nat) (row px : Fin 8) : BitVec 2 :=
  BitVec.ofNat 2 (2 * ((plane2 chr tile row).getLsbD (7 - px.val)).toNat
    + ((plane1 chr tile row).getLsbD (7 - px.val)).toNat)

/-- `Decode(tile)` (R191). -/
def decodeTile (chr : Vector Byte 8192) (tile : Nat) : Vector (BitVec 2) 64 :=
  Vector.ofFn fun i => pixelIndex chr tile (cellRow i) (cellCol i)

/-- `PalByte(ptype, attr, idx)`; `none` is `T` (R195). -/
def palByte (pal : Memory) (pt : PaletteType) (attr : BitVec 4) (idx : BitVec 2) : Option Byte :=
  match pt with
  | .background =>
    if idx = 0#2 then some (pal.read 0) else some (pal.read (4 * (attr.toNat % 4) + idx.toNat))
  | .sprite p =>
    if idx = 0#2 then none else some (pal.read (0x10 + 4 * p.toNat + idx.toNat))

/-! ### From palette byte to pixel -/

/-- `Colour32(e)`: the low six bits index the RGB table (R197). -/
def colour32 (rgb : Vector Word 64) (e : Byte) : BitVec 32 := rgb[e.toNat % 64]'(by omega)

/-- `To565(w)`: the top 5, 6 and 5 bits of the three channels (R198). -/
def to565 (w : Word) : BitVec 16 := w.extractLsb' 19 5 ++ w.extractLsb' 10 6 ++ w.extractLsb' 3 5

/-- `Colour16(e)` (R199). -/
def colour16 (rgb : Vector Word 64) (e : Byte) : BitVec 16 := to565 (colour32 rgb e)

/-- `UBC32` (R196). -/
def ubc32 (s : State) : BitVec 32 := colour32 s.rgb (s.pal.read 0)

/-- `UBC16` (R196). -/
def ubc16 (s : State) : BitVec 16 := colour16 s.rgb (s.pal.read 0)

/-! ### The background attribute -/

/-- The shift of a cell's two bits in its attribute byte (R200, 30_encoding.md R113). -/
def attrShift (tx ty : Nat) : Nat := 4 * (ty / 2 % 2) + 2 * (tx / 2 % 2)

/-- `AttrOf(base, tx, ty)` (R200). -/
def attrOf (s : State) (base tx ty : Nat) : BitVec 2 :=
  (vRead s (BitVec.ofNat 16 (base + 0x3C0 + 8 * (ty / 4) + tx / 4))).extractLsb' (attrShift tx ty) 2

/-! ### Blocks -/

/-- The palette bytes of a tile's pixels, unflipped; `none` is `T` (R190, R195). -/
def paletteBlock (s : State) (tile : Nat) (pt : PaletteType) (attr : BitVec 4) :
    Vector (Option Byte) 64 :=
  (decodeTile s.cfg.chr tile).map (palByte s.pal pt attr)

/-- `Block32(tile, ptype, attr, flipX, flipY)` (R201). -/
def block32 (s : State) (tile : Nat) (pt : PaletteType) (attr : BitVec 4) (flipX flipY : Bool) :
    Block 32 :=
  flipBlock flipX flipY ((paletteBlock s tile pt attr).map (Option.map (colour32 s.rgb)))

/-- `Block16(tile, ptype, attr, flipX, flipY)` (R202). -/
def block16 (s : State) (tile : Nat) (pt : PaletteType) (attr : BitVec 4) (flipX flipY : Bool) :
    Block 16 :=
  flipBlock flipX flipY ((paletteBlock s tile pt attr).map (Option.map (colour16 s.rgb)))

end Sys2Proof.Machine
end

