-- ==== Sys2Proof/Machine/TileCache.lean ====
section
/-! DEFINITION. The Tile Pixel Cache (44_tile_cache.md). `tile` and `ptype` are plain numbers, so that a
request out of range can be made and is answered with nothing (R222, R230). -/

namespace Sys2Proof.Machine

/-- The hit condition: the three tags agree (R221). The entry is the one at the request's index. -/
def cacheHit (e : BaseEntry) (tile ptype : Nat) (attr : BitVec 4) : Bool :=
  e.tile.toNat == tile && e.ptype.toNat == ptype && e.attr == attr

/-- A miss: the block is computed from `CHR`, `PAL` and `RGB` as they are, tagged and stored (R222). -/
def refillBase (s : State) (tile ptype : Nat) (pt : PaletteType) (attr : BitVec 4) (c : Caches)
    (h : 8 * tile + ptype < 4096) : Block 16 × Caches :=
  let b := block16 s tile pt attr false false
  (b, { c with
    bc := c.bc.set (8 * tile + ptype) (some ⟨BitVec.ofNat 9 tile, BitVec.ofNat 3 ptype, attr, b⟩) h })

/-- `GetBase(tile, ptype, attr)`: the block, or nothing for a request out of range, and the caches
after it (R222). -/
def getBase (s : State) (tile ptype : Nat) (attr : BitVec 4) (c : Caches) : Option (Block 16) × Caches :=
  match paletteTypeOf ptype with
  | none => (none, c)
  | some pt =>
    if h : tile < 512 ∧ 8 * tile + ptype < 4096 then
      match c.bc[8 * tile + ptype] with
      | some e =>
        if cacheHit e tile ptype attr then (some e.px, c)
        else let (b, c') := refillBase s tile ptype pt attr c h.2; (some b, c')
      | none => let (b, c') := refillBase s tile ptype pt attr c h.2; (some b, c')
    else (none, c)

/-- The flip-cache key (30_encoding.md R118); its fields do not overlap, so the sum is the packed word. -/
def flipKey (tile ptype : Nat) (attr : BitVec 4) (flipX flipY : Bool) : Nat :=
  65536 * tile + 256 * ptype + 16 * attr.toNat + (flipX.toNat + 2 * flipY.toNat)

/-- `GetFlipped(tile, ptype, attr, flipX, flipY)` (R224). -/
def getFlipped (s : State) (tile ptype : Nat) (attr : BitVec 4) (flipX flipY : Bool) (c : Caches) :
    Option (Block 16) × Caches :=
  match lookupKey c.fc (flipKey tile ptype attr flipX flipY) with
  | some b => (some b, c)
  | none =>
    match getBase s tile ptype attr c with
    | (none, c') => (none, c')
    | (some b, c') =>
      let f := flipBlock flipX flipY b
      (some f, { c' with fc := insertKey c'.fc (flipKey tile ptype attr flipX flipY) f })

end Sys2Proof.Machine
end

