-- ==== Sys2Proof/Machine/Renderer.lean ====
section
/-! DEFINITION. The Frame Renderer (45_frame_renderer.md): one algorithm over a canvas, used with the
32-bit frame for `RENDER32` and with the 16-bit frame and the caches for `RENDER16`. Screen coordinates
are integers (00_scope.md R9). -/

namespace Sys2Proof.Machine

/-! ### The frame -/

/-- The frame word at a place, if the place is on the frame. -/
def framePixel {n : Nat} (fb : Frame n) (X Y : Int) : Option (BitVec n) :=
  if h : 0 ≤ X ∧ X ≤ 255 ∧ 0 ≤ Y ∧ Y ≤ 239 then some (fb[(256 * Y + X).toNat]'(by omega)) else none

/-- `Put(X, Y, v)`: a pixel outside the frame is dropped (R265). -/
def put {n : Nat} (fb : Frame n) (X Y : Int) (v : BitVec n) : Frame n :=
  if h : 0 ≤ X ∧ X ≤ 255 ∧ 0 ≤ Y ∧ Y ≤ 239 then fb.set (256 * Y + X).toNat v (by omega) else fb

/-- `Fill()` (R252). -/
def fill {n : Nat} (ubc : BitVec n) : Frame n := Vector.replicate 61440 ubc

/-- The rows and pixel columns of an 8 by 8 block, row by row. -/
def blockCells : List (Fin 8 × Fin 8) :=
  [0, 1, 2, 3, 4, 5, 6, 7].flatMap fun r => [0, 1, 2, 3, 4, 5, 6, 7].map fun p => (r, p)

/-! ### Sprites -/

/-- Sprite `i` as read from `OAM` (R253). -/
structure Sprite where
  index : Nat
  y     : Byte
  tile  : Byte
  attr  : Byte
  x     : Byte
deriving DecidableEq, Repr

/-- Reading sprite `i` (R253, 30_encoding.md R112). -/
def readSprite (oam : Memory) (i : Nat) : Sprite where
  index := i
  y     := oam.read (4 * i)
  tile  := oam.read (4 * i + 1)
  attr  := oam.read (4 * i + 2)
  x     := oam.read (4 * i + 3)

/-- `special`: sprite 0 with tile byte 0xFF (R253). -/
def special (sp : Sprite) : Bool := sp.index == 0 && sp.tile == specialTile

/-- `Visible(i)` (R255). -/
def visible (sp : Sprite) : Bool := decide (sp.y < spriteYLimit) && decide (sp.x < spriteXLimit)

/-- `ptype = SPAL + 1` (R256). -/
def spritePtype (sp : Sprite) : Nat := (attrSpal sp.attr).toNat + 1

/-- The sprite's tile number (R256). -/
def spriteTile (s : State) (sp : Sprite) : Nat := tileNumber (ctrlSpt s.ctrl) sp.tile

/-- The special sprite's two pixels that are never written, in the pattern's own coordinates: row 5,
bit columns 4 and 5 (R258). -/
def skipped (sp : Sprite) (row px : Fin 8) : Bool := special sp && row == 5 && (px == 2 || px == 3)

/-- The suppress test: with `some ubc` (a `BEHIND` sprite of `RENDER16`) a pixel is suppressed where the
frame differs from `ubc`; with `none` no test is made (R259). -/
def suppressed {n : Nat} (test : Option (BitVec n)) (fb : Frame n) (X Y : Int) : Bool :=
  match test, framePixel fb X Y with
  | some ubc, some p => p != ubc
  | _, _             => false

/-- One pixel of `DrawSprite`, `dx` and `dy` from the sprite's top left on the screen (R257). -/
def spritePixel {n : Nat} (sp : Sprite) (test : Option (BitVec n)) (f : Block n) (fb : Frame n)
    (dy dx : Fin 8) : Frame n :=
  match Block.at f dy dx with
  | none   => fb
  | some v =>
    if skipped sp (mirrorIf (attrFlipY sp.attr) dy) (mirrorIf (attrFlipX sp.attr) dx) then fb
    else if suppressed test fb (sp.x.toNat + dx.val) (sp.y.toNat + 1 + dy.val) then fb
    else put fb (sp.x.toNat + dx.val) (sp.y.toNat + 1 + dy.val) v

/-- The 64 pixels of `DrawSprite` (R257). -/
def blitSprite {n : Nat} (sp : Sprite) (test : Option (BitVec n)) (f : Block n) (fb : Frame n) : Frame n :=
  blockCells.foldl (fun fb c => spritePixel sp test f fb c.1 c.2) fb

/-! ### Background -/

/-- One cell of the background: the nametable it comes from, its column and row there, and its top left
on the screen. -/
structure BgCell where
  base : Nat
  tx   : Nat
  ty   : Nat
  x0   : Int
  y0   : Int
deriving DecidableEq, Repr

/-- `Window(col)` (R263). -/
def window (col : Nat) : Nat × Nat :=
  if col < 32 then (0x2000, col) else if col < 64 then (0x2400, col - 32) else (0x2800, col - 64)

/-- The status-bar cells, tile rows 0 to 3 (R260, R261). -/
def statusCells : List BgCell :=
  (List.range statusRows).flatMap fun ty =>
    (List.range bgCols).map fun tx => ⟨0x2000, tx, ty, 8 * tx, 8 * ty⟩

/-- The scrolled cells of one tile column, tile rows 4 to 29 (R260). -/
def columnCells (sx col : Nat) : List BgCell :=
  (List.range' statusRows (bgRows - statusRows)).map fun ty =>
    ⟨(window col).1, (window col).2, ty, 8 * (col : Int) - sx, 8 * ty⟩

/-- The scrolled cells, columns `sx div 8` to `(sx + 256) div 8` (R260, R262). -/
def scrolledCells (sx : Nat) : List BgCell :=
  (List.range' (sx / 8) ((sx + 256) / 8 - sx / 8 + 1)).flatMap (columnCells sx)

/-- The cells of the background pass, in its order (R260). -/
def backgroundCells (s : State) : List BgCell :=
  statusCells ++ scrolledCells (effectiveScroll s.ctrl s.scrollX)

/-- The cell's tile number (R264). -/
def bgTile (s : State) (c : BgCell) : Nat :=
  tileNumber (ctrlBpt s.ctrl) (vRead s (BitVec.ofNat 16 (c.base + 32 * c.ty + c.tx)))

/-- The cell's attribute, as the caches' four bits (R264, 44_tile_cache.md R226). -/
def bgAttr (s : State) (c : BgCell) : BitVec 4 := (attrOf s c.base c.tx c.ty).setWidth 4

/-- One pixel of `DrawBgTile`, of a tile whose top left is at `(x0, y0)` (R264). -/
def tilePixel {n : Nat} (x0 y0 : Int) (b : Block n) (fb : Frame n) (row px : Fin 8) : Frame n :=
  match Block.at b row px with
  | none   => fb
  | some v => put fb (x0 + px.val) (y0 + row.val) v

/-- The 64 puts of `DrawBgTile` (R264). -/
def blitTile {n : Nat} (x0 y0 : Int) (b : Block n) (fb : Frame n) : Frame n :=
  blockCells.foldl (fun fb c => tilePixel x0 y0 b fb c.1 c.2) fb

/-! ### The passes, over any canvas -/

/-- The order of the behind pass, 63 down to 0 (R254). -/
def behindOrder : List Nat := (List.range 64).reverse

/-- The order of the front pass, `j = 64 .. 1`, `i = j mod 64`: 0, 63, 62, ..., 1 (R266). -/
def frontOrder : List Nat := (List.range' 1 64).reverse.map (· % 64)

/-- A sprite of the behind pass (R254). -/
def inBehindPass (sp : Sprite) : Bool := attrBehind sp.attr && visible sp

/-- A sprite of the front pass (R266). -/
def inFrontPass (sp : Sprite) : Bool := (!attrBehind sp.attr || special sp) && visible sp

/-- `BehindPass()` (R254). -/
def behindPass {σ : Type} (s : State) (draw : Sprite → σ → σ) (c : σ) : σ :=
  behindOrder.foldl
    (fun c i => if inBehindPass (readSprite s.oam i) then draw (readSprite s.oam i) c else c) c

/-- `FrontPass()` (R266). -/
def frontPass {σ : Type} (s : State) (draw : Sprite → σ → σ) (c : σ) : σ :=
  frontOrder.foldl
    (fun c i => if inFrontPass (readSprite s.oam i) then draw (readSprite s.oam i) c else c) c

/-- `BackgroundPass()` (R260). -/
def backgroundPass {σ : Type} (s : State) (draw : BgCell → σ → σ) (c : σ) : σ :=
  (backgroundCells s).foldl (fun c cell => draw cell c) c

/-- Steps 2 to 4 of a render command, after the fill (R250, R251). -/
def renderPasses {σ : Type} (s : State) (sprite : Sprite → σ → σ) (cell : BgCell → σ → σ) (c : σ) : σ :=
  let c := if maskSpen s.mask then behindPass s sprite c else c
  let c := if maskBgen s.mask then backgroundPass s cell c else c
  if maskSpen s.mask then frontPass s sprite c else c

/-! ### The true-colour path -/

/-- `DrawSprite` in `RENDER32` (R257). -/
def drawSprite32 (s : State) (sp : Sprite) (fb : Frame 32) : Frame 32 :=
  blitSprite sp none
    (block32 s (spriteTile s sp) (.sprite (attrSpal sp.attr)) 0#4 (attrFlipX sp.attr) (attrFlipY sp.attr)) fb

/-- `DrawBgTile` in `RENDER32` (R264). -/
def drawCell32 (s : State) (c : BgCell) (fb : Frame 32) : Frame 32 :=
  blitTile c.x0 c.y0 (block32 s (bgTile s c) .background (bgAttr s c) false false) fb

/-- The frame `RENDER32` builds (R250). -/
def renderFrame32 (s : State) : Frame 32 :=
  renderPasses s (drawSprite32 s) (drawCell32 s) (fill (ubc32 s))

/-- RENDER32 (R250). -/
def execRender32 (s : State) : Host.Outcome State Fault Refusal :=
  .next { s with fb32 := renderFrame32 s }

/-! ### The compact path -/

/-- What `RENDER16` writes: the frame and the caches. -/
structure Canvas16 where
  fb     : Frame 16
  caches : Caches
deriving DecidableEq, Repr

/-- What the compact path asks for to draw a sprite (44_tile_cache.md R226). -/
def spriteBlock16 (s : State) (sp : Sprite) (c : Caches) : Option (Block 16) × Caches :=
  if attrFlipX sp.attr || attrFlipY sp.attr then
    getFlipped s (spriteTile s sp) (spritePtype sp) 0#4 (attrFlipX sp.attr) (attrFlipY sp.attr) c
  else getBase s (spriteTile s sp) (spritePtype sp) 0#4 c

/-- The suppress test `RENDER16` makes for a sprite's pixels (R259). -/
def spriteTest (s : State) (sp : Sprite) : Option (BitVec 16) :=
  if attrBehind sp.attr then some (ubc16 s) else none

/-- `DrawSprite` in `RENDER16`; a request the cache answers with nothing draws nothing (R257,
44_tile_cache.md R230). -/
def drawSprite16 (s : State) (sp : Sprite) (c : Canvas16) : Canvas16 :=
  match spriteBlock16 s sp c.caches with
  | (none, k)   => { c with caches := k }
  | (some f, k) => ⟨blitSprite sp (spriteTest s sp) f c.fb, k⟩

/-- `DrawBgTile` in `RENDER16` (R264). -/
def drawCell16 (s : State) (cell : BgCell) (c : Canvas16) : Canvas16 :=
  match getBase s (bgTile s cell) 0 (bgAttr s cell) c.caches with
  | (none, k)   => { c with caches := k }
  | (some b, k) => ⟨blitTile cell.x0 cell.y0 b c.fb, k⟩

/-- The frame `RENDER16` builds and the caches it leaves (R251). -/
def renderCanvas16 (s : State) : Canvas16 :=
  renderPasses s (drawSprite16 s) (drawCell16 s) ⟨fill (ubc16 s), s.caches⟩

/-- RENDER16 (R251). -/
def execRender16 (s : State) : Host.Outcome State Fault Refusal :=
  .next { s with fb16 := (renderCanvas16 s).fb, caches := (renderCanvas16 s).caches }

end Sys2Proof.Machine
end

