-- ==== Sys2Proof/Machine/Scaler.lean ====
section
/-! DEFINITION. The Output Scaler (46_output_scaler.md). -/

namespace Sys2Proof.Machine

/-- The scale factor (R301). -/
def scaleFactor (destW destH : Nat) : Nat := max 1 (min (destW / 256) (destH / 240))

/-- `Params(destW, destH)` (R301, R302). -/
def scaleParams (destW destH : BitVec 13) : ScaleCache :=
  let f := scaleFactor destW.toNat destH.toNat
  let offX := (destW.toNat - 256 * f) / 2
  let offY := (destH.toNat - 240 * f) / 2
  { destW := destW
    destH := destH
    factor := f
    offX := offX
    offY := offY
    mapX := Vector.ofFn fun x => offX + x.val * f
    mapY := Vector.ofFn fun y => offY + y.val * f }

/-- The scaling cache a `SCALE` works with: the one in place when it is valid for the size, else a new
one (R300). -/
def scaleCacheFor (s : State) (destW destH : BitVec 13) : ScaleCache :=
  match s.sc with
  | some sc => if sc.destW = destW ∧ sc.destH = destH then sc else scaleParams destW destH
  | none    => scaleParams destW destH

/-- The source word at row `y`, column `x`; a 16-bit word is zero-extended (R300, R308). -/
def sourceWord (s : State) (src : FrameSource) (y : Fin 240) (x : Fin 256) : Word :=
  match src with
  | .fb16 => (s.fb16[256 * y.val + x.val]'(by omega)).setWidth 32
  | .fb32 => s.fb32[256 * y.val + x.val]'(by omega)

/-- The `f` by `f` stores of one source pixel: index `destW * (mapY[y] + j) + (mapX[x] + i)` (R300). -/
def scalePixel (sc : ScaleCache) (y : Fin 240) (x : Fin 256) (v : Word) (dst : Array (Option Word)) :
    Array (Option Word) :=
  (List.range sc.factor).foldl
    (fun dst j => (List.range sc.factor).foldl
      (fun dst i => dstWrite dst (sc.destW.toNat * (sc.mapY[y] + j) + (sc.mapX[x] + i)) v) dst) dst

/-- The destination buffer after a `SCALE` (R300). -/
def scaleImage (s : State) (src : FrameSource) (sc : ScaleCache) : Array (Option Word) :=
  (List.finRange 240).foldl
    (fun dst y => (List.finRange 256).foldl
      (fun dst x => scalePixel sc y x (sourceWord s src y x) dst) dst) s.dst

/-- Does the command do anything: the scaler is there and the destination is no smaller than the source
(R306, R307). -/
def scaleRuns (s : State) (destW destH : BitVec 13) : Bool :=
  s.cfg.hasScaler && decide (256 ≤ destW.toNat) && decide (240 ≤ destH.toNat)

/-- SCALE (R300). -/
def execScale (src : FrameSource) (destW destH : BitVec 13) (s : State) : Host.Outcome State Fault Refusal :=
  .next (if scaleRuns s destW destH then
      { s with sc := some (scaleCacheFor s destW destH), dst := scaleImage s src (scaleCacheFor s destW destH) }
    else s)

end Sys2Proof.Machine
end

