-- ==== Sys2Proof/Machine/Dispatch.lean ====
section
/-! DEFINITION. Which meaning each command has. -/

namespace Sys2Proof.Machine

def exec (i : Instr) (s : State) : Host.Outcome State Fault Refusal :=
  match i with
  | .rdStatus addr => Sys2Proof.Machine.execRdStatus addr s
  | .rdOamData addr => Sys2Proof.Machine.execRdOamData addr s
  | .rdData addr => Sys2Proof.Machine.execRdData addr s
  | .rdOther addr => Sys2Proof.Machine.execRdOther addr s
  | .wrCtrl addr data => Sys2Proof.Machine.execWrCtrl addr data s
  | .wrMask addr data => Sys2Proof.Machine.execWrMask addr data s
  | .wrOamAddr addr data => Sys2Proof.Machine.execWrOamAddr addr data s
  | .wrOamData addr data => Sys2Proof.Machine.execWrOamData addr data s
  | .wrScroll addr data => Sys2Proof.Machine.execWrScroll addr data s
  | .wrAddr addr data => Sys2Proof.Machine.execWrAddr addr data s
  | .wrData addr data => Sys2Proof.Machine.execWrData addr data s
  | .wrOther addr data => Sys2Proof.Machine.execWrOther addr data s
  | .dma page => Sys2Proof.Machine.execDma page s
  | .render32 => Sys2Proof.Machine.execRender32 s
  | .render16 => Sys2Proof.Machine.execRender16 s
  | .scale src destW destH => Sys2Proof.Machine.execScale src destW destH s
  | .cclr => Sys2Proof.Machine.execCclr s
  | .loadRgb index value => Sys2Proof.Machine.execLoadRgb index value s
  | .reset => Sys2Proof.Machine.execReset s
  | .reserved9 => Sys2Proof.Machine.execReserved9 s
  | .reservedA => Sys2Proof.Machine.execReservedA s
  | .reservedB => Sys2Proof.Machine.execReservedB s
  | .reservedC => Sys2Proof.Machine.execReservedC s
  | .reservedD => Sys2Proof.Machine.execReservedD s
  | .reservedE => Sys2Proof.Machine.execReservedE s
  | .reservedF => Sys2Proof.Machine.execReservedF s

end Sys2Proof.Machine
end

