-- ==== Sys2Proof/Machine/Step.lean ====
section
/-! DEFINITION. One step: the host writes into its buffers and its pattern memory what it has listed for this
step (70_reset_and_hazards.md R386, 44_tile_cache.md R232), then the block performs the next command the host has issued, whole
(00_scope.md R5), or waits where no whole command has been issued. -/

namespace Sys2Proof.Machine

/-- One step of the block. -/
def step (s : State) : Host.Outcome State Fault Refusal :=
  match fetchCommand (hostTurn s) with
  | some (i, s') => exec i s'
  | none         => .next (idle (hostTurn s))

/-- The state in which the command whose `nbits` bits are `w` is the next one the block performs: its
words stand before those already issued. -/
def State.withFetchWord (s : State) (nbits w : Nat) : State :=
  { s with cmds := tableWords nbits w ++ s.cmds }

end Sys2Proof.Machine
end

