-- ==== Sys2Proof/Safety.lean ====
section
/-! DEFINITION. What the claims mean by a good state and by a run of commands. -/

namespace Sys2Proof

/-! ### The fields of a command word -/

/-- The `OP` code of a command (30_encoding.md R105). -/
def Instr.opCode : Instr → BitVec 4
  | .rdStatus _ | .rdOamData _ | .rdData _ | .rdOther _ => 0x0#4
  | .wrCtrl _ _ | .wrMask _ _ | .wrOamAddr _ _ | .wrOamData _ _ => 0x1#4
  | .wrScroll _ _ | .wrAddr _ _ | .wrData _ _ | .wrOther _ _ => 0x1#4
  | .dma _ => 0x2#4
  | .render32 => 0x3#4
  | .render16 => 0x4#4
  | .scale _ _ _ => 0x5#4
  | .cclr => 0x6#4
  | .loadRgb _ _ => 0x7#4
  | .reset => 0x8#4
  | .reserved9 => 0x9#4
  | .reservedA => 0xA#4
  | .reservedB => 0xB#4
  | .reservedC => 0xC#4
  | .reservedD => 0xD#4
  | .reservedE => 0xE#4
  | .reservedF => 0xF#4

/-- The bits of a first word that are not ignored, by its `OP`: `OP` itself and the fields the command
uses (30_encoding.md R101 to R104). -/
def operandMask (op : BitVec 4) : Word :=
  if op = 0x0#4 then 0xF0FFFF00#32        -- RD: ADDR
  else if op = 0x1#4 then 0xF0FFFFFF#32   -- WR: ADDR, DATA
  else if op = 0x2#4 then 0xF00000FF#32   -- DMA: DATA
  else if op = 0x5#4 then 0xFBFFFFFF#32   -- SCALE: SRC, DESTW, DESTH
  else if op = 0x7#4 then 0xF000003F#32   -- LOADRGB: INDEX
  else 0xF0000000#32

/-- The commands that return a byte: the four `RD` (30_encoding.md R105). -/
def Instr.returnsByte (i : Instr) : Bool := i.opCode == 0x0#4

end Sys2Proof

namespace Sys2Proof.Machine

/-! ### Good states -/

/-- The three memories are in their canonical form (10_state.md R32 to R34). -/
def memoriesGood (s : State) : Prop :=
  Memory.wf ntSize s.nt ∧ Memory.wf palSize s.pal ∧ Memory.wf oamSize s.oam

/-- A base-cache entry stands at its own index, has a palette type with a meaning, and holds the block its
tags name, of the pattern, palette and RGB bytes as they now are (44_tile_cache.md R221, R231). -/
def baseEntryGood (s : State) (k : Nat) (e : BaseEntry) : Prop :=
  k = 8 * e.tile.toNat + e.ptype.toNat ∧
    ∃ pt, paletteTypeOf e.ptype.toNat = some pt ∧ e.px = block16 s e.tile.toNat pt e.attr false false

/-- A flip-cache entry stands under the key of a request in range and holds that request's block
(44_tile_cache.md R224, R231). -/
def flipEntryGood (s : State) (p : Nat × Block 16) : Prop :=
  ∃ tile ptype pt attr flipX flipY, tile < 512 ∧ paletteTypeOf ptype = some pt ∧
    p.1 = flipKey tile ptype attr flipX flipY ∧ p.2 = block16 s tile pt attr flipX flipY

/-- The state with other pattern content. -/
def State.onChr (s : State) (chr : Vector Byte 8192) : State := { s with cfg := { s.cfg with chr := chr } }

/-- Every cached block is that of its tags or key, of the palette and RGB bytes as they now are and of some
pattern content, perhaps one the host has changed since (44_tile_cache.md R232); the flip cache's keys rise. -/
def cachesTagged (s : State) (c : Caches) : Prop :=
  (∀ (k : Nat) (h : k < 4096) (e : BaseEntry), c.bc[k] = some e → ∃ chr, baseEntryGood (s.onChr chr) k e) ∧
    c.fc.Pairwise (fun x y => x.1 < y.1) ∧ ∀ p ∈ c.fc, ∃ chr, flipEntryGood (s.onChr chr) p

/-- Both caches hold only what the current memories give (44_tile_cache.md R231), and the flip cache's
keys rise. -/
def cachesGood (s : State) (c : Caches) : Prop :=
  (∀ (k : Nat) (h : k < 4096) (e : BaseEntry), c.bc[k] = some e → baseEntryGood s k e) ∧
    c.fc.Pairwise (fun x y => x.1 < y.1) ∧ ∀ p ∈ c.fc, flipEntryGood s p

/-- A base entry answers a request when it is there under the same tags (44_tile_cache.md R221). -/
def baseHit (c : Caches) (tile ptype : Nat) (attr : BitVec 4) : Prop :=
  ∃ e, c.bc[8 * tile + ptype]? = some (some e) ∧ e.tile.toNat = tile ∧ e.ptype.toNat = ptype ∧ e.attr = attr

/-- The scaling cache, when valid, is the one its size gives, of a size `SCALE` acts on
(46_output_scaler.md R302, R306). -/
def scaleCacheGood (s : State) : Prop :=
  ∀ sc, s.sc = some sc → sc = scaleParams sc.destW sc.destH ∧ 256 ≤ sc.destW.toNat ∧ 240 ≤ sc.destH.toNat

/-- The list of written destination words is no longer than it need be: it ends with a written one. -/
def dstGood (s : State) : Prop := s.dst.back? ≠ some none

/-- The states the block stays in. -/
structure State.Inv (s : State) : Prop where
  /-- `STATUS_EVEN[7] != STATUS_ODD[7]` (10_state.md R30). -/
  params   : s.cfg.wf = true
  memories : memoriesGood s
  /-- Kept whatever the host does to `CHR`; `cachesGood` is what holds while it keeps its duty. -/
  caches   : cachesTagged s s.caches
  scaler   : scaleCacheGood s
  dst      : dstGood s

/-! ### Runs -/

/-- Perform a list of commands one after the other. -/
def execAll : List Instr → State → Host.Outcome State Fault Refusal
  | [], s => .next s
  | i :: is, s =>
    match exec i s with
    | .next t    => execAll is t
    | .fault r   => .fault r
    | .refused r => .refused r

/-- Perform a list of commands one after the other, the host writing into what it owns before each what it
has listed (70_reset_and_hazards.md R386). -/
def performAll : List Instr → State → Host.Outcome State Fault Refusal
  | [], s => .next s
  | i :: is, s =>
    match exec i (hostTurn s) with
    | .next t    => performAll is t
    | .fault r   => .fault r
    | .refused r => .refused r

/-! ### What a write of the host stores in one place -/

/-- In word `k` of `FB32`. -/
def HostWrite.intoFb32 (k : Fin 61440) : HostWrite → Option Word
  | .fb32 j v => if j = k then some v else none
  | .fb16 _ _ | .dst _ _ | .chr _ _ => none
/-- In word `k` of `FB16`. -/
def HostWrite.intoFb16 (k : Fin 61440) : HostWrite → Option (BitVec 16)
  | .fb16 j v => if j = k then some v else none
  | .fb32 _ _ | .dst _ _ | .chr _ _ => none
/-- In word `k` of `DST`. -/
def HostWrite.intoDst (k : Nat) : HostWrite → Option Word
  | .dst j v => if j = k then some v else none
  | .fb32 _ _ | .fb16 _ _ | .chr _ _ => none
/-- In byte `k` of `CHR`. -/
def HostWrite.intoChr (k : Fin 8192) : HostWrite → Option Byte
  | .chr j v => if j = k then some v else none
  | .fb32 _ _ | .fb16 _ _ | .dst _ _ => none

/-! ### The pseudo-commands (30_encoding.md R121) -/

/-- The address bytes of a pseudo-command's operand. -/
def hiByte (a : Addr) : Byte := a.extractLsb' 8 8
/-- Bits 7:0 of the operand. -/
def loByte (a : Addr) : Byte := a.extractLsb' 0 8

/-- `SETADDR`. -/
def setAddrCommands (a : Addr) : List Instr :=
  [.rdStatus 0x2002#16, .wrAddr 0x2006#16 (hiByte a), .wrAddr 0x2006#16 (loByte a)]
/-- `POKE`. -/
def pokeCommands (a : Addr) (d : Byte) : List Instr := setAddrCommands a ++ [.wrData 0x2007#16 d]
/-- `PEEK`. -/
def peekCommands (a : Addr) : List Instr :=
  setAddrCommands a ++ [.rdData 0x2007#16, .rdData 0x2007#16]
/-- `SETSCROLL`. -/
def setScrollCommands (x y : Byte) : List Instr :=
  [.rdStatus 0x2002#16, .wrScroll 0x2005#16 x, .wrScroll 0x2005#16 y]
/-- `SPRITE`. -/
def spriteCommands (i : BitVec 6) (y t a x : Byte) : List Instr :=
  [.wrOamAddr 0x2003#16 (i ++ 0#2), .wrOamData 0x2004#16 y, .wrOamData 0x2004#16 t,
    .wrOamData 0x2004#16 a, .wrOamData 0x2004#16 x]

/-- The commands that read and invert `W` (41_register_port.md R168). -/
def togglesW : Instr → Bool
  | .wrScroll _ _ | .wrAddr _ _ => true
  | _ => false

/-- The command is an `RD.STATUS`. -/
def isStatusRead : Instr → Bool
  | .rdStatus _ => true
  | _ => false

/-! ### Which commands clear the caches (44_tile_cache.md R228) -/

/-- `LOADRGB`, `CCLR`, `RESET`, and a `WR.DATA` whose address is in the palette. -/
def clearsCaches (i : Instr) (s : State) : Bool :=
  match i with
  | .loadRgb _ _ => true
  | .cclr        => true
  | .reset       => true
  | .wrData _ _  => decide (0x3F00 ≤ ppuAddr s.vaddr)
  | _            => false

end Sys2Proof.Machine
end

