-- ==== Sys2Proof/Safety/Pixels.lean ====
section
/-! DEFINITION. A frame pixel by pixel, as the layering rules describe it (45_frame_renderer.md R255 to
R268): which sprites cover a pixel, which background cell shows there, and which of them wins. No frame
is built here, no pass is run and no cache is used, so the renderer can be held against it. -/

namespace Sys2Proof.Machine

/-- The pixel of a frame buffer at column `X`, row `Y` (10_state.md R40). -/
def Frame.at {n : Nat} (fb : Frame n) (X : Fin 256) (Y : Fin 240) : BitVec n :=
  fb[256 * Y.val + X.val]'(by omega)

/-! ### Sprites -/

/-- The sprite's 8 by 8 square holds the pixel: its left column is `x`, its top row `y + 1` (R257). -/
def spriteCovers (sp : Sprite) (X Y : Nat) : Bool :=
  decide (sp.x.toNat ≤ X) && decide (X < sp.x.toNat + 8) &&
    decide (sp.y.toNat + 1 ≤ Y) && decide (Y < sp.y.toNat + 9)

/-- The pattern row shown at screen row `Y` (R193, R257). -/
def spriteRow (sp : Sprite) (Y : Nat) : Fin 8 :=
  mirrorIf (attrFlipY sp.attr) (Fin.ofNat 8 (Y - (sp.y.toNat + 1)))
/-- The pattern pixel column shown at screen column `X` (R193, R257). -/
def spriteCol (sp : Sprite) (X : Nat) : Fin 8 :=
  mirrorIf (attrFlipX sp.attr) (Fin.ofNat 8 (X - sp.x.toNat))

/-- The palette byte the sprite gives the pixel; `none` where it gives none: outside its square, at a
transparent pattern pixel (R192, R195), or at one of the special sprite's two skipped pixels (R258). -/
def spriteByte (s : State) (sp : Sprite) (X Y : Nat) : Option Byte :=
  if spriteCovers sp X Y && !skipped sp (spriteRow sp Y) (spriteCol sp X) then
    palByte s.pal (.sprite (attrSpal sp.attr)) 0#4
      (pixelIndex s.cfg.chr (spriteTile s sp) (spriteRow sp Y) (spriteCol sp X))
  else none

/-- The byte sprite `i` gives the pixel in the behind pass. -/
def behindByte (s : State) (X Y i : Nat) : Option Byte :=
  if inBehindPass (readSprite s.oam i) then spriteByte s (readSprite s.oam i) X Y else none

/-- The byte sprite `i` gives the pixel in the front pass. -/
def frontByte (s : State) (X Y i : Nat) : Option Byte :=
  if inFrontPass (readSprite s.oam i) then spriteByte s (readSprite s.oam i) X Y else none

/-! ### Background -/

/-- The cell that shows at the pixel: a status-bar cell in rows 0 to 31, else the cell of tile column
`(X + sx) div 8` (R261, R262, R263). -/
def cellAt (s : State) (X Y : Nat) : BgCell :=
  let sx := effectiveScroll s.ctrl s.scrollX
  if Y < 32 then ⟨0x2000, X / 8, Y / 8, 8 * (X / 8 : Nat), 8 * (Y / 8 : Nat)⟩
  else ⟨(window ((X + sx) / 8)).1, (window ((X + sx) / 8)).2, Y / 8,
    8 * ((X + sx) / 8 : Nat) - sx, 8 * (Y / 8 : Nat)⟩

/-- The pixel column inside that cell. -/
def pixelColAt (s : State) (X Y : Nat) : Fin 8 :=
  if Y < 32 then Fin.ofNat 8 X else Fin.ofNat 8 (X + effectiveScroll s.ctrl s.scrollX)

/-- The palette byte of the background at the pixel; it is never transparent (R192, R264). -/
def backgroundByte (s : State) (X Y : Nat) : Byte :=
  (palByte s.pal .background (bgAttr s (cellAt s X Y))
    (pixelIndex s.cfg.chr (bgTile s (cellAt s X Y)) (Fin.ofNat 8 Y) (pixelColAt s X Y))).getD 0#8

/-! ### Layers -/

/-- Front-pass priority, the winner first: sprites 1 to 63, then sprite 0 (R266). -/
def frontPriority : List Nat := List.range' 1 63 ++ [0]
/-- Behind-pass priority on the true-colour path, the winner first (R254). -/
def behindPriority : List Nat := List.range 64

/-- The palette byte a true-colour pixel shows (R250): the first front sprite that gives one, else the
background if enabled, else the first behind sprite that gives one, else the universal background. -/
def pixelByte32 (s : State) (X Y : Nat) : Byte :=
  let front := if maskSpen s.mask then frontPriority.findSome? (frontByte s X Y) else none
  let back := if maskBgen s.mask then some (backgroundByte s X Y) else none
  let behind := if maskSpen s.mask then behindPriority.findSome? (behindByte s X Y) else none
  (front <|> back <|> behind).getD (s.pal.read 0)

/-- The compact pixel under the front pass (R251, R259 b): the background if enabled, else the
highest-numbered behind sprite whose colour differs from `UBC16`, else `UBC16`. -/
def underFront16 (s : State) (X Y : Nat) : BitVec 16 :=
  if maskBgen s.mask then colour16 s.rgb (backgroundByte s X Y)
  else if maskSpen s.mask then
    (behindOrder.findSome? fun i =>
      ((behindByte s X Y i).map (colour16 s.rgb)).filter (· != ubc16 s)).getD (ubc16 s)
  else ubc16 s

/-- What sprite 0 gives a compact pixel in the front pass: with `BEHIND` set it shows only where the
frame under it is `UBC16` (R259 a). -/
def spriteZero16 (s : State) (X Y : Nat) : Option (BitVec 16) :=
  if attrBehind (readSprite s.oam 0).attr && underFront16 s X Y != ubc16 s then none
  else (frontByte s X Y 0).map (colour16 s.rgb)

/-- A compact pixel (R251, R259, R266): the first of the front sprites 1 to 63 that gives a colour, else
sprite 0, else what lies under the front pass. -/
def pixel16 (s : State) (X Y : Nat) : BitVec 16 :=
  if maskSpen s.mask then
    (((List.range' 1 63).findSome? (frontByte s X Y)).map (colour16 s.rgb) <|> spriteZero16 s X Y).getD
      (underFront16 s X Y)
  else underFront16 s X Y

end Sys2Proof.Machine
end

