-- ==== Sys2Proof/Certificates/Slice0/Obligations.lean ====
section
/-! DEFINITION. The statements for the provers. Where a statement says `exec i s = .next t`, it also says
that the command completes, and a `t` written as a record update of `s` says that every field not named
in it is unchanged. -/

open Sys2Proof Sys2Proof.Machine

/-! ### Command words -/

/-- Words written out from the formats (95_test_vectors.md 2.1) decode to the commands they stand for. -/
def Obligations.WrittenWordsDecode : Prop :=
  decode [0x00200200#32] = .ok (.rdStatus 0x2002#16, []) ∧
  decode [0x00A00200#32] = .ok (.rdStatus 0xA002#16, []) ∧
  decode [0x00200800#32] = .ok (.rdOther 0x2008#16, []) ∧
  decode [0x1020063F#32] = .ok (.wrAddr 0x2006#16 0x3F#8, []) ∧
  decode [0x10401402#32] = .ok (.wrOther 0x4014#16 0x02#8, []) ∧
  decode [0x2ABCDE03#32] = .ok (.dma 0x03#8, []) ∧
  decode [0x3FFFFFFF#32] = .ok (.render32, []) ∧
  decode [0x40000000#32] = .ok (.render16, []) ∧
  decode [0x584001E0#32] = .ok (.scale .fb32 512#13 480#13, []) ∧
  decode [0x7FFFFFC5#32, 0x12345678#32] = .ok (.loadRgb 5#6 0x12345678#32, []) ∧
  decode [0x70000001#32, 0x80000000#32] = .ok (.loadRgb 1#6 0x80000000#32, []) ∧
  decode [0xA1234567#32] = .ok (.reservedA, [])

/-- Decoding the words of any well-formed command gives it back, every operand included, and leaves the
words after it. -/
def Obligations.DecodeEncodeRoundTrip : Prop :=
  ∀ (i : Instr) (rest : List Word), i.wellFormed = true → decode (encode i ++ rest) = .ok (i, rest)

/-- R100: `OP` alone selects the command; words that agree outside the ignored fields are one command;
the encoder writes the ignored fields as zero. What is decoded is well formed. -/
def Obligations.IgnoredFieldsSelectNothing : Prop :=
  (∀ (w w' : Word) (rest : List Word),
    w &&& operandMask (opField w) = w' &&& operandMask (opField w) → decode (w :: rest) = decode (w' :: rest)) ∧
  ∀ (w : Word) (rest after : List Word) (i : Instr), decode (w :: rest) = .ok (i, after) →
    i.opCode = opField w ∧ i.wellFormed = true ∧
      encode i ++ after = (w &&& operandMask (opField w)) :: rest

/-- R108: every command is one word, but `OP` 0x7 takes the next word, whatever it is, as `VALUE`. -/
def Obligations.OnlyLoadRgbReadsSecondWord : Prop :=
  (∀ w : Word, opField w ≠ 0x7#4 → ∃ i, ∀ rest, decode (w :: rest) = .ok (i, rest)) ∧
  ∀ (w value : Word) (rest : List Word), opField w = 0x7#4 →
    decode (w :: value :: rest) = .ok (.loadRgb (indexField w) value, rest)

/-- R106: a decoded command is that of the first row of the opcode table that covers its first word, the
two `OTHER` rows standing last. -/
def Obligations.OpcodeTableNamesTheCommand : Prop :=
  ∀ (w : Word) (rest after : List Word) (i : Instr), decode (w :: rest) = .ok (i, after) →
    (opcodeTable.find? fun row => row.covers w).map TableRow.mnemonic = some i.mnemonic

/-! ### Steps -/

/-- One step lets the host write into its buffers and its pattern memory what it has listed for the step, then
performs the command at the front of what the host has issued; a host that lists no writes adds nothing to the
command. That issued words wait in `cmds`, that taking a command clears `result`, and that the host's writes wait
in `hostWrites` is the model's choice (log entries 2, 4 and 21). -/
def Obligations.StepPerformsDecodedCommand : Prop :=
  ∀ (s : State) (i : Instr) (rest : List Word), decode s.cmds = .ok (i, rest) →
    step s = exec i { hostTurn s with cmds := rest, result := none } ∧
    (s.hostWrites = [] → step s = exec i { s with cmds := rest, result := none })

/-- The model's choice (log entries 3 and 21): while no whole command has been issued, a step makes the host's
listed writes and returns nothing. Those writes, the last one to a place winning, change words of `FB32`, `FB16`
and `DST` and bytes of `CHR`, and nothing else, the caches not either, and the later ones are left for the later
steps: the host may fill its buffers between commands with any values, and change its pattern memory
(70_reset_and_hazards.md R386, 44_tile_cache.md R232). -/
def Obligations.StepWaitsForWholeCommand : Prop :=
  ∀ s : State, (s.cmds = [] ∨ ∃ w, s.cmds = [w] ∧ opField w = 0x7#4) →
    ∃ chr fb32 fb16 dst, step s = .next { s.onChr chr with
        fb32 := fb32, fb16 := fb16, dst := dst, result := none, hostWrites := s.hostWrites.tail } ∧
      hostTurn s = { s.onChr chr with
        fb32 := fb32, fb16 := fb16, dst := dst, hostWrites := s.hostWrites.tail } ∧
      (s.hostWrites = [] → hostTurn s = s) ∧
      let last := (s.hostWrites.head?.getD []).reverse
      (∀ k : Fin 8192, chr[k] = (last.findSome? (HostWrite.intoChr k)).getD s.cfg.chr[k]) ∧
      (∀ k : Fin 61440, fb32[k] = (last.findSome? (HostWrite.intoFb32 k)).getD s.fb32[k]) ∧
      (∀ k : Fin 61440, fb16[k] = (last.findSome? (HostWrite.intoFb16 k)).getD s.fb16[k]) ∧
      ∀ k, dstRead dst k = (last.findSome? (HostWrite.intoDst k)).getD (dstRead s.dst k)

/-- Every command completes from every state, and so does every run (60_exceptions.md R340). -/
def Obligations.EveryCommandAndRunCompletes : Prop :=
  (∀ (i : Instr) (s : State), ∃ t, exec i s = .next t) ∧
  ∀ (k : Nat) (s : State), ∃ t, Host.Core.run Sys2Proof.core k s = .next t

/-- A queue of encoded commands runs, one step a command, as those commands performed in that order, the host
writing before each what it has listed; the byte returned at the end is the last command's, if it returns one.
With no writes listed it is the commands alone. The queues `cmds` and `hostWrites`, and that taking a command
clears `result`, are the model's choice (log entries 2, 4 and 21). -/
def Obligations.QueuedCommandsRunInOrder : Prop :=
  ∀ (l : List Instr) (s : State) (rest : List Word), (∀ i ∈ l, i.wellFormed = true) →
    s.cmds = l.flatMap encode ++ rest →
    ∃ t, performAll l s = .next t ∧ (s.hostWrites = [] → execAll l s = .next t) ∧
      Host.Core.run Sys2Proof.core l.length s = .next { t with
        cmds := rest
        result := match l.getLast? with
          | none   => s.result
          | some i => if i.returnsByte then t.result else none }

/-- A command sees nothing of the commands issued, or the writes the host makes, after it, and leaves
them as they are (20_memory.md R80). -/
def Obligations.CommandsDoNotSeeLaterCommands : Prop :=
  ∀ (i : Instr) (s : State) (later : List Word) (writes : List (List HostWrite)),
    ∃ t, exec i s = .next t ∧ t.cmds = s.cmds ∧ t.hostWrites = s.hostWrites ∧
    exec i { s with cmds := later, hostWrites := writes } = .next { t with cmds := later, hostWrites := writes }

/-! ### Register reads -/

/-- R151. -/
def Obligations.RdStatusReturnsAndClears : Prop :=
  (∀ (w : Word) (rest : List Word), w &&& 0xF03FFF00#32 = 0x00200200#32 →
    decode (w :: rest) = .ok (.rdStatus (addrField w), rest)) ∧
  ∀ (a : Addr) (s : State), exec (.rdStatus a) s = .next { s with
    result := some (if s.stCnt = false then s.cfg.statusEven else s.cfg.statusOdd)
    stCnt := !s.stCnt
    w := false }

/-- `STCNT` after any commands other than `RESET` is the parity of the status reads among them
(10_state.md R30, 41_register_port.md R151 a), so two status reads in a row differ in bit 7. -/
def Obligations.StatusCounterCountsStatusReads : Prop :=
  (∀ (l : List Instr) (s : State), Instr.reset ∉ l → ∃ t, execAll l s = .next t ∧
    t.stCnt = (s.stCnt ^^ decide (l.countP isStatusRead % 2 = 1))) ∧
  ∀ (a b : Addr) (s : State), s.cfg.wf = true → ∃ t u x y,
    exec (.rdStatus a) s = .next t ∧ exec (.rdStatus b) t = .next u ∧
      t.result = some x ∧ u.result = some y ∧ x.getLsbD 7 = !y.getLsbD 7

/-- R152. -/
def Obligations.RdOamDataReturnsByteAtCursor : Prop :=
  (∀ (w : Word) (rest : List Word), w &&& 0xF03FFF00#32 = 0x00200400#32 →
    decode (w :: rest) = .ok (.rdOamData (addrField w), rest)) ∧
  ∀ (a : Addr) (s : State),
    exec (.rdOamData a) s = .next { s with result := some (s.oam.read s.oamAddr.toNat) }

/-- R153. -/
def Obligations.RdDataReturnsOldBuffer : Prop :=
  (∀ (w : Word) (rest : List Word), w &&& 0xF03FFF00#32 = 0x00200700#32 →
    decode (w :: rest) = .ok (.rdData (addrField w), rest)) ∧
  ∀ (a : Addr) (s : State), exec (.rdData a) s = .next { s with
    result := some s.rdBuf
    rdBuf := vRead s s.vaddr
    vaddr := s.vaddr + (if s.ctrl.getLsbD 2 then 32#16 else 1#16) }

/-- R154. -/
def Obligations.RdOtherReturnsZero : Prop :=
  (∀ (w : Word) (rest : List Word), w &&& 0xF0000000#32 = 0x00000000#32 →
    addrField w &&& 0x3FFF#16 ≠ 0x2002#16 → addrField w &&& 0x3FFF#16 ≠ 0x2004#16 →
    addrField w &&& 0x3FFF#16 ≠ 0x2007#16 → decode (w :: rest) = .ok (.rdOther (addrField w), rest)) ∧
  ∀ (a : Addr) (s : State), exec (.rdOther a) s = .next { s with result := some 0x00#8 }

/-! ### Register writes -/

/-- R160, R161, R162: the whole data byte is stored and nothing else happens. -/
def Obligations.PlainRegisterWrites : Prop :=
  (∀ (w : Word) (rest : List Word), w &&& 0xF03FFF00#32 = 0x10200000#32 →
    decode (w :: rest) = .ok (.wrCtrl (addrField w) (dataField w), rest)) ∧
  (∀ (w : Word) (rest : List Word), w &&& 0xF03FFF00#32 = 0x10200100#32 →
    decode (w :: rest) = .ok (.wrMask (addrField w) (dataField w), rest)) ∧
  (∀ (w : Word) (rest : List Word), w &&& 0xF03FFF00#32 = 0x10200300#32 →
    decode (w :: rest) = .ok (.wrOamAddr (addrField w) (dataField w), rest)) ∧
  ∀ (a : Addr) (d : Byte) (s : State),
    exec (.wrCtrl a d) s = .next { s with ctrl := d } ∧
    exec (.wrMask a d) s = .next { s with mask := d } ∧
    exec (.wrOamAddr a d) s = .next { s with oamAddr := d }

/-- R163. -/
def Obligations.WrOamDataStoresAndAdvances : Prop :=
  (∀ (w : Word) (rest : List Word), w &&& 0xF03FFF00#32 = 0x10200400#32 →
    decode (w :: rest) = .ok (.wrOamData (addrField w) (dataField w), rest)) ∧
  ∀ (a : Addr) (d : Byte) (s : State), ∃ m,
    exec (.wrOamData a d) s = .next { s with oam := m, oamAddr := s.oamAddr + 1#8 } ∧
    m.read s.oamAddr.toNat = d ∧ ∀ k, k ≠ s.oamAddr.toNat → m.read k = s.oam.read k

/-- R164. -/
def Obligations.WrScrollAlternatesLatches : Prop :=
  (∀ (w : Word) (rest : List Word), w &&& 0xF03FFF00#32 = 0x10200500#32 →
    decode (w :: rest) = .ok (.wrScroll (addrField w) (dataField w), rest)) ∧
  ∀ (a : Addr) (d : Byte) (s : State),
    (s.w = false → exec (.wrScroll a d) s = .next { s with scrollX := d, w := true }) ∧
    (s.w = true → exec (.wrScroll a d) s = .next { s with scrollY := d, w := false })

/-- R165: the high byte first, the other byte kept. -/
def Obligations.WrAddrBuildsHighByteFirst : Prop :=
  (∀ (w : Word) (rest : List Word), w &&& 0xF03FFF00#32 = 0x10200600#32 →
    decode (w :: rest) = .ok (.wrAddr (addrField w) (dataField w), rest)) ∧
  ∀ (a : Addr) (d : Byte) (s : State),
    (s.w = false → ∃ v, exec (.wrAddr a d) s = .next { s with vaddr := v, w := true } ∧
      v.toNat = 256 * d.toNat + s.vaddr.toNat % 256) ∧
    (s.w = true → ∃ v, exec (.wrAddr a d) s = .next { s with vaddr := v, w := false } ∧
      v.toNat = 256 * (s.vaddr.toNat / 256) + d.toNat)

/-- R166: the store of R67 at `VADDR`, and `VADDR` advances, even past the pattern region, where nothing is
stored. What was stored is read back at once. -/
def Obligations.WrDataStoresAndAdvances : Prop :=
  (∀ (w : Word) (rest : List Word), w &&& 0xF03FFF00#32 = 0x10200700#32 →
    decode (w :: rest) = .ok (.wrData (addrField w) (dataField w), rest)) ∧
  ∀ (a : Addr) (d : Byte) (s : State),
    let next := s.vaddr + (if s.ctrl.getLsbD 2 then 32#16 else 1#16)
    let place := s.vaddr.toNat % 0x4000
    (place < 0x2000 → exec (.wrData a d) s = .next { s with vaddr := next }) ∧
    (0x2000 ≤ place → place < 0x3F00 → ∃ m,
      exec (.wrData a d) s = .next { s with nt := m, vaddr := next } ∧
      m.read (ntIndex s.cfg.mirror place) = d ∧
      ∀ k, k ≠ ntIndex s.cfg.mirror place → m.read k = s.nt.read k) ∧
    (0x3F00 ≤ place → ∃ m,
      exec (.wrData a d) s = .next { s with pal := m, caches := Caches.empty, vaddr := next } ∧
      ∀ k, m.read k = if k = place % 32 ∨ (place % 32 ∈ [0x10, 0x14, 0x18, 0x1C] ∧ k + 0x10 = place % 32)
        then d else s.pal.read k) ∧
    (0x2000 ≤ place → ∃ t, exec (.wrData a d) s = .next t ∧ vRead t s.vaddr = d)

/-- R167: nothing. -/
def Obligations.WrOtherIsIgnored : Prop :=
  (∀ (w : Word) (rest : List Word), w &&& 0xF0000000#32 = 0x10000000#32 →
    addrField w &&& 0x3FFF#16 ∉
      [0x2000#16, 0x2001#16, 0x2003#16, 0x2004#16, 0x2005#16, 0x2006#16, 0x2007#16] →
    decode (w :: rest) = .ok (.wrOther (addrField w) (dataField w), rest)) ∧
  ∀ (a : Addr) (d : Byte) (s : State), exec (.wrOther a d) s = .next s

/-- What 41_register_port.md R168 derives: `WR.SCROLL` and `WR.ADDR` share one toggle, which only they invert
and only `RD.STATUS` and reset clear. -/
def Obligations.ScrollAndAddrShareOneToggle : Prop :=
  (∀ (l : List Instr) (s : State), (∀ i ∈ l, togglesW i = true) → ∃ t, execAll l s = .next t ∧
    t.w = (s.w ^^ decide (l.length % 2 = 1))) ∧
  (∀ (i : Instr) (s : State), ∃ t, exec i s = .next t ∧
    t.w = if togglesW i then !s.w else if isStatusRead i || decide (i = .reset) then false else s.w) ∧
  ∀ (a b : Addr) (d e : Byte) (s : State), s.w = false →
    (∃ t, execAll [.wrScroll a d, .wrAddr b e] s = .next t ∧ t.scrollX = d ∧ t.scrollY = s.scrollY ∧
      t.vaddr.toNat = 256 * (s.vaddr.toNat / 256) + e.toNat ∧ t.w = false) ∧
    ∃ t, execAll [.wrAddr a d, .wrScroll b e] s = .next t ∧ t.scrollX = s.scrollX ∧ t.scrollY = e ∧
      t.vaddr.toNat = 256 * d.toNat + s.vaddr.toNat % 256 ∧ t.w = false

/-- What 41_register_port.md R169 derives: after `SETADDR X` the first read returns the old buffer, the second
the byte at `X` as it was at the first read. -/
def Obligations.DataReadsAreDelayedByOne : Prop :=
  ∀ (x a b : Addr) (s : State), ∃ t u v, execAll (setAddrCommands x) s = .next t ∧
    exec (.rdData a) t = .next u ∧ u.result = some s.rdBuf ∧
    exec (.rdData b) u = .next v ∧ v.result = some (vRead s x) ∧ vRead t x = vRead s x

/-- The five pseudo-commands from any state, as the spec derives them (30_encoding.md R121). -/
def Obligations.PseudoCommandsDoAsWritten : Prop :=
  (∀ (x : Addr) (s : State), ∃ t, execAll (setAddrCommands x) s = .next t ∧
    t = { s with vaddr := x, w := false, stCnt := !s.stCnt, result := t.result }) ∧
  (∀ (x : Addr) (d : Byte) (s : State), ∃ t r, execAll (pokeCommands x d) s = .next t ∧
    t = { vWrite { s with vaddr := x, w := false, stCnt := !s.stCnt, result := r } x d with
      vaddr := x + (if s.ctrl.getLsbD 2 then 32#16 else 1#16) }) ∧
  (∀ (x : Addr) (s : State),
    let inc := if s.ctrl.getLsbD 2 then 32#16 else 1#16
    execAll (peekCommands x) s = .next { s with
      vaddr := x + inc + inc, w := false, stCnt := !s.stCnt, rdBuf := vRead s (x + inc)
      result := some (vRead s x) }) ∧
  (∀ (x y : Byte) (s : State), ∃ t, execAll (setScrollCommands x y) s = .next t ∧
    t = { s with scrollX := x, scrollY := y, w := false, stCnt := !s.stCnt, result := t.result }) ∧
  ∀ (i : BitVec 6) (y t a x : Byte) (s : State), ∃ m,
    execAll (spriteCommands i y t a x) s =
      .next { s with oam := m, oamAddr := BitVec.ofNat 8 (4 * i.toNat + 4) } ∧
    m.read (4 * i.toNat) = y ∧ m.read (4 * i.toNat + 1) = t ∧ m.read (4 * i.toNat + 2) = a ∧
    m.read (4 * i.toNat + 3) = x ∧
    ∀ k, (k < 4 * i.toNat ∨ 4 * i.toNat + 4 ≤ k) → m.read k = s.oam.read k

/-! ### Which command writes what -/

/-- The nine registers, each with every command that writes it and what it writes (R22 to R30, R324); every
other command, reads with no side effect among them, leaves it as it was. -/
def Obligations.RegistersHaveTheirWriters : Prop :=
  ∀ (i : Instr) (s : State), ∃ t, exec i s = .next t ∧
    t.ctrl = (match i with | .wrCtrl _ d => d | .reset => 0#8 | _ => s.ctrl) ∧
    t.mask = (match i with | .wrMask _ d => d | .reset => 0#8 | _ => s.mask) ∧
    t.oamAddr = (match i with
      | .wrOamAddr _ d => d | .wrOamData _ _ => s.oamAddr + 1#8 | .reset => 0#8 | _ => s.oamAddr) ∧
    t.scrollX = (match i with
      | .wrScroll _ d => if s.w then s.scrollX else d | .reset => 0#8 | _ => s.scrollX) ∧
    t.scrollY = (match i with
      | .wrScroll _ d => if s.w then d else s.scrollY | .reset => 0#8 | _ => s.scrollY) ∧
    t.vaddr = (match i with
      | .wrAddr _ d => if s.w then s.vaddr.extractLsb' 8 8 ++ d else d ++ s.vaddr.extractLsb' 0 8
      | .rdData _ | .wrData _ _ => s.vaddr + (if s.ctrl.getLsbD 2 then 32#16 else 1#16)
      | .reset => 0#16 | _ => s.vaddr) ∧
    t.w = (match i with
      | .wrScroll _ _ | .wrAddr _ _ => !s.w | .rdStatus _ | .reset => false | _ => s.w) ∧
    t.rdBuf = (match i with | .rdData _ => vRead s s.vaddr | .reset => 0#8 | _ => s.rdBuf) ∧
    t.stCnt = (match i with | .rdStatus _ => !s.stCnt | .reset => false | _ => s.stCnt)

/-- Every memory, table, cache and buffer is unchanged by every command but those named
(10_state.md R32 to R40). -/
def Obligations.MemoriesHaveTheirWriters : Prop :=
  ∀ (i : Instr) (s : State), ∃ t, exec i s = .next t ∧ t.cfg = s.cfg ∧
    (t.nt = s.nt ∨ i = .reset ∨ ∃ a d, i = .wrData a d) ∧
    (t.pal = s.pal ∨ i = .reset ∨ ∃ a d, i = .wrData a d) ∧
    (t.oam = s.oam ∨ i = .reset ∨ (∃ a d, i = .wrOamData a d) ∨ ∃ p, i = .dma p) ∧
    (t.rgb = s.rgb ∨ ∃ k v, i = .loadRgb k v) ∧
    (t.caches = s.caches ∨ i = .render16 ∨ clearsCaches i s = true) ∧
    (t.sc = s.sc ∨ i = .reset ∨ ∃ f w h, i = .scale f w h) ∧
    (t.fb32 = s.fb32 ∨ i = .render32) ∧
    (t.fb16 = s.fb16 ∨ i = .render16) ∧
    (t.dst = s.dst ∨ ∃ f w h, i = .scale f w h)

/-! ### The PPU address space -/

/-- The byte of `NT` behind a nametable address, its range, and the values the spec derives for the
boundary addresses under the default `MIRROR` (20_memory.md R68, R69). -/
def Obligations.NtIndexFollowsMirrorTable : Prop :=
  (∀ (mirror : Vector (Fin 2) 4) (a : Addr) (t : Fin 4), 0x2000 ≤ a.toNat → a.toNat ≤ 0x3EFF →
    ((((a - 0x2000#16) &&& 0x0FFF#16) >>> 10).toNat = t.val) →
    ntIndex mirror a.toNat =
      mirror[t].val * 0x400 + (((a - 0x2000#16) &&& 0x0FFF#16) &&& 0x3FF#16).toNat ∧
    ntIndex mirror a.toNat < 2048) ∧
  Config.standard.mirror = #v[0, 1, 0, 1] ∧
  [0x2000, 0x23FF, 0x2400, 0x27FF, 0x2800, 0x2BFF, 0x2C00, 0x2FFF, 0x3000, 0x3EFF].map
    (ntIndex Config.standard.mirror) = [0, 1023, 1024, 2047, 0, 1023, 1024, 2047, 0, 1791]

/-- R65, R66, R67, R71, R72, R73: what a read of each region gives and what a write of it does, that addresses
0x4000 apart are one place, the mirrors inside the space, and that a `WR.DATA` into pattern memory only
advances `VADDR`. -/
def Obligations.AddressSpaceRegionsAndMirrors : Prop :=
  (∀ (s : State) (a : Addr) (v : Byte),
    vRead s (a + 0x4000#16) = vRead s a ∧ vWrite s (a + 0x4000#16) v = vWrite s a v) ∧
  (∀ (s : State) (a : Addr) (v : Byte) (h : a.toNat < 0x2000),
    vRead s a = s.cfg.chr[a.toNat]'(by omega) ∧ vWrite s a v = s) ∧
  (∀ (s : State) (a : Addr) (d : Byte), s.vaddr.toNat % 0x4000 < 0x2000 → exec (.wrData a d) s =
    .next { s with vaddr := s.vaddr + (if s.ctrl.getLsbD 2 then 32#16 else 1#16) }) ∧
  (∀ (s : State) (a : Addr) (v : Byte), 0x2000 ≤ a.toNat → a.toNat < 0x3F00 →
    vRead s a = s.nt.read (ntIndex s.cfg.mirror a.toNat) ∧
    ∃ m, vWrite s a v = { s with nt := m } ∧ m.read (ntIndex s.cfg.mirror a.toNat) = v ∧
      ∀ k, k ≠ ntIndex s.cfg.mirror a.toNat → m.read k = s.nt.read k) ∧
  (∀ (s : State) (a : Addr) (v : Byte), 0x3000 ≤ a.toNat → a.toNat < 0x3F00 →
    vRead s a = vRead s (a - 0x1000#16) ∧ vWrite s a v = vWrite s (a - 0x1000#16) v) ∧
  ∀ (s : State) (a : Addr) (v : Byte), 0x3F00 ≤ a.toNat → a.toNat < 0x4000 →
    vRead s a = s.pal.read (a &&& 0x1F#16).toNat ∧
    vRead s a = vRead s (0x3F00#16 ||| (a &&& 0x1F#16)) ∧
    vWrite s a v = vWrite s (0x3F00#16 ||| (a &&& 0x1F#16)) v ∧
    let p := (a &&& 0x1F#16).toNat
    ∃ m, vWrite s a v = { s with pal := m, caches := Caches.empty } ∧
      ∀ k, m.read k =
        if k = p ∨ (p ∈ [0x10, 0x14, 0x18, 0x1C] ∧ k + 0x10 = p) then v else s.pal.read k

/-- R70: a palette write reaches the background slot 16 below from the four sprite slots and from nowhere
else, never the other way, and empties both caches whatever is written. -/
def Obligations.PaletteWriteMirrorsOneWay : Prop :=
  ∀ (s : State) (p : Fin 32) (v : Byte) (base : Addr), base.toNat % 0x4000 = 0x3F00 + p.val →
    let t := vWrite s base v
    t = { s with pal := t.pal, caches := Caches.empty } ∧
    t.pal.read p.val = v ∧
    (p.val ∈ [0x10, 0x14, 0x18, 0x1C] → t.pal.read (p.val - 0x10) = v ∧
      vRead t (BitVec.ofNat 16 (0x3F00 + p.val - 0x10)) = v ∧
      ∀ k, k ≠ p.val → k ≠ p.val - 0x10 → t.pal.read k = s.pal.read k) ∧
    (p.val ∉ [0x10, 0x14, 0x18, 0x1C] → ∀ k, k ≠ p.val → t.pal.read k = s.pal.read k)

/-! ### OAM DMA -/

/-- The 256 stores of a `DMA`, and that `OAMADDR` ends where it began, which the spec derives (42_oam_dma.md
R180). That the host's answers are used up and `DMA`s are counted is the model's choice (log entry 7). -/
def Obligations.DmaFillsOamFromPage : Prop :=
  (∀ (w : Word) (rest : List Word), w &&& 0xF0000000#32 = 0x20000000#32 →
    decode (w :: rest) = .ok (.dma (dataField w), rest)) ∧
  (∀ (page : Byte) (s : State), ∃ m,
    exec (.dma page) s = .next { s with oam := m, ext := s.ext.tail, dmaCount := s.dmaCount + 1 } ∧
    (∀ i < 256, m.read ((s.oamAddr.toNat + i) % 256) =
      extRead s (BitVec.ofNat 16 (256 * page.toNat + i))) ∧
    ∀ k, 256 ≤ k → m.read k = s.oam.read k)

/-- The model's choice (log entry 7): an `ExtRead` gives the byte the host has ready for the coming `DMA`,
and only the first such image matters; a `DMA` leaves the later images for the later `DMA`s
(42_oam_dma.md R181). -/
def Obligations.DmaReadsTheHostsNextImage : Prop :=
  (∀ (s : State) (image : HostImage) (later : List HostImage) (a : Addr) (v : Byte),
    s.ext = image :: later → lookupKey image a.toNat = some v → extRead s a = v) ∧
  ∀ (p q : Byte) (s : State) (first second : HostImage) (later : List HostImage), s.ext = first :: second :: later →
    (∀ i < 256, ∃ v, lookupKey second (256 * q.toNat + i) = some v) →
    ∃ t u, exec (.dma p) s = .next t ∧ exec (.dma q) t = .next u ∧ u.ext = later ∧
      ∀ i < 256, lookupKey second (256 * q.toNat + i) = some (u.oam.read ((s.oamAddr.toNat + i) % 256))

/-! ### Pattern accessor and compositor -/

/-- R140, R110, R190: a pattern byte by tile and row, 0 past the end, and the pixel's index from the two
planes, bit 7 leftmost. -/
def Obligations.PixelIndexFromTwoPlanes : Prop :=
  (∀ (chr : Vector Byte 8192) (tile : Nat) (row : Fin 16),
    readPlane chr tile row =
      if h : 16 * tile + row.val < 0x2000 then chr[16 * tile + row.val]'(by omega) else 0x00#8) ∧
  (∀ (chr : Vector Byte 8192) (tile : Nat) (row px : Fin 8), (pixelIndex chr tile row px).toNat =
    2 * ((readPlane chr tile ⟨row.val + 8, by omega⟩).getLsbD (7 - px.val)).toNat +
      ((readPlane chr tile ⟨row.val, by omega⟩).getLsbD (7 - px.val)).toNat) ∧
  ∀ (chr : Vector Byte 8192) (tile : Fin 512) (row px : Fin 8), (pixelIndex chr tile row px).toNat =
    2 * ((chr[16 * tile.val + (8 + row.val)]'(by omega)).getLsbD (7 - px.val)).toNat +
      ((chr[16 * tile.val + row.val]'(by omega)).getLsbD (7 - px.val)).toNat

/-- R195, R197, R201: each pixel of a true-colour block; a background block has no transparent pixel. -/
def Obligations.TrueColourBlockPixels : Prop :=
  (∀ (s : State) (tile : Nat) (attr : BitVec 4) (fx fy : Bool) (row px : Fin 8),
    let k := pixelIndex s.cfg.chr tile (if fy then row.rev else row) (if fx then px.rev else px)
    Block.at (block32 s tile .background attr fx fy) row px =
      some (colour32 s.rgb (s.pal.read (if k = 0#2 then 0 else 4 * (attr.toNat % 4) + k.toNat)))) ∧
  (∀ (s : State) (tile : Nat) (palette : BitVec 2) (attr : BitVec 4) (fx fy : Bool) (row px : Fin 8),
    let k := pixelIndex s.cfg.chr tile (if fy then row.rev else row) (if fx then px.rev else px)
    Block.at (block32 s tile (.sprite palette) attr fx fy) row px =
      if k = 0#2 then none
      else some (colour32 s.rgb (s.pal.read (0x10 + 4 * palette.toNat + k.toNat)))) ∧
  ∀ (rgb : Vector Word 64) (e : Byte) (k : Fin 64), (e &&& 0x3F#8).toNat = k.val → colour32 rgb e = rgb[k]

/-- R193: where `Flip` takes each pixel from; with no flag it changes nothing, and twice with the same
flags it changes nothing. -/
def Obligations.FlipReordersBlock : Prop :=
  ∀ (n : Nat) (b : Block n) (fx fy : Bool),
    (∀ row px : Fin 8, Block.at (flipBlock fx fy b) row px =
      Block.at b (if fy then ⟨7 - row.val, by omega⟩ else row) (if fx then ⟨7 - px.val, by omega⟩ else px)) ∧
    flipBlock false false b = b ∧ flipBlock fx fy (flipBlock fx fy b) = b

/-- The conversion to 5-6-5, the compact colour, and, as the spec derives it, the compact block pixel by
pixel (43_compositor.md R198, R199, R202). -/
def Obligations.CompactBlockIsConverted : Prop :=
  (∀ w : Word, to565 w = (((w >>> 19) &&& 0x1F#32) <<< 11 ||| ((w >>> 10) &&& 0x3F#32) <<< 5 |||
    ((w >>> 3) &&& 0x1F#32)).setWidth 16) ∧
  (∀ (rgb : Vector Word 64) (e : Byte), colour16 rgb e = to565 (colour32 rgb e)) ∧
  ∀ (s : State) (tile : Nat) (pt : PaletteType) (attr : BitVec 4) (fx fy : Bool) (row px : Fin 8),
    Block.at (block16 s tile pt attr fx fy) row px =
      (Block.at (block32 s tile pt attr fx fy) row px).map to565

/-- What 43_compositor.md R203 derives: a block depends on its 16 pattern bytes, the palette bytes of its
palette type, and the RGB entries those select, and on nothing else. -/
def Obligations.BlockDependsOnItsInputs : Prop :=
  ∀ (s t : State) (tile : Fin 512) (pt : PaletteType) (attr : BitVec 4) (fx fy : Bool) (used : List Nat),
    used = (match pt with
      | .background => [0, 4 * (attr.toNat % 4) + 1, 4 * (attr.toNat % 4) + 2, 4 * (attr.toNat % 4) + 3]
      | .sprite p => [0x10 + 4 * p.toNat + 1, 0x10 + 4 * p.toNat + 2, 0x10 + 4 * p.toNat + 3]) →
    (∀ row : Fin 16, t.cfg.chr[16 * tile.val + row.val]'(by omega) =
      s.cfg.chr[16 * tile.val + row.val]'(by omega)) →
    (∀ k ∈ used, t.pal.read k = s.pal.read k ∧
      colour32 t.rgb (s.pal.read k) = colour32 s.rgb (s.pal.read k)) →
    block32 t tile pt attr fx fy = block32 s tile pt attr fx fy ∧
    block16 t tile pt attr fx fy = block16 s tile pt attr fx fy

/-- R200: the attribute of a background cell. -/
def Obligations.AttributeOfCell : Prop :=
  (∀ (s : State) (base tx ty : Nat), base ∈ [0x2000, 0x2400, 0x2800] → tx < 32 → ty < 30 →
    (attrOf s base tx ty).toNat =
      ((vRead s (BitVec.ofNat 16 (base + 0x3C0 + 8 * (ty / 4) + tx / 4))).toNat >>>
        (4 * (ty / 2 % 2) + 2 * (tx / 2 % 2))) &&& 3) ∧
  ∀ (s : State) (tx ty : Nat), s.cfg.mirror[2] = s.cfg.mirror[0] → tx < 32 → ty < 30 →
    attrOf s 0x2800 tx ty = attrOf s 0x2000 tx ty

/-! ### Tile cache -/

/-- R222: a request out of range gets nothing; a hit gets the stored block and reads nothing else; a miss
gets the block of the memories as they are and stores it under its tags. -/
def Obligations.BaseCacheRequest : Prop :=
  ∀ (s : State) (c : Caches) (tile ptype : Nat) (attr : BitVec 4),
    (512 ≤ tile ∨ 5 ≤ ptype → getBase s tile ptype attr c = (none, c)) ∧
    ∀ pt, tile < 512 → paletteTypeOf ptype = some pt →
      (∀ e, c.bc[8 * tile + ptype]? = some (some e) → e.tile.toNat = tile → e.ptype.toNat = ptype →
        e.attr = attr → getBase s tile ptype attr c = (some e.px, c)) ∧
      ((∀ e, c.bc[8 * tile + ptype]? = some (some e) →
          ¬ (e.tile.toNat = tile ∧ e.ptype.toNat = ptype ∧ e.attr = attr)) →
        ∃ e : BaseEntry, e.tile.toNat = tile ∧ e.ptype.toNat = ptype ∧ e.attr = attr ∧
          e.px = block16 s tile pt attr false false ∧
          getBase s tile ptype attr c =
            (some e.px, { c with bc := c.bc.setIfInBounds (8 * tile + ptype) (some e) }))

/-- R118, R224: the key is the packed word and tells requests apart; a stored key is answered without the
base cache; a new key gets the flipped base block, which is stored. -/
def Obligations.FlipCacheRequest : Prop :=
  (∀ (tile ptype : Nat) (attr : BitVec 4) (fx fy : Bool), tile < 512 → ptype < 8 →
    flipKey tile ptype attr fx fy =
      (tile <<< 16 ||| ptype <<< 8 ||| attr.toNat <<< 4 ||| (fx.toNat ||| fy.toNat <<< 1)) ∧
    ∀ (tile' ptype' : Nat) (attr' : BitVec 4) (fx' fy' : Bool), tile' < 512 → ptype' < 8 →
      flipKey tile ptype attr fx fy = flipKey tile' ptype' attr' fx' fy' →
      tile = tile' ∧ ptype = ptype' ∧ attr = attr' ∧ fx = fx' ∧ fy = fy') ∧
  ∀ (s : State) (c : Caches) (tile ptype : Nat) (attr : BitVec 4) (fx fy : Bool),
    let key := flipKey tile ptype attr fx fy
    (∀ b, lookupKey c.fc key = some b → getFlipped s tile ptype attr fx fy c = (some b, c)) ∧
    (lookupKey c.fc key = none →
      (∀ c', getBase s tile ptype attr c = (none, c') → getFlipped s tile ptype attr fx fy c = (none, c')) ∧
      ∀ b c', getBase s tile ptype attr c = (some b, c') → ∃ d,
        getFlipped s tile ptype attr fx fy c = (some (flipBlock fx fy b), d) ∧ d.bc = c'.bc ∧
        ∀ k, lookupKey d.fc k = if k = key then some (flipBlock fx fy b) else lookupKey c'.fc k)

/-- What the caches answer while they hold only what the current memories give (kept by every step while the
host keeps its duty, as stated below): the block of those memories, and they stay so (44_tile_cache.md R231).
Once the host has changed `CHR` under them, a request that hits either tier is answered with the block of the
old content, and one that misses with the block of the new (44_tile_cache.md R232). -/
def Obligations.CachesAreInvisible : Prop :=
  ∀ (s : State) (c : Caches) (tile ptype : Nat) (pt : PaletteType) (attr : BitVec 4) (fx fy : Bool),
    cachesGood s c → tile < 512 → paletteTypeOf ptype = some pt →
    (∃ c', getBase s tile ptype attr c = (some (block16 s tile pt attr false false), c') ∧
      cachesGood s c') ∧
    (∃ c', getFlipped s tile ptype attr fx fy c = (some (block16 s tile pt attr fx fy), c') ∧
      cachesGood s c') ∧
    ∀ chr : Vector Byte 8192, let t := s.onChr chr
      let stored := (lookupKey c.fc (flipKey tile ptype attr fx fy)).isSome = true ∨ baseHit c tile ptype attr
      (baseHit c tile ptype attr →
        (getBase t tile ptype attr c).1 = some (block16 s tile pt attr false false)) ∧
      (¬ baseHit c tile ptype attr →
        (getBase t tile ptype attr c).1 = some (block16 t tile pt attr false false)) ∧
      (stored → (getFlipped t tile ptype attr fx fy c).1 = some (block16 s tile pt attr fx fy)) ∧
      (¬ stored → (getFlipped t tile ptype attr fx fy c).1 = some (block16 t tile pt attr fx fy))

/-- R228: the commands that clear empty both tiers; no other command drops an entry of either. -/
def Obligations.OnlyClearsEmptyTheCaches : Prop :=
  (∀ k (h : k < 4096), Caches.empty.bc[k] = none) ∧ Caches.empty.fc = [] ∧
  ∀ (i : Instr) (s : State), ∃ t, exec i s = .next t ∧
    (clearsCaches i s = true → t.caches = Caches.empty) ∧
    (clearsCaches i s = false →
      (∀ k (h : k < 4096), s.caches.bc[k].isSome = true → t.caches.bc[k].isSome = true) ∧
      ∀ k b, lookupKey s.caches.fc k = some b → lookupKey t.caches.fc k = some b)

/-! ### Rendering -/

/-- The frame `RENDER32` builds, pixel by pixel, is what the layering rules give, and nothing else changes
(45_frame_renderer.md R250 to R267). -/
def Obligations.Render32PixelByPixel : Prop :=
  ∀ s : State, ∃ fb, exec .render32 s = .next { s with fb32 := fb } ∧
    ∀ (X : Fin 256) (Y : Fin 240), fb.at X Y = colour32 s.rgb (pixelByte32 s X Y)

/-- The frame `RENDER16` builds with good caches, pixel by pixel, the suppress test included, and nothing
else changes but the caches, which stay good (45_frame_renderer.md R251 to R267). -/
def Obligations.Render16PixelByPixel : Prop :=
  ∀ s : State, cachesGood s s.caches → ∃ fb c,
    exec .render16 s = .next { s with fb16 := fb, caches := c } ∧ cachesGood s c ∧
    ∀ (X : Fin 256) (Y : Fin 240), fb.at X Y = pixel16 s X Y

/-- What 45_frame_renderer.md R268 derives: with no visible `BEHIND` sprite, the compact frame is the
true-colour frame converted. -/
def Obligations.CompactFrameIsConvertedFrame : Prop :=
  ∀ s : State, cachesGood s s.caches →
    (∀ i < 64, attrBehind (readSprite s.oam i).attr = true → visible (readSprite s.oam i) = false) →
    ∃ t u, exec .render32 s = .next t ∧ exec .render16 s = .next u ∧
      ∀ (X : Fin 256) (Y : Fin 240), u.fb16.at X Y = to565 (t.fb32.at X Y)

/-- With the background enabled, what `BEHIND` sprites other than the special one hold does not show
(45_frame_renderer.md R267). -/
def Obligations.BackgroundHidesBehindSprites : Prop :=
  ∀ (s : State) (oam : Memory), s.mask.getLsbD 3 = true →
    (∀ i < 64, readSprite oam i = readSprite s.oam i ∨
      (attrBehind (readSprite oam i).attr && !special (readSprite oam i)) = true ∧
        (attrBehind (readSprite s.oam i).attr && !special (readSprite s.oam i)) = true) →
    ∃ t u t' u', exec .render32 s = .next t ∧ exec .render32 { s with oam := oam } = .next u ∧
      u.fb32 = t.fb32 ∧ exec .render16 s = .next t' ∧ exec .render16 { s with oam := oam } = .next u' ∧
      (cachesGood s s.caches → u'.fb16 = t'.fb16)

/-- Screen rows 0 to 31, and sprites, do not move with `SCROLLX`, `SCROLLY` or `CTRL` bits 0, 1, 2, 5, 6, 7, on
either path (45_frame_renderer.md R261, R270 c). -/
def Obligations.StatusBarIgnoresScroll : Prop :=
  ∀ (s : State) (x y ctrl : Byte), ctrl &&& 0x18#8 = s.ctrl &&& 0x18#8 →
    ∃ t u t' u', exec .render32 s = .next t ∧
      exec .render32 { s with scrollX := x, scrollY := y, ctrl := ctrl } = .next u ∧
      (∀ (X : Fin 256) (Y : Fin 240), Y.val < 32 → u.fb32.at X Y = t.fb32.at X Y) ∧
      (s.mask.getLsbD 3 = false → u.fb32 = t.fb32) ∧
      exec .render16 s = .next t' ∧
      exec .render16 { s with scrollX := x, scrollY := y, ctrl := ctrl } = .next u' ∧
      (cachesGood s s.caches →
        (∀ (X : Fin 256) (Y : Fin 240), Y.val < 32 → u'.fb16.at X Y = t'.fb16.at X Y) ∧
        (s.mask.getLsbD 3 = false → u'.fb16 = t'.fb16))

/-- What sprites with Y at or above 0xEF or X at or above 0xF9 hold does not show, on either path
(45_frame_renderer.md R255). -/
def Obligations.HiddenSpritesDrawNothing : Prop :=
  ∀ (s : State) (oam : Memory),
    (∀ i < 64, readSprite oam i = readSprite s.oam i ∨
      (0xEF ≤ (oam.read (4 * i)).toNat ∨ 0xF9 ≤ (oam.read (4 * i + 3)).toNat) ∧
        (0xEF ≤ (s.oam.read (4 * i)).toNat ∨ 0xF9 ≤ (s.oam.read (4 * i + 3)).toNat)) →
    ∃ t u t' u', exec .render32 s = .next t ∧ exec .render32 { s with oam := oam } = .next u ∧
      u.fb32 = t.fb32 ∧ exec .render16 s = .next t' ∧ exec .render16 { s with oam := oam } = .next u' ∧
      u'.fb16 = t'.fb16 ∧ u'.caches = t'.caches

/-- R258: at the two skipped pattern pixels of a special sprite 0, wherever its flips put them, both frames
are as if the sprite were hidden. -/
def Obligations.SpecialPixelsAreNeverWritten : Prop :=
  ∀ (s : State) (X : Fin 256) (Y : Fin 240) (px : Fin 8),
    cachesGood s s.caches → s.oam.read 1 = 0xFF#8 → (px = 2 ∨ px = 3) →
    X.val = (s.oam.read 3).toNat + (if (s.oam.read 2).getLsbD 6 then 7 - px.val else px.val) →
    Y.val = (s.oam.read 0).toNat + 1 + (if (s.oam.read 2).getLsbD 7 then 7 - 5 else 5) →
    ∃ t u t' u', exec .render32 s = .next t ∧
      exec .render32 { s with oam := s.oam.write 0 0xFF#8 } = .next u ∧ t.fb32.at X Y = u.fb32.at X Y ∧
      exec .render16 s = .next t' ∧
      exec .render16 { s with oam := s.oam.write 0 0xFF#8 } = .next u' ∧ t'.fb16.at X Y = u'.fb16.at X Y

/-- A true-colour frame depends on `CTRL` bits 0, 3, 4, `MASK` bits 3, 4, `SCROLLX`, the low six bits of
palette bytes, OAM without attribute bits 4:2, `NT`, `RGB`, `CHR` and `MIRROR`, and on nothing else
(10_state.md R22, R23, R26; 30_encoding.md R112, R114; 45_frame_renderer.md R270 d). -/
def Obligations.FrameDependsOnUsedBitsOnly : Prop :=
  ∀ s t : State, t.cfg.chr = s.cfg.chr → t.cfg.mirror = s.cfg.mirror → t.rgb = s.rgb → t.nt = s.nt →
    t.scrollX = s.scrollX → t.ctrl &&& 0x19#8 = s.ctrl &&& 0x19#8 → t.mask &&& 0x18#8 = s.mask &&& 0x18#8 →
    (∀ k < 32, t.pal.read k &&& 0x3F#8 = s.pal.read k &&& 0x3F#8) →
    (∀ k < 256, k % 4 ≠ 2 → t.oam.read k = s.oam.read k) →
    (∀ i < 64, t.oam.read (4 * i + 2) &&& 0xE3#8 = s.oam.read (4 * i + 2) &&& 0xE3#8) →
    ∃ s' t', exec .render32 s = .next s' ∧ exec .render32 t = .next t' ∧ t'.fb32 = s'.fb32

/-- With background and sprites off, both frames are the universal background colour everywhere
(45_frame_renderer.md R252, R270 a). -/
def Obligations.DisabledFrameIsBackdrop : Prop :=
  ∀ s : State, s.mask.getLsbD 3 = false → s.mask.getLsbD 4 = false →
    exec .render32 s = .next { s with fb32 := Vector.replicate 61440 (colour32 s.rgb (s.pal.read 0)) } ∧
    exec .render16 s = .next { s with fb16 := Vector.replicate 61440 (colour16 s.rgb (s.pal.read 0)) }

/-- What 45_frame_renderer.md R269 derives: a render leaves everything but its own frame, and on the compact
path the caches, alone, and rendering twice gives the same frame (on the compact path, with good caches). -/
def Obligations.RenderLeavesRestAndRepeats : Prop :=
  (∀ s : State, ∃ t, exec .render32 s = .next t ∧ t = { s with fb32 := t.fb32 } ∧
    exec .render32 t = .next t) ∧
  (∀ s : State, ∃ t, exec .render16 s = .next t ∧ t = { s with fb16 := t.fb16, caches := t.caches }) ∧
  ∀ s : State, cachesGood s s.caches → ∃ t u, exec .render16 s = .next t ∧ exec .render16 t = .next u ∧
    u.fb16 = t.fb16

/-! ### Output scaler -/

/-- Every destination word of the image is its source pixel, every other word is as before, and nothing else
changes but the scaling cache; a 16-bit word is zero-extended, as the spec lets a model do; no index of the
image reaches `destW * destH` (46_output_scaler.md R300, R305, R308, R309). -/
def Obligations.ScaleReplicatesEveryPixel : Prop :=
  ∀ (s : State) (src : FrameSource) (w h : BitVec 13), scaleCacheGood s → s.cfg.hasScaler = true →
    256 ≤ w.toNat → 240 ≤ h.toNat → ∃ dst,
    let p := scaleParams w h
    exec (.scale src w h) s = .next { s with sc := some p, dst := dst } ∧
    (∀ (y : Fin 240) (x : Fin 256) (i j : Nat), i < p.factor → j < p.factor →
      w.toNat * (p.offY + p.factor * y.val + j) + p.offX + p.factor * x.val + i < w.toNat * h.toNat ∧
      dstRead dst (w.toNat * (p.offY + p.factor * y.val + j) + p.offX + p.factor * x.val + i) =
        match src with
        | .fb16 => (s.fb16.at x y).setWidth 32
        | .fb32 => s.fb32.at x y) ∧
    ∀ X Y : Nat, X < w.toNat →
      ¬ (p.offX ≤ X ∧ X < p.offX + 256 * p.factor ∧ p.offY ≤ Y ∧ Y < p.offY + 240 * p.factor) →
      dstRead dst (w.toNat * Y + X) = dstRead s.dst (w.toNat * Y + X)

/-- R301, R302: the factor, the offsets and the tables; for a destination no smaller than the source the image
fits. -/
def Obligations.ScaleParametersFit : Prop :=
  (∀ w h : BitVec 13, let p := scaleParams w h
    p.destW = w ∧ p.destH = h ∧ p.factor = max 1 (min (w.toNat / 256) (h.toNat / 240)) ∧
    p.offX = (w.toNat - 256 * p.factor) / 2 ∧ p.offY = (h.toNat - 240 * p.factor) / 2 ∧
    (∀ x : Fin 256, p.mapX[x] = p.offX + x.val * p.factor) ∧
    ∀ y : Fin 240, p.mapY[y] = p.offY + y.val * p.factor) ∧
  ∀ w h : BitVec 13, 256 ≤ w.toNat → 240 ≤ h.toNat → let p := scaleParams w h
    p.factor = min (w.toNat / 256) (h.toNat / 240) ∧ 1 ≤ p.factor ∧ p.factor ≤ 31 ∧
    p.offX + 256 * p.factor ≤ w.toNat ∧ p.offY + 240 * p.factor ≤ h.toNat

/-- R306, R307: with no scaler, or a destination smaller than the source, `SCALE` does nothing. -/
def Obligations.ScaleDoesNothingWhenItCannot : Prop :=
  ∀ (s : State) (src : FrameSource) (w h : BitVec 13),
    s.cfg.hasScaler = false ∨ w.toNat < 256 ∨ h.toNat < 240 → exec (.scale src w h) s = .next s

/-! ### Host control, reserved codes, reset -/

/-- R320, R322: `LOADRGB` replaces one entry and clears both caches; `CCLR` clears both caches. -/
def Obligations.LoadRgbAndCclr : Prop :=
  (∀ (w value : Word) (rest : List Word), w &&& 0xF0000000#32 = 0x70000000#32 →
    ∃ k : BitVec 6, k.toNat = w.toNat % 64 ∧ decode (w :: value :: rest) = .ok (.loadRgb k value, rest)) ∧
  (∀ (w : Word) (rest : List Word), w &&& 0xF0000000#32 = 0x60000000#32 →
    decode (w :: rest) = .ok (.cclr, rest)) ∧
  (∀ (k : BitVec 6) (v : Word) (s : State), ∃ rgb,
    exec (.loadRgb k v) s = .next { s with rgb := rgb, caches := Caches.empty } ∧
    ∀ j : Fin 64, rgb[j] = if j.val = k.toNat then v else s.rgb[j]) ∧
  ∀ s : State, exec .cclr s = .next { s with caches := Caches.empty }

/-- R324: everything zero and invalid but `RGB`, `CHR`, the frame buffers and `DST`. -/
def Obligations.ResetCommandClears : Prop :=
  (∀ (w : Word) (rest : List Word), w &&& 0xF0000000#32 = 0x80000000#32 →
    decode (w :: rest) = .ok (.reset, rest)) ∧
  ∀ s : State, ∃ t, exec .reset s = .next t ∧
    (∀ k, t.nt.read k = 0x00#8 ∧ t.pal.read k = 0x00#8 ∧ t.oam.read k = 0x00#8) ∧
    t = { s with
      ctrl := 0x00#8, mask := 0x00#8, oamAddr := 0x00#8, scrollX := 0x00#8, scrollY := 0x00#8
      vaddr := 0x0000#16, w := false, rdBuf := 0x00#8, stCnt := false
      nt := t.nt, pal := t.pal, oam := t.oam, caches := Caches.empty, sc := none }

/-- What 30_encoding.md R107 says: reserved codes change nothing and return nothing, unmapped registers read 0 and ignore writes,
ignored fields have no effect. That issued words wait in `cmds`, that taking a command clears `result`, and that
the host's writes wait in `hostWrites` is the model's choice (log entries 2, 4 and 21). -/
def Obligations.NothingTraps : Prop :=
  (∀ (s : State) (w : Word) (rest : List Word), s.cmds = w :: rest → 9 ≤ (opField w).toNat →
    step s = .next { hostTurn s with cmds := rest, result := none }) ∧
  (∀ i ∈ [Instr.reserved9, .reservedA, .reservedB, .reservedC, .reservedD, .reservedE, .reservedF],
    ∀ s : State, exec i s = .next s) ∧
  (∀ (a : Addr) (d : Byte) (s : State), exec (.rdOther a) s = .next { s with result := some 0x00#8 } ∧
    exec (.wrOther a d) s = .next s) ∧
  ∀ (w w' : Word) (rest : List Word), w &&& operandMask (opField w) = w' &&& operandMask (opField w) →
    decode (w :: rest) = decode (w' :: rest)

/-- The state after power-on (10_state.md R43). `RGB`, the frame buffers and `DST` hold free
values. That this state holds the parameters at the defaults of R4 is the model's choice (log
entry 1). -/
def Obligations.PowerOnState : Prop :=
  let s := State.reset
  s.ctrl = 0x00#8 ∧ s.mask = 0x00#8 ∧ s.oamAddr = 0x00#8 ∧ s.scrollX = 0x00#8 ∧ s.scrollY = 0x00#8 ∧
  s.vaddr = 0x0000#16 ∧ s.w = false ∧ s.rdBuf = 0x00#8 ∧ s.stCnt = false ∧
  (∀ k, s.nt.read k = 0x00#8 ∧ s.pal.read k = 0x00#8 ∧ s.oam.read k = 0x00#8) ∧
  (∀ k (h : k < 4096), s.caches.bc[k] = none) ∧ s.caches.fc = [] ∧ s.sc = none ∧
  (∀ k : Fin 64, s.rgb[k] = Config.rgbInit k.val) ∧ (∀ k, dstRead s.dst k = Config.dstStart k) ∧
  (∀ k : Fin 61440, s.fb32[k] = Config.fb32Start k.val ∧ s.fb16[k] = Config.fb16Start k.val) ∧
  s.cfg.mirror = #v[0, 1, 0, 1] ∧ s.cfg.statusEven = 0xC0#8 ∧ s.cfg.statusOdd = 0x00#8 ∧
  s.cfg.hasScaler = true

/-! ### Invariant -/

/-- The state after power-on is a good one, and its caches hold only what its memories give. -/
def Obligations.InvariantHoldsAtReset : Prop :=
  State.reset.Inv ∧ cachesGood State.reset State.reset.caches

/-- Every step from a good state gives a good state, whatever the host does to `CHR`: the memories canonical,
every cached block one of its tags under the palette and RGB bytes of now, the scaling cache that of its size.
While the host leaves `CHR` as it is, caches that hold only what the current memories give stay so
(44_tile_cache.md R231), and after a command that clears them they do, whatever they held before
(70_reset_and_hazards.md R379). -/
def Obligations.InvariantIsKeptByEveryStep : Prop :=
  ∀ s t : State, s.Inv → step s = .next t → t.Inv ∧
    ((hostTurn s).cfg.chr = s.cfg.chr → cachesGood s s.caches → cachesGood t t.caches) ∧
    ∀ i rest, decode s.cmds = .ok (i, rest) → clearsCaches i s = true → cachesGood t t.caches
end

