-- ==== Sys2Proof/Laws/Memory.lean ====
section
/-! SUPPORT. Keyed lists and byte memories: what a read gives after a write, and that writing keeps the
canonical form. Later proofs cite these and never unfold the lists. -/

namespace Sys2Proof.Machine

/-! ### Keyed lists -/

@[simp] theorem lookupKey_nil {α : Type} (a : Nat) : lookupKey ([] : List (Nat × α)) a = none := rfl

@[simp] theorem lookupKey_insertKey {α : Type} (m : List (Nat × α)) (a b : Nat) (v : α) :
    lookupKey (insertKey m a v) b = if b = a then some v else lookupKey m b := by
  induction m with
  | nil => grind [insertKey, lookupKey]
  | cons c m ih => grind [insertKey, lookupKey]

@[simp] theorem lookupKey_eraseKey {α : Type} (m : List (Nat × α)) (a b : Nat) :
    lookupKey (eraseKey m a) b = if b = a then none else lookupKey m b := by
  induction m with
  | nil => simp [eraseKey]
  | cons c m ih => grind [eraseKey, lookupKey]

theorem mem_insertKey {α : Type} {m : List (Nat × α)} {a : Nat} {v : α} {c : Nat × α}
    (h : c ∈ insertKey m a v) : c = (a, v) ∨ c ∈ m := by
  induction m with
  | nil => simpa [insertKey] using h
  | cons d m ih =>
    obtain ⟨k, u⟩ := d
    simp only [insertKey] at h
    split at h
    · simpa using h
    · split at h
      · rcases List.mem_cons.mp h with h | h
        · exact .inl h
        · exact .inr (List.mem_cons_of_mem _ h)
      · rcases List.mem_cons.mp h with h | h
        · exact .inr (h ▸ List.mem_cons_self)
        · exact (ih h).imp_right (List.mem_cons_of_mem _)

theorem mem_of_mem_eraseKey {α : Type} {m : List (Nat × α)} {a : Nat} {c : Nat × α}
    (h : c ∈ eraseKey m a) : c ∈ m := by
  induction m with
  | nil => simp [eraseKey] at h
  | cons d m ih =>
    obtain ⟨k, u⟩ := d
    simp only [eraseKey] at h
    split at h
    · exact List.mem_cons_of_mem _ (ih h)
    · rcases List.mem_cons.mp h with h | h
      · exact h ▸ List.mem_cons_self
      · exact List.mem_cons_of_mem _ (ih h)

theorem insertKey_ascending {α : Type} {m : List (Nat × α)} (a : Nat) (v : α)
    (h : m.Pairwise fun x y => x.1 < y.1) : (insertKey m a v).Pairwise fun x y => x.1 < y.1 := by
  induction m with
  | nil => simp [insertKey]
  | cons d m ih =>
    obtain ⟨k, u⟩ := d
    rw [List.pairwise_cons] at h
    simp only [insertKey]
    split
    · rename_i hlt
      refine List.pairwise_cons.mpr ⟨?_, List.pairwise_cons.mpr h⟩
      intro c hc
      rcases List.mem_cons.mp hc with rfl | hc
      · exact hlt
      · exact Nat.lt_trans hlt (h.1 c hc)
    · split
      · subst_vars; exact List.pairwise_cons.mpr h
      · refine List.pairwise_cons.mpr ⟨?_, ih h.2⟩
        intro c hc
        rcases mem_insertKey hc with rfl | hc
        · show k < a; omega
        · exact h.1 c hc

theorem eraseKey_ascending {α : Type} {m : List (Nat × α)} (a : Nat)
    (h : m.Pairwise fun x y => x.1 < y.1) : (eraseKey m a).Pairwise fun x y => x.1 < y.1 := by
  induction m with
  | nil => simp [eraseKey]
  | cons d m ih =>
    obtain ⟨k, u⟩ := d
    rw [List.pairwise_cons] at h
    simp only [eraseKey]
    split
    · exact ih h.2
    · exact List.pairwise_cons.mpr ⟨fun c hc => h.1 c (mem_of_mem_eraseKey hc), ih h.2⟩

theorem lookupKey_mem {α : Type} {m : List (Nat × α)} {a : Nat} {v : α}
    (h : lookupKey m a = some v) : (a, v) ∈ m := by
  induction m with
  | nil => simp at h
  | cons d m ih =>
    obtain ⟨k, u⟩ := d
    simp only [lookupKey] at h
    split at h
    · simp_all
    · exact List.mem_cons_of_mem _ (ih h)

/-! ### Byte memories -/

@[simp] theorem Memory.read_nil (a : Nat) : Memory.read [] a = Memory.unlisted := rfl

/-- A read after a write: the byte at its address, every other byte as before. -/
@[simp] theorem Memory.read_write (m : Memory) (a b : Nat) (v : Byte) :
    (m.write a v).read b = if b = a then v else m.read b := by
  unfold Memory.read Memory.write
  split
  · subst_vars; by_cases h : b = a <;> simp [h]
  · by_cases h : b = a <;> simp [h]

theorem Memory.read_write_self (m : Memory) (a : Nat) (v : Byte) : (m.write a v).read a = v := by simp

theorem Memory.read_write_ne (m : Memory) {a b : Nat} (v : Byte) (h : b ≠ a) :
    (m.write a v).read b = m.read b := by simp [h]

theorem Memory.wf_nil (size : Nat) : Memory.wf size [] := ⟨List.Pairwise.nil, fun _ h => nomatch h⟩

/-- Writing inside the memory keeps the canonical form. -/
theorem Memory.wf_write {size : Nat} {m : Memory} {a : Nat} (v : Byte) (h : m.wf size) (ha : a < size) :
    (m.write a v).wf size := by
  unfold Memory.write
  split
  · exact ⟨eraseKey_ascending a h.1, fun c hc => h.2 c (mem_of_mem_eraseKey hc)⟩
  · rename_i hv
    refine ⟨insertKey_ascending a v h.1, fun c hc => ?_⟩
    rcases mem_insertKey hc with rfl | hc
    · exact ⟨ha, hv⟩
    · exact h.2 c hc

/-- A fold of writes inside the memory keeps the canonical form. -/
theorem Memory.wf_foldl_write {size : Nat} {ι : Type} (l : List ι) (a : ι → Nat) (v : ι → Byte)
    (ha : ∀ i ∈ l, a i < size) {m : Memory} (h : m.wf size) :
    (l.foldl (fun m i => m.write (a i) (v i)) m).wf size := by
  induction l generalizing m with
  | nil => exact h
  | cons i l ih =>
    exact ih (fun j hj => ha j (List.mem_cons_of_mem _ hj))
      (Memory.wf_write (v i) h (ha i List.mem_cons_self))

theorem lookupKey_of_lt {α : Type} {c : Nat × α} {m : List (Nat × α)} {a : Nat}
    (h : (c :: m).Pairwise fun x y => x.1 < y.1) (ha : a < c.1) : lookupKey (c :: m) a = none := by
  by_contra hne
  obtain ⟨v, hv⟩ := Option.ne_none_iff_exists'.mp hne
  rcases List.mem_cons.mp (lookupKey_mem hv) with he | hm
  · rw [← he] at ha; simp at ha
  · have := (List.pairwise_cons.mp h).1 _ hm
    simp at this; omega

/-- Two canonical memories that read alike are the same data. -/
theorem Memory.ext_read {size : Nat} {m n : Memory} (hm : m.wf size) (hn : n.wf size)
    (h : ∀ a, m.read a = n.read a) : m = n := by
  induction m generalizing n with
  | nil =>
    cases n with
    | nil => rfl
    | cons d n =>
      have := h d.1
      simp [Memory.read, lookupKey] at this
      exact absurd this.symm (hn.2 d List.mem_cons_self).2
  | cons c m ih =>
    cases n with
    | nil =>
      have := h c.1
      simp [Memory.read, lookupKey] at this
      exact absurd this (hm.2 c List.mem_cons_self).2
    | cons d n =>
      obtain ⟨a, v⟩ := c
      obtain ⟨b, u⟩ := d
      have hv := (hm.2 _ List.mem_cons_self).2
      have hu := (hn.2 _ List.mem_cons_self).2
      have hab : a = b := by
        rcases Nat.lt_trichotomy a b with hl | he | hl
        · have := h a
          rw [Memory.read, Memory.read, lookupKey_of_lt hn.1 hl] at this
          simp [lookupKey] at this; exact absurd this hv
        · exact he
        · have := h b
          rw [Memory.read, Memory.read, lookupKey_of_lt hm.1 hl] at this
          simp [lookupKey] at this; exact absurd this.symm hu
      subst hab
      have hvu : v = u := by simpa [Memory.read, lookupKey] using h a
      subst hvu
      congr 1
      refine ih ⟨(List.pairwise_cons.mp hm.1).2, fun c hc => hm.2 c (List.mem_cons_of_mem _ hc)⟩
        ⟨(List.pairwise_cons.mp hn.1).2, fun c hc => hn.2 c (List.mem_cons_of_mem _ hc)⟩ fun k => ?_
      by_cases hk : a = k
      · subst hk
        have e1 : lookupKey m a = none := by
          by_contra hne
          obtain ⟨w, hw⟩ := Option.ne_none_iff_exists'.mp hne
          simpa using (List.pairwise_cons.mp hm.1).1 _ (lookupKey_mem hw)
        have e2 : lookupKey n a = none := by
          by_contra hne
          obtain ⟨w, hw⟩ := Option.ne_none_iff_exists'.mp hne
          simpa using (List.pairwise_cons.mp hn.1).1 _ (lookupKey_mem hw)
        simp [Memory.read, e1, e2]
      · simpa [Memory.read, lookupKey, hk] using h k

end Sys2Proof.Machine
end

