-- ==== Sys2Proof/Laws/State.lean ====
section
/-! SUPPORT. One lemma for each field of the state under each named update, so that no later proof
unfolds a record update; and the same for `vWrite`, with the three regions it tells apart. -/

namespace Sys2Proof.Machine

/-! ### `invalidateCaches` -/

@[simp] theorem invalidateCaches_cfg (s : State) : (invalidateCaches s).cfg = s.cfg := rfl
@[simp] theorem invalidateCaches_ctrl (s : State) : (invalidateCaches s).ctrl = s.ctrl := rfl
@[simp] theorem invalidateCaches_mask (s : State) : (invalidateCaches s).mask = s.mask := rfl
@[simp] theorem invalidateCaches_oamAddr (s : State) : (invalidateCaches s).oamAddr = s.oamAddr := rfl
@[simp] theorem invalidateCaches_scrollX (s : State) : (invalidateCaches s).scrollX = s.scrollX := rfl
@[simp] theorem invalidateCaches_scrollY (s : State) : (invalidateCaches s).scrollY = s.scrollY := rfl
@[simp] theorem invalidateCaches_vaddr (s : State) : (invalidateCaches s).vaddr = s.vaddr := rfl
@[simp] theorem invalidateCaches_w (s : State) : (invalidateCaches s).w = s.w := rfl
@[simp] theorem invalidateCaches_rdBuf (s : State) : (invalidateCaches s).rdBuf = s.rdBuf := rfl
@[simp] theorem invalidateCaches_stCnt (s : State) : (invalidateCaches s).stCnt = s.stCnt := rfl
@[simp] theorem invalidateCaches_nt (s : State) : (invalidateCaches s).nt = s.nt := rfl
@[simp] theorem invalidateCaches_pal (s : State) : (invalidateCaches s).pal = s.pal := rfl
@[simp] theorem invalidateCaches_oam (s : State) : (invalidateCaches s).oam = s.oam := rfl
@[simp] theorem invalidateCaches_rgb (s : State) : (invalidateCaches s).rgb = s.rgb := rfl
@[simp] theorem invalidateCaches_caches (s : State) : (invalidateCaches s).caches = Caches.empty := rfl
@[simp] theorem invalidateCaches_sc (s : State) : (invalidateCaches s).sc = s.sc := rfl
@[simp] theorem invalidateCaches_fb32 (s : State) : (invalidateCaches s).fb32 = s.fb32 := rfl
@[simp] theorem invalidateCaches_fb16 (s : State) : (invalidateCaches s).fb16 = s.fb16 := rfl
@[simp] theorem invalidateCaches_dst (s : State) : (invalidateCaches s).dst = s.dst := rfl
@[simp] theorem invalidateCaches_result (s : State) : (invalidateCaches s).result = s.result := rfl
@[simp] theorem invalidateCaches_cmds (s : State) : (invalidateCaches s).cmds = s.cmds := rfl
@[simp] theorem invalidateCaches_ext (s : State) : (invalidateCaches s).ext = s.ext := rfl
@[simp] theorem invalidateCaches_dmaCount (s : State) : (invalidateCaches s).dmaCount = s.dmaCount := rfl
@[simp] theorem invalidateCaches_hostWrites (s : State) : (invalidateCaches s).hostWrites = s.hostWrites := rfl

/-! ### `advanceVaddr` -/

@[simp] theorem advanceVaddr_cfg (s : State) : (advanceVaddr s).cfg = s.cfg := rfl
@[simp] theorem advanceVaddr_ctrl (s : State) : (advanceVaddr s).ctrl = s.ctrl := rfl
@[simp] theorem advanceVaddr_mask (s : State) : (advanceVaddr s).mask = s.mask := rfl
@[simp] theorem advanceVaddr_oamAddr (s : State) : (advanceVaddr s).oamAddr = s.oamAddr := rfl
@[simp] theorem advanceVaddr_scrollX (s : State) : (advanceVaddr s).scrollX = s.scrollX := rfl
@[simp] theorem advanceVaddr_scrollY (s : State) : (advanceVaddr s).scrollY = s.scrollY := rfl
@[simp] theorem advanceVaddr_vaddr (s : State) : (advanceVaddr s).vaddr = s.vaddr + increment s.ctrl := rfl
@[simp] theorem advanceVaddr_w (s : State) : (advanceVaddr s).w = s.w := rfl
@[simp] theorem advanceVaddr_rdBuf (s : State) : (advanceVaddr s).rdBuf = s.rdBuf := rfl
@[simp] theorem advanceVaddr_stCnt (s : State) : (advanceVaddr s).stCnt = s.stCnt := rfl
@[simp] theorem advanceVaddr_nt (s : State) : (advanceVaddr s).nt = s.nt := rfl
@[simp] theorem advanceVaddr_pal (s : State) : (advanceVaddr s).pal = s.pal := rfl
@[simp] theorem advanceVaddr_oam (s : State) : (advanceVaddr s).oam = s.oam := rfl
@[simp] theorem advanceVaddr_rgb (s : State) : (advanceVaddr s).rgb = s.rgb := rfl
@[simp] theorem advanceVaddr_caches (s : State) : (advanceVaddr s).caches = s.caches := rfl
@[simp] theorem advanceVaddr_sc (s : State) : (advanceVaddr s).sc = s.sc := rfl
@[simp] theorem advanceVaddr_fb32 (s : State) : (advanceVaddr s).fb32 = s.fb32 := rfl
@[simp] theorem advanceVaddr_fb16 (s : State) : (advanceVaddr s).fb16 = s.fb16 := rfl
@[simp] theorem advanceVaddr_dst (s : State) : (advanceVaddr s).dst = s.dst := rfl
@[simp] theorem advanceVaddr_result (s : State) : (advanceVaddr s).result = s.result := rfl
@[simp] theorem advanceVaddr_cmds (s : State) : (advanceVaddr s).cmds = s.cmds := rfl
@[simp] theorem advanceVaddr_ext (s : State) : (advanceVaddr s).ext = s.ext := rfl
@[simp] theorem advanceVaddr_dmaCount (s : State) : (advanceVaddr s).dmaCount = s.dmaCount := rfl
@[simp] theorem advanceVaddr_hostWrites (s : State) : (advanceVaddr s).hostWrites = s.hostWrites := rfl

/-! ### `returnByte` -/

@[simp] theorem returnByte_cfg (s : State) (v : Byte) : (returnByte s v).cfg = s.cfg := rfl
@[simp] theorem returnByte_ctrl (s : State) (v : Byte) : (returnByte s v).ctrl = s.ctrl := rfl
@[simp] theorem returnByte_mask (s : State) (v : Byte) : (returnByte s v).mask = s.mask := rfl
@[simp] theorem returnByte_oamAddr (s : State) (v : Byte) : (returnByte s v).oamAddr = s.oamAddr := rfl
@[simp] theorem returnByte_scrollX (s : State) (v : Byte) : (returnByte s v).scrollX = s.scrollX := rfl
@[simp] theorem returnByte_scrollY (s : State) (v : Byte) : (returnByte s v).scrollY = s.scrollY := rfl
@[simp] theorem returnByte_vaddr (s : State) (v : Byte) : (returnByte s v).vaddr = s.vaddr := rfl
@[simp] theorem returnByte_w (s : State) (v : Byte) : (returnByte s v).w = s.w := rfl
@[simp] theorem returnByte_rdBuf (s : State) (v : Byte) : (returnByte s v).rdBuf = s.rdBuf := rfl
@[simp] theorem returnByte_stCnt (s : State) (v : Byte) : (returnByte s v).stCnt = s.stCnt := rfl
@[simp] theorem returnByte_nt (s : State) (v : Byte) : (returnByte s v).nt = s.nt := rfl
@[simp] theorem returnByte_pal (s : State) (v : Byte) : (returnByte s v).pal = s.pal := rfl
@[simp] theorem returnByte_oam (s : State) (v : Byte) : (returnByte s v).oam = s.oam := rfl
@[simp] theorem returnByte_rgb (s : State) (v : Byte) : (returnByte s v).rgb = s.rgb := rfl
@[simp] theorem returnByte_caches (s : State) (v : Byte) : (returnByte s v).caches = s.caches := rfl
@[simp] theorem returnByte_sc (s : State) (v : Byte) : (returnByte s v).sc = s.sc := rfl
@[simp] theorem returnByte_fb32 (s : State) (v : Byte) : (returnByte s v).fb32 = s.fb32 := rfl
@[simp] theorem returnByte_fb16 (s : State) (v : Byte) : (returnByte s v).fb16 = s.fb16 := rfl
@[simp] theorem returnByte_dst (s : State) (v : Byte) : (returnByte s v).dst = s.dst := rfl
@[simp] theorem returnByte_result (s : State) (v : Byte) : (returnByte s v).result = some v := rfl
@[simp] theorem returnByte_cmds (s : State) (v : Byte) : (returnByte s v).cmds = s.cmds := rfl
@[simp] theorem returnByte_ext (s : State) (v : Byte) : (returnByte s v).ext = s.ext := rfl
@[simp] theorem returnByte_dmaCount (s : State) (v : Byte) : (returnByte s v).dmaCount = s.dmaCount := rfl
@[simp] theorem returnByte_hostWrites (s : State) (v : Byte) : (returnByte s v).hostWrites = s.hostWrites := rfl

/-! ### `idle` -/

@[simp] theorem idle_cfg (s : State) : (idle s).cfg = s.cfg := rfl
@[simp] theorem idle_ctrl (s : State) : (idle s).ctrl = s.ctrl := rfl
@[simp] theorem idle_mask (s : State) : (idle s).mask = s.mask := rfl
@[simp] theorem idle_oamAddr (s : State) : (idle s).oamAddr = s.oamAddr := rfl
@[simp] theorem idle_scrollX (s : State) : (idle s).scrollX = s.scrollX := rfl
@[simp] theorem idle_scrollY (s : State) : (idle s).scrollY = s.scrollY := rfl
@[simp] theorem idle_vaddr (s : State) : (idle s).vaddr = s.vaddr := rfl
@[simp] theorem idle_w (s : State) : (idle s).w = s.w := rfl
@[simp] theorem idle_rdBuf (s : State) : (idle s).rdBuf = s.rdBuf := rfl
@[simp] theorem idle_stCnt (s : State) : (idle s).stCnt = s.stCnt := rfl
@[simp] theorem idle_nt (s : State) : (idle s).nt = s.nt := rfl
@[simp] theorem idle_pal (s : State) : (idle s).pal = s.pal := rfl
@[simp] theorem idle_oam (s : State) : (idle s).oam = s.oam := rfl
@[simp] theorem idle_rgb (s : State) : (idle s).rgb = s.rgb := rfl
@[simp] theorem idle_caches (s : State) : (idle s).caches = s.caches := rfl
@[simp] theorem idle_sc (s : State) : (idle s).sc = s.sc := rfl
@[simp] theorem idle_fb32 (s : State) : (idle s).fb32 = s.fb32 := rfl
@[simp] theorem idle_fb16 (s : State) : (idle s).fb16 = s.fb16 := rfl
@[simp] theorem idle_dst (s : State) : (idle s).dst = s.dst := rfl
@[simp] theorem idle_result (s : State) : (idle s).result = none := rfl
@[simp] theorem idle_cmds (s : State) : (idle s).cmds = s.cmds := rfl
@[simp] theorem idle_ext (s : State) : (idle s).ext = s.ext := rfl
@[simp] theorem idle_dmaCount (s : State) : (idle s).dmaCount = s.dmaCount := rfl
@[simp] theorem idle_hostWrites (s : State) : (idle s).hostWrites = s.hostWrites := rfl

/-! ### `hostTurn` -/

@[simp] theorem hostTurn_cfg (s : State) : (hostTurn s).cfg =
    { s.cfg with chr := (s.hostWrites.head?.getD []).foldl hostChr s.cfg.chr } := rfl
@[simp] theorem hostTurn_ctrl (s : State) : (hostTurn s).ctrl = s.ctrl := rfl
@[simp] theorem hostTurn_mask (s : State) : (hostTurn s).mask = s.mask := rfl
@[simp] theorem hostTurn_oamAddr (s : State) : (hostTurn s).oamAddr = s.oamAddr := rfl
@[simp] theorem hostTurn_scrollX (s : State) : (hostTurn s).scrollX = s.scrollX := rfl
@[simp] theorem hostTurn_scrollY (s : State) : (hostTurn s).scrollY = s.scrollY := rfl
@[simp] theorem hostTurn_vaddr (s : State) : (hostTurn s).vaddr = s.vaddr := rfl
@[simp] theorem hostTurn_w (s : State) : (hostTurn s).w = s.w := rfl
@[simp] theorem hostTurn_rdBuf (s : State) : (hostTurn s).rdBuf = s.rdBuf := rfl
@[simp] theorem hostTurn_stCnt (s : State) : (hostTurn s).stCnt = s.stCnt := rfl
@[simp] theorem hostTurn_nt (s : State) : (hostTurn s).nt = s.nt := rfl
@[simp] theorem hostTurn_pal (s : State) : (hostTurn s).pal = s.pal := rfl
@[simp] theorem hostTurn_oam (s : State) : (hostTurn s).oam = s.oam := rfl
@[simp] theorem hostTurn_rgb (s : State) : (hostTurn s).rgb = s.rgb := rfl
@[simp] theorem hostTurn_caches (s : State) : (hostTurn s).caches = s.caches := rfl
@[simp] theorem hostTurn_sc (s : State) : (hostTurn s).sc = s.sc := rfl
@[simp] theorem hostTurn_fb32 (s : State) : (hostTurn s).fb32 =
    (s.hostWrites.head?.getD []).foldl hostFb32 s.fb32 := rfl
@[simp] theorem hostTurn_fb16 (s : State) : (hostTurn s).fb16 =
    (s.hostWrites.head?.getD []).foldl hostFb16 s.fb16 := rfl
@[simp] theorem hostTurn_dst (s : State) : (hostTurn s).dst = (s.hostWrites.head?.getD []).foldl hostDst s.dst := rfl
@[simp] theorem hostTurn_result (s : State) : (hostTurn s).result = s.result := rfl
@[simp] theorem hostTurn_cmds (s : State) : (hostTurn s).cmds = s.cmds := rfl
@[simp] theorem hostTurn_ext (s : State) : (hostTurn s).ext = s.ext := rfl
@[simp] theorem hostTurn_dmaCount (s : State) : (hostTurn s).dmaCount = s.dmaCount := rfl
@[simp] theorem hostTurn_hostWrites (s : State) : (hostTurn s).hostWrites = s.hostWrites.tail := rfl

/-- A host that lists no writes leaves the state as it is. -/
theorem hostTurn_none {s : State} (h : s.hostWrites = []) : hostTurn s = s := by
  obtain ⟨⟩ := s; cases h; rfl

/-! ### `clearRegisters` -/

@[simp] theorem clearRegisters_cfg (s : State) : (clearRegisters s).cfg = s.cfg := rfl
@[simp] theorem clearRegisters_ctrl (s : State) : (clearRegisters s).ctrl = 0x00#8 := rfl
@[simp] theorem clearRegisters_mask (s : State) : (clearRegisters s).mask = 0x00#8 := rfl
@[simp] theorem clearRegisters_oamAddr (s : State) : (clearRegisters s).oamAddr = 0x00#8 := rfl
@[simp] theorem clearRegisters_scrollX (s : State) : (clearRegisters s).scrollX = 0x00#8 := rfl
@[simp] theorem clearRegisters_scrollY (s : State) : (clearRegisters s).scrollY = 0x00#8 := rfl
@[simp] theorem clearRegisters_vaddr (s : State) : (clearRegisters s).vaddr = 0x0000#16 := rfl
@[simp] theorem clearRegisters_w (s : State) : (clearRegisters s).w = false := rfl
@[simp] theorem clearRegisters_rdBuf (s : State) : (clearRegisters s).rdBuf = 0x00#8 := rfl
@[simp] theorem clearRegisters_stCnt (s : State) : (clearRegisters s).stCnt = false := rfl
@[simp] theorem clearRegisters_nt (s : State) : (clearRegisters s).nt = s.nt := rfl
@[simp] theorem clearRegisters_pal (s : State) : (clearRegisters s).pal = s.pal := rfl
@[simp] theorem clearRegisters_oam (s : State) : (clearRegisters s).oam = s.oam := rfl
@[simp] theorem clearRegisters_rgb (s : State) : (clearRegisters s).rgb = s.rgb := rfl
@[simp] theorem clearRegisters_caches (s : State) : (clearRegisters s).caches = s.caches := rfl
@[simp] theorem clearRegisters_sc (s : State) : (clearRegisters s).sc = s.sc := rfl
@[simp] theorem clearRegisters_fb32 (s : State) : (clearRegisters s).fb32 = s.fb32 := rfl
@[simp] theorem clearRegisters_fb16 (s : State) : (clearRegisters s).fb16 = s.fb16 := rfl
@[simp] theorem clearRegisters_dst (s : State) : (clearRegisters s).dst = s.dst := rfl
@[simp] theorem clearRegisters_result (s : State) : (clearRegisters s).result = s.result := rfl
@[simp] theorem clearRegisters_cmds (s : State) : (clearRegisters s).cmds = s.cmds := rfl
@[simp] theorem clearRegisters_ext (s : State) : (clearRegisters s).ext = s.ext := rfl
@[simp] theorem clearRegisters_dmaCount (s : State) : (clearRegisters s).dmaCount = s.dmaCount := rfl
@[simp] theorem clearRegisters_hostWrites (s : State) : (clearRegisters s).hostWrites = s.hostWrites := rfl

/-! ### `clearMemories` -/

@[simp] theorem clearMemories_cfg (s : State) : (clearMemories s).cfg = s.cfg := rfl
@[simp] theorem clearMemories_ctrl (s : State) : (clearMemories s).ctrl = s.ctrl := rfl
@[simp] theorem clearMemories_mask (s : State) : (clearMemories s).mask = s.mask := rfl
@[simp] theorem clearMemories_oamAddr (s : State) : (clearMemories s).oamAddr = s.oamAddr := rfl
@[simp] theorem clearMemories_scrollX (s : State) : (clearMemories s).scrollX = s.scrollX := rfl
@[simp] theorem clearMemories_scrollY (s : State) : (clearMemories s).scrollY = s.scrollY := rfl
@[simp] theorem clearMemories_vaddr (s : State) : (clearMemories s).vaddr = s.vaddr := rfl
@[simp] theorem clearMemories_w (s : State) : (clearMemories s).w = s.w := rfl
@[simp] theorem clearMemories_rdBuf (s : State) : (clearMemories s).rdBuf = s.rdBuf := rfl
@[simp] theorem clearMemories_stCnt (s : State) : (clearMemories s).stCnt = s.stCnt := rfl
@[simp] theorem clearMemories_nt (s : State) : (clearMemories s).nt = [] := rfl
@[simp] theorem clearMemories_pal (s : State) : (clearMemories s).pal = [] := rfl
@[simp] theorem clearMemories_oam (s : State) : (clearMemories s).oam = [] := rfl
@[simp] theorem clearMemories_rgb (s : State) : (clearMemories s).rgb = s.rgb := rfl
@[simp] theorem clearMemories_caches (s : State) : (clearMemories s).caches = s.caches := rfl
@[simp] theorem clearMemories_sc (s : State) : (clearMemories s).sc = s.sc := rfl
@[simp] theorem clearMemories_fb32 (s : State) : (clearMemories s).fb32 = s.fb32 := rfl
@[simp] theorem clearMemories_fb16 (s : State) : (clearMemories s).fb16 = s.fb16 := rfl
@[simp] theorem clearMemories_dst (s : State) : (clearMemories s).dst = s.dst := rfl
@[simp] theorem clearMemories_result (s : State) : (clearMemories s).result = s.result := rfl
@[simp] theorem clearMemories_cmds (s : State) : (clearMemories s).cmds = s.cmds := rfl
@[simp] theorem clearMemories_ext (s : State) : (clearMemories s).ext = s.ext := rfl
@[simp] theorem clearMemories_dmaCount (s : State) : (clearMemories s).dmaCount = s.dmaCount := rfl
@[simp] theorem clearMemories_hostWrites (s : State) : (clearMemories s).hostWrites = s.hostWrites := rfl

/-! ### `withFetchWord` -/

@[simp] theorem withFetchWord_cfg (s : State) (n x : Nat) : (s.withFetchWord n x).cfg = s.cfg := rfl
@[simp] theorem withFetchWord_ctrl (s : State) (n x : Nat) : (s.withFetchWord n x).ctrl = s.ctrl := rfl
@[simp] theorem withFetchWord_mask (s : State) (n x : Nat) : (s.withFetchWord n x).mask = s.mask := rfl
@[simp] theorem withFetchWord_oamAddr (s : State) (n x : Nat) : (s.withFetchWord n x).oamAddr = s.oamAddr := rfl
@[simp] theorem withFetchWord_scrollX (s : State) (n x : Nat) : (s.withFetchWord n x).scrollX = s.scrollX := rfl
@[simp] theorem withFetchWord_scrollY (s : State) (n x : Nat) : (s.withFetchWord n x).scrollY = s.scrollY := rfl
@[simp] theorem withFetchWord_vaddr (s : State) (n x : Nat) : (s.withFetchWord n x).vaddr = s.vaddr := rfl
@[simp] theorem withFetchWord_w (s : State) (n x : Nat) : (s.withFetchWord n x).w = s.w := rfl
@[simp] theorem withFetchWord_rdBuf (s : State) (n x : Nat) : (s.withFetchWord n x).rdBuf = s.rdBuf := rfl
@[simp] theorem withFetchWord_stCnt (s : State) (n x : Nat) : (s.withFetchWord n x).stCnt = s.stCnt := rfl
@[simp] theorem withFetchWord_nt (s : State) (n x : Nat) : (s.withFetchWord n x).nt = s.nt := rfl
@[simp] theorem withFetchWord_pal (s : State) (n x : Nat) : (s.withFetchWord n x).pal = s.pal := rfl
@[simp] theorem withFetchWord_oam (s : State) (n x : Nat) : (s.withFetchWord n x).oam = s.oam := rfl
@[simp] theorem withFetchWord_rgb (s : State) (n x : Nat) : (s.withFetchWord n x).rgb = s.rgb := rfl
@[simp] theorem withFetchWord_caches (s : State) (n x : Nat) : (s.withFetchWord n x).caches = s.caches := rfl
@[simp] theorem withFetchWord_sc (s : State) (n x : Nat) : (s.withFetchWord n x).sc = s.sc := rfl
@[simp] theorem withFetchWord_fb32 (s : State) (n x : Nat) : (s.withFetchWord n x).fb32 = s.fb32 := rfl
@[simp] theorem withFetchWord_fb16 (s : State) (n x : Nat) : (s.withFetchWord n x).fb16 = s.fb16 := rfl
@[simp] theorem withFetchWord_dst (s : State) (n x : Nat) : (s.withFetchWord n x).dst = s.dst := rfl
@[simp] theorem withFetchWord_result (s : State) (n x : Nat) : (s.withFetchWord n x).result = s.result := rfl
@[simp] theorem withFetchWord_cmds (s : State) (n x : Nat) : (s.withFetchWord n x).cmds = tableWords n x ++ s.cmds := rfl
@[simp] theorem withFetchWord_ext (s : State) (n x : Nat) : (s.withFetchWord n x).ext = s.ext := rfl
@[simp] theorem withFetchWord_dmaCount (s : State) (n x : Nat) : (s.withFetchWord n x).dmaCount = s.dmaCount := rfl
@[simp] theorem withFetchWord_hostWrites (s : State) (n x : Nat) : (s.withFetchWord n x).hostWrites = s.hostWrites := rfl

@[simp] theorem noOperation_eq (s : State) : noOperation s = s := rfl

/-! ### `vWrite` (20_memory.md R67) -/

/-- Below 0x2000 a write does nothing. -/
theorem vWrite_pattern {s : State} {a : Addr} (v : Byte) (h : ppuAddr a < 0x2000) : vWrite s a v = s := by
  simp [vWrite, h]

/-- From 0x2000 to 0x3EFF a write stores one byte of `NT`. -/
theorem vWrite_nametable {s : State} {a : Addr} (v : Byte) (h : 0x2000 ≤ ppuAddr a) (h' : ppuAddr a < 0x3F00) :
    vWrite s a v = { s with nt := s.nt.write (ntIndex s.cfg.mirror (ppuAddr a)) v } := by
  simp [vWrite, Nat.not_lt.mpr h, h']

/-- From 0x3F00 a write stores into `PAL` and clears the caches. -/
theorem vWrite_palette {s : State} {a : Addr} (v : Byte) (h : 0x3F00 ≤ ppuAddr a) :
    vWrite s a v =
      { s with pal := paletteStore s.pal (palIndex (ppuAddr a)) v, caches := Caches.empty } := by
  have h2 : ¬ ppuAddr a < 0x2000 := by omega
  simp [vWrite, h2, Nat.not_lt.mpr h, invalidateCaches]

@[simp] theorem vWrite_cfg (s : State) (a : Addr) (v : Byte) : (vWrite s a v).cfg = s.cfg := by
  unfold vWrite; split <;> [rfl; (split <;> rfl)]
@[simp] theorem vWrite_ctrl (s : State) (a : Addr) (v : Byte) : (vWrite s a v).ctrl = s.ctrl := by
  unfold vWrite; split <;> [rfl; (split <;> rfl)]
@[simp] theorem vWrite_mask (s : State) (a : Addr) (v : Byte) : (vWrite s a v).mask = s.mask := by
  unfold vWrite; split <;> [rfl; (split <;> rfl)]
@[simp] theorem vWrite_oamAddr (s : State) (a : Addr) (v : Byte) : (vWrite s a v).oamAddr = s.oamAddr := by
  unfold vWrite; split <;> [rfl; (split <;> rfl)]
@[simp] theorem vWrite_scrollX (s : State) (a : Addr) (v : Byte) : (vWrite s a v).scrollX = s.scrollX := by
  unfold vWrite; split <;> [rfl; (split <;> rfl)]
@[simp] theorem vWrite_scrollY (s : State) (a : Addr) (v : Byte) : (vWrite s a v).scrollY = s.scrollY := by
  unfold vWrite; split <;> [rfl; (split <;> rfl)]
@[simp] theorem vWrite_vaddr (s : State) (a : Addr) (v : Byte) : (vWrite s a v).vaddr = s.vaddr := by
  unfold vWrite; split <;> [rfl; (split <;> rfl)]
@[simp] theorem vWrite_w (s : State) (a : Addr) (v : Byte) : (vWrite s a v).w = s.w := by
  unfold vWrite; split <;> [rfl; (split <;> rfl)]
@[simp] theorem vWrite_rdBuf (s : State) (a : Addr) (v : Byte) : (vWrite s a v).rdBuf = s.rdBuf := by
  unfold vWrite; split <;> [rfl; (split <;> rfl)]
@[simp] theorem vWrite_stCnt (s : State) (a : Addr) (v : Byte) : (vWrite s a v).stCnt = s.stCnt := by
  unfold vWrite; split <;> [rfl; (split <;> rfl)]
@[simp] theorem vWrite_oam (s : State) (a : Addr) (v : Byte) : (vWrite s a v).oam = s.oam := by
  unfold vWrite; split <;> [rfl; (split <;> rfl)]
@[simp] theorem vWrite_rgb (s : State) (a : Addr) (v : Byte) : (vWrite s a v).rgb = s.rgb := by
  unfold vWrite; split <;> [rfl; (split <;> rfl)]
@[simp] theorem vWrite_sc (s : State) (a : Addr) (v : Byte) : (vWrite s a v).sc = s.sc := by
  unfold vWrite; split <;> [rfl; (split <;> rfl)]
@[simp] theorem vWrite_fb32 (s : State) (a : Addr) (v : Byte) : (vWrite s a v).fb32 = s.fb32 := by
  unfold vWrite; split <;> [rfl; (split <;> rfl)]
@[simp] theorem vWrite_fb16 (s : State) (a : Addr) (v : Byte) : (vWrite s a v).fb16 = s.fb16 := by
  unfold vWrite; split <;> [rfl; (split <;> rfl)]
@[simp] theorem vWrite_dst (s : State) (a : Addr) (v : Byte) : (vWrite s a v).dst = s.dst := by
  unfold vWrite; split <;> [rfl; (split <;> rfl)]
@[simp] theorem vWrite_result (s : State) (a : Addr) (v : Byte) : (vWrite s a v).result = s.result := by
  unfold vWrite; split <;> [rfl; (split <;> rfl)]
@[simp] theorem vWrite_cmds (s : State) (a : Addr) (v : Byte) : (vWrite s a v).cmds = s.cmds := by
  unfold vWrite; split <;> [rfl; (split <;> rfl)]
@[simp] theorem vWrite_ext (s : State) (a : Addr) (v : Byte) : (vWrite s a v).ext = s.ext := by
  unfold vWrite; split <;> [rfl; (split <;> rfl)]
@[simp] theorem vWrite_dmaCount (s : State) (a : Addr) (v : Byte) : (vWrite s a v).dmaCount = s.dmaCount := by
  unfold vWrite; split <;> [rfl; (split <;> rfl)]
@[simp] theorem vWrite_hostWrites (s : State) (a : Addr) (v : Byte) : (vWrite s a v).hostWrites = s.hostWrites := by
  unfold vWrite; split <;> [rfl; (split <;> rfl)]

end Sys2Proof.Machine
end

