-- ==== Sys2Proof/Laws/AddressSpace.lean ====
section
/-! SUPPORT. The PPU address space and the OAM DMA: ranges, what each region reads, what a write
changes, and that the memories keep their canonical form. -/

namespace Sys2Proof.Machine

/-! ### Ranges -/

theorem ppuAddr_lt (a : Addr) : ppuAddr a < 0x4000 := Nat.mod_lt _ (by decide)

theorem palIndex_lt (a : Nat) : palIndex a < palSize := Nat.mod_lt _ (by decide)

theorem ntIndex_lt (mirror : Vector (Fin 2) 4) (a : Nat) : ntIndex mirror a < ntSize := by
  unfold ntIndex
  have h1 := (mirror[(a - 0x2000) % 0x1000 / 0x400]'(by omega)).isLt
  have h2 : (a - 0x2000) % 0x400 < 0x400 := Nat.mod_lt _ (by decide)
  show _ < 2048
  omega

/-- `NTIndex` in terms of the logical nametable `t` and the offset `o` inside it (20_memory.md R68). -/
theorem ntIndex_eq (mirror : Vector (Fin 2) 4) (t o : Nat) (ht : t < 4) (ho : o < 0x400) :
    ntIndex mirror (0x2000 + 0x400 * t + o) = mirror[t].val * 0x400 + o := by
  have h1 : (0x2000 + 0x400 * t + o - 0x2000) % 0x1000 / 0x400 = t := by omega
  have h2 : (0x2000 + 0x400 * t + o - 0x2000) % 0x400 = o := by omega
  simp only [ntIndex, h1, h2]

theorem ntIndex_add_0x1000 (mirror : Vector (Fin 2) 4) (a : Nat) (h : 0x2000 ≤ a) :
    ntIndex mirror (a + 0x1000) = ntIndex mirror a := by
  have h1 : (a + 0x1000 - 0x2000) % 0x1000 / 0x400 = (a - 0x2000) % 0x1000 / 0x400 := by omega
  have h2 : (a + 0x1000 - 0x2000) % 0x400 = (a - 0x2000) % 0x400 := by omega
  simp only [ntIndex, h1, h2]

theorem ppuAddr_ofNat (n : Nat) : ppuAddr (BitVec.ofNat 16 n) = n % 0x4000 := by
  simp only [ppuAddr, BitVec.toNat_ofNat]; omega

/-! ### Reading -/

theorem vRead_pattern {s : State} {a : Addr} (h : ppuAddr a < 0x2000) : vRead s a = s.cfg.chr[ppuAddr a] := by
  simp [vRead, h]

theorem vRead_nametable {s : State} {a : Addr} (h : 0x2000 ≤ ppuAddr a) (h' : ppuAddr a < 0x3F00) :
    vRead s a = s.nt.read (ntIndex s.cfg.mirror (ppuAddr a)) := by
  simp [vRead, Nat.not_lt.mpr h, h']

theorem vRead_palette {s : State} {a : Addr} (h : 0x3F00 ≤ ppuAddr a) :
    vRead s a = s.pal.read (palIndex (ppuAddr a)) := by
  simp [vRead, show ¬ ppuAddr a < 0x2000 by omega, Nat.not_lt.mpr h]

/-- A read depends on `CHR`, `MIRROR`, `NT` and `PAL` alone. -/
theorem vRead_congr {s t : State} (a : Addr) (hc : t.cfg = s.cfg) (hn : t.nt = s.nt) (hp : t.pal = s.pal) :
    vRead t a = vRead s a := by
  unfold vRead; rw [hc, hn, hp]

/-! ### Writing the palette -/

theorem mirroredSlot_cases {p : Nat} (h : mirroredSlot p = true) :
    p = 0x10 ∨ p = 0x14 ∨ p = 0x18 ∨ p = 0x1C := by
  simpa [mirroredSlot, or_assoc] using h

/-- A palette byte after a palette write: the byte itself and, for the four mirrored slots, the one 16
below (20_memory.md R70). -/
theorem paletteStore_read (pal : Memory) (p k : Nat) (v : Byte) :
    (paletteStore pal p v).read k =
      if k = p ∨ (mirroredSlot p = true ∧ k + 0x10 = p) then v else pal.read k := by
  unfold paletteStore
  split
  · rename_i h
    have := mirroredSlot_cases h
    simp only [Memory.read_write, h, true_and]
    split_ifs <;> first | rfl | omega
  · rename_i h
    simp [h]

theorem paletteStore_wf {pal : Memory} {p : Nat} (v : Byte) (h : pal.wf palSize) (hp : p < palSize) :
    (paletteStore pal p v).wf palSize := by
  unfold paletteStore
  split
  · exact Memory.wf_write v (Memory.wf_write v h hp) (by omega)
  · exact Memory.wf_write v h hp

/-- A write keeps the memories in their canonical form. -/
theorem vWrite_memories {s : State} (a : Addr) (v : Byte) (hn : s.nt.wf ntSize) (hp : s.pal.wf palSize) :
    (vWrite s a v).nt.wf ntSize ∧ (vWrite s a v).pal.wf palSize := by
  unfold vWrite
  split
  · exact ⟨hn, hp⟩
  · split
    · exact ⟨Memory.wf_write v hn (ntIndex_lt _ _), hp⟩
    · exact ⟨hn, paletteStore_wf v hp (palIndex_lt _)⟩

/-! ### OAM DMA -/

/-- A fold of writes at pairwise different addresses: each address reads its own byte. -/
theorem Memory.read_foldl_write {ι : Type} [DecidableEq ι] (l : List ι) (a : ι → Nat) (v : ι → Byte)
    (m : Memory) (hinj : ∀ i ∈ l, ∀ j ∈ l, a i = a j → i = j) {i : ι} (hi : i ∈ l) :
    (l.foldl (fun m i => m.write (a i) (v i)) m).read (a i) = v i := by
  induction l using List.reverseRecOn with
  | nil => simp at hi
  | append_singleton l j ih =>
    rw [List.foldl_append]
    simp only [List.foldl_cons, List.foldl_nil, Memory.read_write]
    split
    · rename_i h
      rw [hinj i hi j (by simp) h]
    · rename_i h
      have hil : i ∈ l := by
        rcases List.mem_append.mp hi with h' | h'
        · exact h'
        · simp only [List.mem_singleton] at h'; subst h'; exact absurd rfl h
      exact ih (fun x hx y hy => hinj x (by simp [hx]) y (by simp [hy])) hil

/-- Byte `i` of the host's page lands at `(OAMADDR + i) mod 256` (42_oam_dma.md R180). -/
theorem dmaStores_read (s : State) (page : Byte) {i : Nat} (hi : i < 256) :
    (dmaStores s page).read ((s.oamAddr.toNat + i) % 256) = extRead s (dmaSource page i) := by
  refine Memory.read_foldl_write (List.range 256) (fun i => (s.oamAddr.toNat + i) % 256)
    (fun i => extRead s (dmaSource page i)) s.oam ?_ (List.mem_range.mpr hi)
  intro i hi j hj h
  simp only [List.mem_range] at hi hj
  omega

theorem dmaStores_wf {s : State} (page : Byte) (h : s.oam.wf oamSize) : (dmaStores s page).wf oamSize :=
  Memory.wf_foldl_write _ _ _ (fun _ _ => Nat.mod_lt _ (by decide)) h

/-- What a `DMA` stores depends on `OAM`, `OAMADDR` and the host's answers alone. -/
theorem dmaStores_congr {s t : State} (page : Byte) (ho : t.oam = s.oam) (ha : t.oamAddr = s.oamAddr)
    (he : t.ext = s.ext) (hn : t.dmaCount = s.dmaCount) : dmaStores t page = dmaStores s page := by
  simp only [dmaStores, extRead, ho, ha, he, hn]

theorem dmaSource_toNat (page : Byte) {i : Nat} (hi : i < 256) :
    (dmaSource page i).toNat = 256 * page.toNat + i := by
  have := page.isLt
  simp only [dmaSource, BitVec.toNat_ofNat]; omega

end Sys2Proof.Machine
end

