-- ==== Sys2Proof/Laws/Compositor.lean ====
section
/-! SUPPORT. The compositor pixel by pixel: what stands at a row and pixel column of a block, and what a
block depends on. -/

namespace Sys2Proof.Machine

/-! ### Places -/

@[simp] theorem cellRow_cellIndex (r p : Fin 8) : cellRow (cellIndex r p) = r := by
  ext; simp [cellRow, cellIndex]; omega

@[simp] theorem cellCol_cellIndex (r p : Fin 8) : cellCol (cellIndex r p) = p := by
  ext; simp [cellCol, cellIndex]

@[simp] theorem cellIndex_row_col (i : Fin 64) : cellIndex (cellRow i) (cellCol i) = i := by
  ext; simp only [cellRow, cellCol, cellIndex]; omega

@[simp] theorem mirrorIf_mirrorIf (f : Bool) (k : Fin 8) : mirrorIf f (mirrorIf f k) = k := by
  cases f <;> simp [mirrorIf]

theorem mirrorIf_val (f : Bool) (k : Fin 8) : (mirrorIf f k).val = if f then 7 - k.val else k.val := by
  cases f
  · rfl
  · simp [mirrorIf, Fin.rev]

theorem mirrorIf_injective {f : Bool} {j k : Fin 8} (h : mirrorIf f j = mirrorIf f k) : j = k := by
  simpa using congrArg (mirrorIf f) h

/-- A block is its 64 pixels. -/
theorem Block.ext_at {n : Nat} {a b : Block n} (h : ∀ r p, Block.at a r p = Block.at b r p) : a = b := by
  apply Vector.ext
  intro i hi
  simpa [Block.at] using h (cellRow ⟨i, hi⟩) (cellCol ⟨i, hi⟩)

@[simp] theorem Block.at_ofFn {n : Nat} (f : Fin 64 → Option (BitVec n)) (r p : Fin 8) :
    Block.at (Vector.ofFn f) r p = f (cellIndex r p) := by
  simp [Block.at]

/-! ### `Flip` (43_compositor.md R193) -/

@[simp] theorem Block.at_flipBlock {n : Nat} (fx fy : Bool) (b : Block n) (r p : Fin 8) :
    Block.at (flipBlock fx fy b) r p = Block.at b (mirrorIf fy r) (mirrorIf fx p) := by
  simp [flipBlock]

@[simp] theorem flipBlock_none {n : Nat} (b : Block n) : flipBlock false false b = b :=
  Block.ext_at fun r p => by simp [mirrorIf]

/-! ### Blocks (43_compositor.md R201, R202) -/

theorem Block.at_block32 (s : State) (tile : Nat) (pt : PaletteType) (attr : BitVec 4) (fx fy : Bool)
    (r p : Fin 8) :
    Block.at (block32 s tile pt attr fx fy) r p =
      (palByte s.pal pt attr (pixelIndex s.cfg.chr tile (mirrorIf fy r) (mirrorIf fx p))).map
        (colour32 s.rgb) := by
  simp only [block32, Block.at_flipBlock]
  simp [Block.at, paletteBlock, decodeTile]

theorem Block.at_block16 (s : State) (tile : Nat) (pt : PaletteType) (attr : BitVec 4) (fx fy : Bool)
    (r p : Fin 8) :
    Block.at (block16 s tile pt attr fx fy) r p =
      (palByte s.pal pt attr (pixelIndex s.cfg.chr tile (mirrorIf fy r) (mirrorIf fx p))).map
        (colour16 s.rgb) := by
  simp only [block16, Block.at_flipBlock]
  simp [Block.at, paletteBlock, decodeTile]

/-- The flipped block is the flip of the natural block (44_tile_cache.md R224). -/
theorem flipBlock_block16 (s : State) (tile : Nat) (pt : PaletteType) (attr : BitVec 4) (fx fy : Bool) :
    flipBlock fx fy (block16 s tile pt attr false false) = block16 s tile pt attr fx fy :=
  Block.ext_at fun r p => by simp [Block.at_block16, mirrorIf]

/-- A block depends on `CHR`, `PAL` and `RGB` alone. -/
theorem block16_congr {s t : State} (hc : t.cfg = s.cfg) (hp : t.pal = s.pal) (hr : t.rgb = s.rgb)
    (tile : Nat) (pt : PaletteType) (attr : BitVec 4) (fx fy : Bool) :
    block16 t tile pt attr fx fy = block16 s tile pt attr fx fy := by
  unfold block16 paletteBlock; rw [hc, hp, hr]

theorem block32_congr {s t : State} (hc : t.cfg = s.cfg) (hp : t.pal = s.pal) (hr : t.rgb = s.rgb)
    (tile : Nat) (pt : PaletteType) (attr : BitVec 4) (fx fy : Bool) :
    block32 t tile pt attr fx fy = block32 s tile pt attr fx fy := by
  unfold block32 paletteBlock; rw [hc, hp, hr]

/-! ### Palette bytes (43_compositor.md R195) -/

/-- A background pixel is never transparent. -/
theorem palByte_background_isSome (pal : Memory) (attr : BitVec 4) (idx : BitVec 2) :
    (palByte pal .background attr idx).isSome = true := by
  simp only [palByte]; split <;> rfl

/-- A sprite pixel is transparent exactly at index 0. -/
theorem palByte_sprite_isNone (pal : Memory) (p : BitVec 2) (attr : BitVec 4) (idx : BitVec 2) :
    (palByte pal (.sprite p) attr idx).isNone = true ↔ idx = 0#2 := by
  simp only [palByte]; split <;> simp_all

/-! ### Palette types (43_compositor.md R194) -/

@[simp] theorem paletteTypeOf_ptypeNumber (pt : PaletteType) : paletteTypeOf (ptypeNumber pt) = some pt := by
  cases pt with
  | background => rfl
  | sprite p =>
    have : ∀ p : BitVec 2, paletteTypeOf (p.toNat + 1) = some (.sprite p) := by decide
    exact this p

theorem paletteTypeOf_lt {n : Nat} {pt : PaletteType} (h : paletteTypeOf n = some pt) : n < 5 := by
  match n with
  | 0 | 1 | 2 | 3 | 4 => omega
  | n + 5 => simp [paletteTypeOf] at h

theorem paletteTypeOf_some {n : Nat} (h : n < 5) : ∃ pt, paletteTypeOf n = some pt := by
  match n with
  | 0 | 1 | 2 | 3 | 4 => exact ⟨_, rfl⟩
  | n + 5 => omega

theorem paletteTypeOf_none {n : Nat} (h : 5 ≤ n) : paletteTypeOf n = none := by
  match n with
  | 0 | 1 | 2 | 3 | 4 => omega
  | n + 5 => rfl

end Sys2Proof.Machine
end

