-- ==== Sys2Proof/Laws/Decode.lean ====
section
/-! SUPPORT. The fields of the words the encoder writes, the fields the decoder reads of any word, and
the opcode table's patterns in terms of those fields. -/

namespace Sys2Proof

/-! ### Fields of encoded words -/

@[simp] theorem opField_busWord (op : BitVec 4) (a : Addr) (d : Byte) : opField (busWord op a d) = op := by
  unfold opField busWord; ext i hi; simp [BitVec.getElem_extractLsb']; grind
@[simp] theorem addrField_busWord (op : BitVec 4) (a : Addr) (d : Byte) :
    addrField (busWord op a d) = a := by
  unfold addrField busWord; ext i hi; simp [BitVec.getElem_extractLsb']; grind
@[simp] theorem dataField_busWord (op : BitVec 4) (a : Addr) (d : Byte) :
    dataField (busWord op a d) = d := by
  unfold dataField busWord; ext i hi; simp [BitVec.getElem_extractLsb']; grind
@[simp] theorem opField_plainWord (op : BitVec 4) : opField (plainWord op) = op := by
  unfold opField plainWord; ext i hi; simp [BitVec.getElem_extractLsb']; grind
@[simp] theorem opField_scaleWord (src : FrameSource) (w h : BitVec 13) :
    opField (scaleWord src w h) = 5#4 := by
  unfold opField scaleWord; ext i hi; simp [BitVec.getElem_extractLsb']; grind
@[simp] theorem srcField_scaleWord (src : FrameSource) (w h : BitVec 13) :
    srcField (scaleWord src w h) = src := by
  unfold srcField scaleWord; cases src <;> simp [srcBit] <;> grind
@[simp] theorem destWField_scaleWord (src : FrameSource) (w h : BitVec 13) :
    destWField (scaleWord src w h) = w := by
  unfold destWField scaleWord; ext i hi; simp [BitVec.getElem_extractLsb']; grind
@[simp] theorem destHField_scaleWord (src : FrameSource) (w h : BitVec 13) :
    destHField (scaleWord src w h) = h := by
  unfold destHField scaleWord; ext i hi; simp [BitVec.getElem_extractLsb']; grind
@[simp] theorem opField_loadWord (k : BitVec 6) : opField (loadWord k) = 7#4 := by
  unfold opField loadWord; ext i hi
  simp only [BitVec.getElem_extractLsb']
  interval_cases i <;> simp <;> grind
@[simp] theorem indexField_loadWord (k : BitVec 6) : indexField (loadWord k) = k := by
  unfold indexField loadWord; ext i hi; simp [BitVec.getElem_extractLsb']; grind

/-! ### What the decoder reads of a word, by its `OP` -/

theorem decode_rd {w : Word} (rest : List Word) (h : opField w = 0x0#4) :
    decode (w :: rest) = .ok (decodeRead (addrField w), rest) := by simp [decode, h]
theorem decode_wr {w : Word} (rest : List Word) (h : opField w = 0x1#4) :
    decode (w :: rest) = .ok (decodeWrite (addrField w) (dataField w), rest) := by simp [decode, h]
theorem decode_dma {w : Word} (rest : List Word) (h : opField w = 0x2#4) :
    decode (w :: rest) = .ok (.dma (dataField w), rest) := by simp [decode, h]
theorem decode_render32 {w : Word} (rest : List Word) (h : opField w = 0x3#4) :
    decode (w :: rest) = .ok (.render32, rest) := by simp [decode, h]
theorem decode_render16 {w : Word} (rest : List Word) (h : opField w = 0x4#4) :
    decode (w :: rest) = .ok (.render16, rest) := by simp [decode, h]
theorem decode_scale {w : Word} (rest : List Word) (h : opField w = 0x5#4) :
    decode (w :: rest) = .ok (.scale (srcField w) (destWField w) (destHField w), rest) := by
  simp [decode, h]
theorem decode_cclr {w : Word} (rest : List Word) (h : opField w = 0x6#4) :
    decode (w :: rest) = .ok (.cclr, rest) := by simp [decode, h]
theorem decode_loadRgb {w : Word} (v : Word) (rest : List Word) (h : opField w = 0x7#4) :
    decode (w :: v :: rest) = .ok (.loadRgb (indexField w) v, rest) := by simp [decode, h]
theorem decode_loadRgb_alone {w : Word} (h : opField w = 0x7#4) :
    decode [w] = .error .missingValueWord := by simp [decode, h]
theorem decode_reset {w : Word} (rest : List Word) (h : opField w = 0x8#4) :
    decode (w :: rest) = .ok (.reset, rest) := by simp [decode, h]
theorem decode_reserved9 {w : Word} (rest : List Word) (h : opField w = 0x9#4) :
    decode (w :: rest) = .ok (.reserved9, rest) := by simp [decode, h]
theorem decode_reservedA {w : Word} (rest : List Word) (h : opField w = 0xA#4) :
    decode (w :: rest) = .ok (.reservedA, rest) := by simp [decode, h]
theorem decode_reservedB {w : Word} (rest : List Word) (h : opField w = 0xB#4) :
    decode (w :: rest) = .ok (.reservedB, rest) := by simp [decode, h]
theorem decode_reservedC {w : Word} (rest : List Word) (h : opField w = 0xC#4) :
    decode (w :: rest) = .ok (.reservedC, rest) := by simp [decode, h]
theorem decode_reservedD {w : Word} (rest : List Word) (h : opField w = 0xD#4) :
    decode (w :: rest) = .ok (.reservedD, rest) := by simp [decode, h]
theorem decode_reservedE {w : Word} (rest : List Word) (h : opField w = 0xE#4) :
    decode (w :: rest) = .ok (.reservedE, rest) := by simp [decode, h]
theorem decode_reservedF {w : Word} (rest : List Word) (h : opField w = 0xF#4) :
    decode (w :: rest) = .ok (.reservedF, rest) := by simp [decode, h]

/-- The sixteen values of `OP`. -/
theorem op_cases (op : BitVec 4) :
    op = 0x0#4 ∨ op = 0x1#4 ∨ op = 0x2#4 ∨ op = 0x3#4 ∨ op = 0x4#4 ∨ op = 0x5#4 ∨ op = 0x6#4 ∨ op = 0x7#4 ∨
    op = 0x8#4 ∨ op = 0x9#4 ∨ op = 0xA#4 ∨ op = 0xB#4 ∨ op = 0xC#4 ∨ op = 0xD#4 ∨ op = 0xE#4 ∨ op = 0xF#4 := by
  revert op; decide

/-! ### Masked words -/

/-- Two words agree under a mask when their bits do. -/
theorem and_eq_iff_bits (w m b : Word) :
    w &&& m = b ↔ ∀ i < 32, (w.getLsbD i && m.getLsbD i) = b.getLsbD i := by
  constructor
  · rintro rfl i _; simp
  · intro h; apply BitVec.eq_of_getLsbD_eq; intro i hi; simpa using h i hi

/-- The command rows' mask leaves the `OP` field. -/
theorem and_opMask (w b : Word) (hb : b.extractLsb' 0 28 = 0#28) :
    w &&& 0xF0000000#32 = b ↔ opField w = opField b := by
  constructor
  · rintro rfl
    unfold opField; ext i hi
    simp only [BitVec.getElem_extractLsb', BitVec.getLsbD_and]
    interval_cases i <;> simp
  · intro h
    apply BitVec.eq_of_getLsbD_eq; intro i hi
    rw [BitVec.getLsbD_and]
    by_cases hlt : i < 28
    · have h0 := congrArg (·.getLsbD i) hb
      simp [hlt] at h0
      rw [h0]; interval_cases i <;> simp
    · have h1 := congrArg (·.getLsbD (i - 28)) h
      simp only [opField, BitVec.getLsbD_extractLsb'] at h1
      rw [show 28 + (i - 28) = i by omega, show decide (i - 28 < 4) = true by simp; omega] at h1
      simp only [Bool.true_and] at h1
      rw [h1]; interval_cases i <;> simp

/-- The sub-opcode rows' mask leaves `OP` and `ADDR & 0x3FFF` (30_encoding.md R106). -/
theorem and_portMask (w b : Word) (hb : b &&& 0xF03FFF00#32 = b) :
    w &&& 0xF03FFF00#32 = b ↔ opField w = opField b ∧ portAddr (addrField w) = portAddr (addrField b) := by
  constructor
  · rintro rfl
    constructor
    · unfold opField; ext i hi
      simp only [BitVec.getElem_extractLsb', BitVec.getLsbD_and]
      interval_cases i <;> simp
    · unfold portAddr addrField; ext i hi
      simp only [BitVec.getElem_and, BitVec.getElem_extractLsb', BitVec.getLsbD_and]
      interval_cases i <;> simp
  · rintro ⟨h1, h2⟩
    rw [← hb]
    apply BitVec.eq_of_getLsbD_eq; intro i hi
    have e1 : ∀ k < 4, w.getLsbD (28 + k) = b.getLsbD (28 + k) := by
      intro k hk
      have := congrArg (·.getLsbD k) h1
      simpa [opField, hk] using this
    have e2 : ∀ k < 14, w.getLsbD (8 + k) = b.getLsbD (8 + k) := by
      intro k hk
      have := congrArg (·.getLsbD k) h2
      simp only [portAddr, addrField, BitVec.getLsbD_and, BitVec.getLsbD_extractLsb'] at this
      interval_cases k <;> simpa using this
    rw [BitVec.getLsbD_and, BitVec.getLsbD_and]
    by_cases a : i < 8
    · interval_cases i <;> simp
    · by_cases c : i < 22
      · have := e2 (i - 8) (by omega)
        rw [show 8 + (i - 8) = i by omega] at this
        rw [this]
      · by_cases d : i < 28
        · interval_cases i <;> simp_all
        · have := e1 (i - 28) (by omega)
          rw [show 28 + (i - 28) = i by omega] at this
          rw [this]

/-- The register port's reduction is the remainder by 0x4000 (20_memory.md R60). -/
theorem portAddr_toNat (a : Addr) : (portAddr a).toNat = a.toNat % 0x4000 :=
  Nat.and_two_pow_sub_one_eq_mod a.toNat 14

end Sys2Proof
end

