-- ==== Sys2Proof/Laws/Frame.lean ====
section
/-! SUPPORT. Frames pixel by pixel: one pixel after a put, after a sprite, after a background cell, after
a whole pass. The renderer's folds are taken apart here and nowhere else. -/

namespace Sys2Proof.Machine

/-! ### Folds seen at one place -/

section Folds

variable {σ ι α : Type} {view : σ → α} {act : σ → ι → σ}

/-- Steps that leave the place alone leave it alone together. -/
theorem view_foldl_same (l : List ι) (s : σ) (h : ∀ s, ∀ i ∈ l, view (act s i) = view s) :
    view (l.foldl act s) = view s := by
  induction l generalizing s with
  | nil => rfl
  | cons i l ih =>
    rw [List.foldl_cons, ih _ fun s j hj => h s j (List.mem_cons_of_mem _ hj), h s i List.mem_cons_self]

/-- Exactly one step reaches the place. -/
theorem view_foldl_once (l : List ι) (s : σ) {i : ι} (hi : i ∈ l) (hnd : l.Nodup) (g : α → α)
    (hit : ∀ s, view (act s i) = g (view s)) (miss : ∀ s, ∀ j ∈ l, j ≠ i → view (act s j) = view s) :
    view (l.foldl act s) = g (view s) := by
  induction l generalizing s with
  | nil => simp at hi
  | cons k l ih =>
    rw [List.nodup_cons] at hnd
    rw [List.foldl_cons]
    by_cases hk : k = i
    · subst hk
      rw [view_foldl_same l _ fun s j hj => miss s j (List.mem_cons_of_mem _ hj) fun h => hnd.1 (h ▸ hj),
        hit]
    · have hil : i ∈ l := (List.mem_cons.mp hi).resolve_left (Ne.symm hk)
      rw [ih _ hil hnd.2 fun s j hj => miss s j (List.mem_cons_of_mem _ hj),
        miss s k List.mem_cons_self hk]

/-- Every step that reaches the place leaves the same value there, and one does. -/
theorem view_foldl_const (l : List ι) (s : σ) (hit : ι → Prop) [DecidablePred hit] (v : α)
    (hv : ∀ s, ∀ i ∈ l, hit i → view (act s i) = v)
    (miss : ∀ s, ∀ i ∈ l, ¬ hit i → view (act s i) = view s) (hex : ∃ i ∈ l, hit i) :
    view (l.foldl act s) = v := by
  induction l using List.reverseRecOn with
  | nil => obtain ⟨i, hi, _⟩ := hex; simp at hi
  | append_singleton l j ih =>
    rw [List.foldl_append, List.foldl_cons, List.foldl_nil]
    by_cases hj : hit j
    · exact hv _ j (by simp) hj
    · rw [miss _ j (by simp) hj]
      obtain ⟨i, hi, hh⟩ := hex
      have hil : i ∈ l := by
        rcases List.mem_append.mp hi with h | h
        · exact h
        · rw [List.mem_singleton] at h; subst h; exact absurd hh hj
      exact ih (fun s k hk => hv s k (by simp [hk])) (fun s k hk => miss s k (by simp [hk])) ⟨i, hil, hh⟩

/-- Each step puts its own value, if it has one: the last that has one wins. -/
theorem view_foldl_getD (l : List ι) (s : σ) (c : ι → Option α)
    (h : ∀ s, ∀ i ∈ l, view (act s i) = (c i).getD (view s)) :
    view (l.foldl act s) = (l.reverse.findSome? c).getD (view s) := by
  induction l generalizing s with
  | nil => rfl
  | cons i l ih =>
    rw [List.foldl_cons, ih _ fun s j hj => h s j (List.mem_cons_of_mem _ hj), h s i List.mem_cons_self,
      List.reverse_cons, List.findSome?_append]
    cases l.reverse.findSome? c <;> simp [List.findSome?]
    cases c i <;> rfl

/-- Each step puts its own value, if it has one, where the place still shows the ground: the first
value other than the ground stays. -/
theorem view_foldl_ground [DecidableEq α] (l : List ι) (s : σ) (ground : α) (c : ι → Option α)
    (h : ∀ s, ∀ i ∈ l, view (act s i) = if view s = ground then (c i).getD ground else view s) :
    view (l.foldl act s) =
      if view s = ground then (l.findSome? fun i => (c i).filter (· != ground)).getD ground else view s := by
  induction l generalizing s with
  | nil => simp only [List.foldl_nil, List.findSome?_nil, Option.getD_none]; split <;> simp_all
  | cons i l ih =>
    rw [List.foldl_cons, ih _ fun s j hj => h s j (List.mem_cons_of_mem _ hj), h s i List.mem_cons_self]
    by_cases hg : view s = ground
    · cases hc : c i with
      | none => simp [hg, hc, List.findSome?]
      | some v => by_cases hv : v = ground <;> simp [hg, hc, hv, List.findSome?, Option.filter]
    · simp [hg]

end Folds

/-! ### `Put` (45_frame_renderer.md R265) -/

@[simp] theorem framePixel_at {n : Nat} (fb : Frame n) (X : Fin 256) (Y : Fin 240) :
    framePixel fb X.val Y.val = some (fb.at X Y) := by
  have h : (0 : Int) ≤ X.val ∧ (X.val : Int) ≤ 255 ∧ (0 : Int) ≤ Y.val ∧ (Y.val : Int) ≤ 239 := by omega
  have hi : (256 * (Y.val : Int) + X.val).toNat = 256 * Y.val + X.val := by omega
  simp only [framePixel, dif_pos h, Frame.at, hi]

theorem put_at {n : Nat} (fb : Frame n) (X' Y' : Int) (v : BitVec n) (X : Fin 256) (Y : Fin 240) :
    (put fb X' Y' v).at X Y = if X' = X.val ∧ Y' = Y.val then v else fb.at X Y := by
  unfold put
  split
  · simp only [Frame.at, Vector.getElem_set]
    have hiff : ((256 * Y' + X').toNat = 256 * Y.val + X.val) ↔ (X' = X.val ∧ Y' = Y.val) := by omega
    simp only [hiff]
  · have hn : ¬ (X' = X.val ∧ Y' = Y.val) := by omega
    rw [if_neg hn]

@[simp] theorem fill_at {n : Nat} (v : BitVec n) (X : Fin 256) (Y : Fin 240) : (fill v).at X Y = v := by
  simp [Frame.at, fill]

/-- A frame is its pixels. -/
theorem Frame.ext_at {n : Nat} {a b : Frame n} (h : ∀ X Y, a.at X Y = b.at X Y) : a = b := by
  apply Vector.ext
  intro i hi
  have := h ⟨i % 256, by omega⟩ ⟨i / 256, by omega⟩
  have hi' : 256 * (i / 256) + i % 256 = i := by omega
  simpa only [Frame.at, hi'] using this

theorem blockCells_nodup : blockCells.Nodup := by decide
theorem mem_blockCells (c : Fin 8 × Fin 8) : c ∈ blockCells := by revert c; decide

/-! ### One sprite -/

/-- A sprite pixel over a frame word, the suppress test made or not (R257, R259). -/
def overlay {n : Nat} (test : Option (BitVec n)) (v : Option (BitVec n)) (old : BitVec n) : BitVec n :=
  match v, test with
  | none, _          => old
  | some v, none     => v
  | some v, some ubc => if old = ubc then v else old

/-- What a sprite's block gives the pixel. -/
def blockPixel {n : Nat} (sp : Sprite) (f : Block n) (X Y : Nat) : Option (BitVec n) :=
  if spriteCovers sp X Y && !skipped sp (spriteRow sp Y) (spriteCol sp X) then
    Block.at f (Fin.ofNat 8 (Y - (sp.y.toNat + 1))) (Fin.ofNat 8 (X - sp.x.toNat))
  else none

theorem spritePixel_at {n : Nat} (sp : Sprite) (test : Option (BitVec n)) (f : Block n) (fb : Frame n)
    (dy dx : Fin 8) (X : Fin 256) (Y : Fin 240) :
    (spritePixel sp test f fb dy dx).at X Y =
      if sp.x.toNat + dx.val = X.val ∧ sp.y.toNat + 1 + dy.val = Y.val then
        overlay test (if skipped sp (mirrorIf (attrFlipY sp.attr) dy) (mirrorIf (attrFlipX sp.attr) dx)
          then none else Block.at f dy dx) (fb.at X Y)
      else fb.at X Y := by
  unfold spritePixel
  by_cases hP : sp.x.toNat + dx.val = X.val ∧ sp.y.toNat + 1 + dy.val = Y.val
  · have hX : ((sp.x.toNat : Int) + (dx.val : Int)) = (X.val : Int) := by omega
    have hY : ((sp.y.toNat : Int) + 1 + (dy.val : Int)) = (Y.val : Int) := by omega
    rw [if_pos hP, hX, hY]
    cases Block.at f dy dx with
    | none => simp [overlay]
    | some v =>
      dsimp only
      split
      · simp [overlay]
      · cases test with
        | none => simp [suppressed, put_at, overlay]
        | some ubc =>
          simp only [suppressed, framePixel_at, overlay]
          by_cases h : fb.at X Y = ubc
          · simp [h, put_at]
          · simp [h]
  · rw [if_neg hP]
    cases Block.at f dy dx with
    | none => rfl
    | some v =>
      dsimp only
      split
      · rfl
      · split
        · rfl
        · rw [put_at, if_neg (by omega)]

theorem ofNat8_val {k : Nat} (h : k < 8) : (Fin.ofNat 8 k).val = k := Nat.mod_eq_of_lt h

/-- One pixel after a sprite has been drawn. -/
theorem blitSprite_at {n : Nat} (sp : Sprite) (test : Option (BitVec n)) (f : Block n) (fb : Frame n)
    (X : Fin 256) (Y : Fin 240) :
    (blitSprite sp test f fb).at X Y = overlay test (blockPixel sp f X.val Y.val) (fb.at X Y) := by
  unfold blitSprite blockPixel
  by_cases hc : spriteCovers sp X.val Y.val = true
  · have hc' := hc
    simp only [spriteCovers, Bool.and_eq_true, decide_eq_true_eq] at hc'
    have hdx := ofNat8_val (k := X.val - sp.x.toNat) (by omega)
    have hdy := ofNat8_val (k := Y.val - (sp.y.toNat + 1)) (by omega)
    rw [view_foldl_once (view := fun fb : Frame n => fb.at X Y) blockCells fb
      (mem_blockCells (Fin.ofNat 8 (Y.val - (sp.y.toNat + 1)), Fin.ofNat 8 (X.val - sp.x.toNat)))
      blockCells_nodup
      (overlay test (if skipped sp (spriteRow sp Y.val) (spriteCol sp X.val) then none
        else Block.at f (Fin.ofNat 8 (Y.val - (sp.y.toNat + 1))) (Fin.ofNat 8 (X.val - sp.x.toNat))))]
    · congr 1
      cases skipped sp (spriteRow sp Y.val) (spriteCol sp X.val) <;> simp [hc]
    · intro fb
      rw [spritePixel_at, if_pos]
      · rfl
      · simp only [hdx, hdy]; omega
    · intro fb c _ hne
      rw [spritePixel_at, if_neg]
      rintro ⟨h1, h2⟩
      apply hne
      ext
      · simp only [hdy]; omega
      · simp only [hdx]; omega
  · rw [view_foldl_same (view := fun fb : Frame n => fb.at X Y)]
    · simp [hc, overlay]
    · intro fb c _
      rw [spritePixel_at, if_neg]
      rintro ⟨h1, h2⟩
      apply hc
      simp only [spriteCovers, Bool.and_eq_true, decide_eq_true_eq]
      omega

theorem spriteTile_lt (s : State) (sp : Sprite) : spriteTile s sp < 512 := by
  have h1 := sp.tile.isLt
  have h2 := Bool.toNat_lt (ctrlSpt s.ctrl)
  unfold spriteTile tileNumber; omega

theorem bgTile_lt (s : State) (c : BgCell) : bgTile s c < 512 := by
  have h1 := (vRead s (BitVec.ofNat 16 (c.base + 32 * c.ty + c.tx))).isLt
  have h2 := Bool.toNat_lt (ctrlBpt s.ctrl)
  unfold bgTile tileNumber; omega

/-- The sprite's block gives the pixel the colour of the sprite's byte there. -/
theorem blockPixel_block32 (s : State) (sp : Sprite) (X Y : Nat) :
    blockPixel sp (block32 s (spriteTile s sp) (.sprite (attrSpal sp.attr)) 0#4 (attrFlipX sp.attr)
      (attrFlipY sp.attr)) X Y = (spriteByte s sp X Y).map (colour32 s.rgb) := by
  unfold blockPixel spriteByte
  rw [Block.at_block32]
  split <;> rfl

theorem blockPixel_block16 (s : State) (sp : Sprite) (X Y : Nat) :
    blockPixel sp (block16 s (spriteTile s sp) (.sprite (attrSpal sp.attr)) 0#4 (attrFlipX sp.attr)
      (attrFlipY sp.attr)) X Y = (spriteByte s sp X Y).map (colour16 s.rgb) := by
  unfold blockPixel spriteByte
  rw [Block.at_block16]
  split <;> rfl

/-! ### One background cell -/

/-- The cell's 8 by 8 square holds the pixel. -/
abbrev cellCovers (c : BgCell) (X Y : Nat) : Prop :=
  c.x0 ≤ X ∧ (X : Int) < c.x0 + 8 ∧ c.y0 ≤ Y ∧ (Y : Int) < c.y0 + 8

theorem tilePixel_at {n : Nat} (x0 y0 : Int) (b : Block n) (fb : Frame n) (row px : Fin 8) (X : Fin 256)
    (Y : Fin 240) :
    (tilePixel x0 y0 b fb row px).at X Y =
      if x0 + px.val = X.val ∧ y0 + row.val = Y.val then (Block.at b row px).getD (fb.at X Y)
      else fb.at X Y := by
  unfold tilePixel
  cases Block.at b row px with
  | none => simp
  | some v => dsimp only; rw [put_at]; rfl

/-- One pixel after a background cell has been drawn. -/
theorem blitTile_at {n : Nat} (x0 y0 : Int) (b : Block n) (fb : Frame n) (X : Fin 256) (Y : Fin 240) :
    (blitTile x0 y0 b fb).at X Y =
      if x0 ≤ X.val ∧ (X.val : Int) < x0 + 8 ∧ y0 ≤ Y.val ∧ (Y.val : Int) < y0 + 8 then
        (Block.at b (Fin.ofNat 8 (Y.val - y0).toNat) (Fin.ofNat 8 (X.val - x0).toNat)).getD (fb.at X Y)
      else fb.at X Y := by
  unfold blitTile
  split
  · rename_i hc
    have hdx := ofNat8_val (k := (X.val - x0).toNat) (by omega)
    have hdy := ofNat8_val (k := (Y.val - y0).toNat) (by omega)
    rw [view_foldl_once (view := fun fb : Frame n => fb.at X Y) blockCells fb
      (mem_blockCells (Fin.ofNat 8 (Y.val - y0).toNat, Fin.ofNat 8 (X.val - x0).toNat)) blockCells_nodup
      (fun old => (Block.at b (Fin.ofNat 8 (Y.val - y0).toNat) (Fin.ofNat 8 (X.val - x0).toNat)).getD old)]
    · intro fb
      rw [tilePixel_at, if_pos]
      simp only [hdx, hdy]; omega
    · intro fb c _ hne
      rw [tilePixel_at, if_neg]
      rintro ⟨h1, h2⟩
      apply hne
      ext
      · simp only [hdy]; omega
      · simp only [hdx]; omega
  · rename_i hc
    rw [view_foldl_same (view := fun fb : Frame n => fb.at X Y)]
    intro fb c _
    rw [tilePixel_at, if_neg (by omega)]

/-! ### The background pass covers the frame, each pixel by one cell (R261, R262) -/

theorem effectiveScroll_lt (ctrl scrollX : Byte) : effectiveScroll ctrl scrollX < 512 := by
  have h1 := scrollX.isLt
  have h2 := Bool.toNat_lt (ctrlNtx ctrl)
  unfold effectiveScroll; omega

/-- The only cell of the background pass that covers a pixel is the one that shows there. -/
theorem eq_cellAt_of_covers (s : State) {c : BgCell} (hc : c ∈ backgroundCells s) (X : Fin 256) (Y : Fin 240)
    (h : cellCovers c X.val Y.val) : c = cellAt s X.val Y.val := by
  unfold cellCovers at h
  rcases List.mem_append.mp hc with hm | hm
  · simp only [statusCells, statusRows, bgCols, List.mem_flatMap, List.mem_map, List.mem_range] at hm
    obtain ⟨ty, hty, tx, htx, rfl⟩ := hm
    dsimp only at h
    have e1 : X.val / 8 = tx := by omega
    have e2 : Y.val / 8 = ty := by omega
    have hY : Y.val < 32 := by omega
    simp only [cellAt, if_pos hY, e1, e2]
  · simp only [scrolledCells, columnCells, statusRows, bgRows, List.mem_flatMap, List.mem_map, List.mem_range'_1] at hm
    obtain ⟨col, hcol, ty, hty, rfl⟩ := hm
    dsimp only at h
    have e1 : (X.val + effectiveScroll s.ctrl s.scrollX) / 8 = col := by omega
    have e2 : Y.val / 8 = ty := by omega
    have hY : ¬ Y.val < 32 := by omega
    simp only [cellAt, if_neg hY, e1, e2]

theorem cellAt_mem (s : State) (X : Fin 256) (Y : Fin 240) : cellAt s X.val Y.val ∈ backgroundCells s := by
  have hs := effectiveScroll_lt s.ctrl s.scrollX
  unfold cellAt backgroundCells
  dsimp only
  split
  · apply List.mem_append_left
    simp only [statusCells, statusRows, bgCols, List.mem_flatMap, List.mem_map, List.mem_range]
    exact ⟨Y.val / 8, by omega, X.val / 8, by omega, rfl⟩
  · apply List.mem_append_right
    simp only [scrolledCells, columnCells, statusRows, bgRows, List.mem_flatMap, List.mem_map, List.mem_range'_1]
    exact ⟨(X.val + effectiveScroll s.ctrl s.scrollX) / 8, by omega, Y.val / 8, by omega, rfl⟩

theorem cellAt_covers (s : State) (X : Fin 256) (Y : Fin 240) :
    cellCovers (cellAt s X.val Y.val) X.val Y.val := by
  unfold cellCovers cellAt
  dsimp only
  split <;> dsimp only <;> omega

theorem cellAt_row (s : State) (X : Fin 256) (Y : Fin 240) :
    Fin.ofNat 8 ((Y.val : Int) - (cellAt s X.val Y.val).y0).toNat = Fin.ofNat 8 Y.val := by
  ext
  unfold cellAt
  simp only [Fin.ofNat]
  split <;> dsimp only <;> omega

theorem cellAt_col (s : State) (X : Fin 256) (Y : Fin 240) :
    Fin.ofNat 8 ((X.val : Int) - (cellAt s X.val Y.val).x0).toNat = pixelColAt s X.val Y.val := by
  ext
  unfold cellAt pixelColAt
  simp only [Fin.ofNat]
  split <;> dsimp only <;> omega

theorem palByte_background_getD (pal : Memory) (attr : BitVec 4) (idx : BitVec 2) :
    palByte pal .background attr idx = some ((palByte pal .background attr idx).getD 0#8) := by
  obtain ⟨b, hb⟩ := Option.isSome_iff_exists.mp (palByte_background_isSome pal attr idx)
  rw [hb]; rfl

/-- One pixel after the background pass: the background's own, whatever stood there (R264, R267). -/
theorem backgroundPass_at {n : Nat} (s : State) (colour : Byte → BitVec n) (block : BgCell → Block n)
    (hb : ∀ c r p, Block.at (block c) r p =
      (palByte s.pal .background (bgAttr s c) (pixelIndex s.cfg.chr (bgTile s c) r p)).map colour)
    (fb : Frame n) (X : Fin 256) (Y : Fin 240) :
    (backgroundPass s (fun c fb => blitTile c.x0 c.y0 (block c) fb) fb).at X Y =
      colour (backgroundByte s X.val Y.val) := by
  unfold backgroundPass
  apply view_foldl_const (view := fun fb : Frame n => fb.at X Y) (backgroundCells s) fb
    (fun c => cellCovers c X.val Y.val)
  · intro fb c hc hcov
    rw [blitTile_at, if_pos hcov]
    have he := eq_cellAt_of_covers s hc X Y hcov
    subst he
    rw [cellAt_row, cellAt_col, hb, palByte_background_getD]
    rfl
  · intro fb c _ hcov
    rw [blitTile_at, if_neg hcov]
  · exact ⟨_, cellAt_mem s X Y, cellAt_covers s X Y⟩

/-! ### The passes in priority order -/

theorem behindOrder_reverse : behindOrder.reverse = behindPriority := List.reverse_reverse _
theorem frontOrder_reverse : frontOrder.reverse = frontPriority := by decide

/-- One pixel after the behind pass with no suppress test: the lowest-numbered sprite wins (R254). -/
theorem behindPass_at {n : Nat} (s : State) (colour : Byte → BitVec n) (draw : Sprite → Frame n → Frame n)
    (X : Fin 256) (Y : Fin 240)
    (hd : ∀ sp fb, (draw sp fb).at X Y = ((spriteByte s sp X.val Y.val).map colour).getD (fb.at X Y))
    (fb : Frame n) :
    (behindPass s draw fb).at X Y =
      ((behindPriority.findSome? (behindByte s X.val Y.val)).map colour).getD (fb.at X Y) := by
  unfold behindPass
  rw [view_foldl_getD (view := fun fb : Frame n => fb.at X Y) behindOrder fb
    (fun i => (behindByte s X.val Y.val i).map colour), behindOrder_reverse, List.map_findSome?]
  · rfl
  · intro fb i _
    unfold behindByte
    split
    · exact hd _ _
    · rfl

/-- One pixel after the front pass with no suppress test: sprites 1 to 63 in order, then sprite 0 (R266). -/
theorem frontPass_at {n : Nat} (s : State) (colour : Byte → BitVec n) (draw : Sprite → Frame n → Frame n)
    (X : Fin 256) (Y : Fin 240)
    (hd : ∀ sp fb, (draw sp fb).at X Y = ((spriteByte s sp X.val Y.val).map colour).getD (fb.at X Y))
    (fb : Frame n) :
    (frontPass s draw fb).at X Y =
      ((frontPriority.findSome? (frontByte s X.val Y.val)).map colour).getD (fb.at X Y) := by
  unfold frontPass
  rw [view_foldl_getD (view := fun fb : Frame n => fb.at X Y) frontOrder fb
    (fun i => (frontByte s X.val Y.val i).map colour), frontOrder_reverse, List.map_findSome?]
  · rfl
  · intro fb i _
    unfold frontByte
    split
    · exact hd _ _
    · rfl

end Sys2Proof.Machine
end

