-- ==== Sys2Proof/Laws/TileCache.lean ====
section
/-! SUPPORT. The cache: what each request answers and what it leaves, with caches that hold only what the
current memories give, and with caches that hold blocks of older pattern content. -/

namespace Sys2Proof.Machine

theorem cachesGood_empty (s : State) : cachesGood s Caches.empty := by
  refine ⟨fun k h e he => ?_, List.Pairwise.nil, fun p hp => nomatch hp⟩
  simp [Caches.empty] at he

/-- What the caches hold depends on `CHR`, `PAL` and `RGB` alone. -/
theorem cachesGood_congr {s t : State} (hc : t.cfg = s.cfg) (hp : t.pal = s.pal) (hr : t.rgb = s.rgb)
    {c : Caches} (h : cachesGood s c) : cachesGood t c := by
  refine ⟨fun k hk e he => ?_, h.2.1, fun p hpm => ?_⟩
  · obtain ⟨h1, pt, h2, h3⟩ := h.1 k hk e he
    exact ⟨h1, pt, h2, by rw [h3, block16_congr hc hp hr]⟩
  · obtain ⟨tile, ptype, pt, attr, fx, fy, h1, h2, h3, h4⟩ := h.2.2 p hpm
    exact ⟨tile, ptype, pt, attr, fx, fy, h1, h2, h3, by rw [h4, block16_congr hc hp hr]⟩

theorem cachesTagged_congr {s t : State} (hc : ∀ chr, (t.onChr chr).cfg = (s.onChr chr).cfg)
    (hp : t.pal = s.pal) (hr : t.rgb = s.rgb) {c : Caches} (h : cachesTagged s c) : cachesTagged t c := by
  refine ⟨fun k hk e he => ?_, h.2.1, fun p hpm => ?_⟩
  · obtain ⟨chr, h1, pt, h2, h3⟩ := h.1 k hk e he
    exact ⟨chr, h1, pt, h2, by rw [h3, block16_congr (s := s.onChr chr) (hc chr) hp hr]⟩
  · obtain ⟨chr, tile, ptype, pt, attr, fx, fy, h1, h2, h3, h4⟩ := h.2.2 p hpm
    exact ⟨chr, tile, ptype, pt, attr, fx, fy, h1, h2, h3,
      by rw [h4, block16_congr (s := s.onChr chr) (hc chr) hp hr]⟩

/-- Blocks of the current memories are blocks of some pattern content: that of now. -/
theorem cachesGood.tagged {s : State} {c : Caches} (h : cachesGood s c) : cachesTagged s c :=
  ⟨fun k hk e he => ⟨s.cfg.chr, h.1 k hk e he⟩, h.2.1, fun p hp => ⟨s.cfg.chr, h.2.2 p hp⟩⟩

theorem cachesTagged_empty (s : State) : cachesTagged s Caches.empty := (cachesGood_empty s).tagged

/-! ### `GetBase` (44_tile_cache.md R222) -/

/-- A request out of range is answered with nothing and leaves the caches alone (R230). -/
theorem getBase_none (s : State) {tile ptype : Nat} (attr : BitVec 4) (c : Caches)
    (h : 512 ≤ tile ∨ 5 ≤ ptype) : getBase s tile ptype attr c = (none, c) := by
  cases hp : paletteTypeOf ptype with
  | none => simp only [getBase, hp]
  | some pt =>
    have := paletteTypeOf_lt hp
    have hr : ¬ (tile < 512 ∧ 8 * tile + ptype < 4096) := by omega
    simp only [getBase, hp, dif_neg hr]

/-- A hit answers with the stored pixels and leaves the caches alone. -/
theorem getBase_hit (s : State) {tile ptype : Nat} {attr : BitVec 4} {c : Caches} {e : BaseEntry}
    (ht : tile < 512) (hp : ptype < 5) (he : c.bc[8 * tile + ptype]'(by omega) = some e)
    (hhit : cacheHit e tile ptype attr = true) : getBase s tile ptype attr c = (some e.px, c) := by
  obtain ⟨pt, hpt⟩ := paletteTypeOf_some hp
  have hr : tile < 512 ∧ 8 * tile + ptype < 4096 := ⟨ht, by omega⟩
  simp only [getBase, hpt, dif_pos hr, he, hhit, if_true]

/-- A miss computes, tags and stores the block. -/
theorem getBase_miss (s : State) {tile ptype : Nat} {attr : BitVec 4} {c : Caches} {pt : PaletteType}
    (ht : tile < 512) (hpt : paletteTypeOf ptype = some pt)
    (hmiss : ∀ e, c.bc[8 * tile + ptype]'(by have := paletteTypeOf_lt hpt; omega) = some e →
      cacheHit e tile ptype attr = false) :
    getBase s tile ptype attr c =
      (some (block16 s tile pt attr false false),
        ⟨c.bc.set (8 * tile + ptype)
            (some ⟨BitVec.ofNat 9 tile, BitVec.ofNat 3 ptype, attr, block16 s tile pt attr false false⟩)
            (by have := paletteTypeOf_lt hpt; omega), c.fc⟩) := by
  have hr : tile < 512 ∧ 8 * tile + ptype < 4096 := ⟨ht, by have := paletteTypeOf_lt hpt; omega⟩
  simp only [getBase, hpt, dif_pos hr]
  split
  · rename_i e he
    rw [hmiss e he]; rfl
  · rfl

/-- A request in range is answered with the block of the current memories; the flip cache is not
touched, and the base cache only at the request's own index. -/
theorem getBase_good {s : State} {tile ptype : Nat} {attr : BitVec 4} {c : Caches} {pt : PaletteType}
    (hc : cachesGood s c) (ht : tile < 512) (hpt : paletteTypeOf ptype = some pt) :
    ∃ c', getBase s tile ptype attr c = (some (block16 s tile pt attr false false), c') ∧
      cachesGood s c' ∧ c'.fc = c.fc ∧
      ∀ (k : Nat) (hk : k < 4096), k ≠ 8 * tile + ptype → c'.bc[k] = c.bc[k] := by
  have hlt := paletteTypeOf_lt hpt
  by_cases hhit : ∃ e, c.bc[8 * tile + ptype]'(by omega) = some e ∧ cacheHit e tile ptype attr = true
  · obtain ⟨e, he, hh⟩ := hhit
    refine ⟨c, ?_, hc, rfl, fun _ _ _ => rfl⟩
    rw [getBase_hit s ht hlt he hh]
    obtain ⟨_, pt', hpt', hpx⟩ := hc.1 _ _ e he
    simp only [cacheHit, Bool.and_eq_true, beq_iff_eq] at hh
    obtain ⟨⟨h1, h2⟩, h3⟩ := hh
    rw [h2, hpt] at hpt'
    cases hpt'
    rw [hpx, h1, h3]
  · have hm := getBase_miss (attr := attr) s ht hpt (c := c) fun e he => by
      by_contra hcon
      exact hhit ⟨e, he, by simpa using hcon⟩
    refine ⟨_, hm, ⟨fun k hk e he => ?_, hc.2⟩, rfl, fun k hk hne => ?_⟩
    · rw [Vector.getElem_set] at he
      split at he
      · rename_i hkk
        cases he
        have e1 : (BitVec.ofNat 9 tile).toNat = tile := by simp; omega
        have e2 : (BitVec.ofNat 3 ptype).toNat = ptype := by simp; omega
        exact ⟨by simp only [e1, e2]; omega, pt, by simp only [e2]; exact hpt, by simp only [e1]⟩
      · exact hc.1 k hk e he
    · rw [Vector.getElem_set_ne _ _ (Ne.symm hne)]

/-- Every request in range is a hit, answered with the stored pixels, or a miss, answered with the block of
the memories as they are and stored. -/
theorem getBase_cases (s : State) {tile ptype : Nat} (attr : BitVec 4) (c : Caches) {pt : PaletteType}
    (ht : tile < 512) (hpt : paletteTypeOf ptype = some pt) :
    (∃ e, c.bc[8 * tile + ptype]'(by have := paletteTypeOf_lt hpt; omega) = some e ∧ e.tile.toNat = tile ∧
        e.ptype.toNat = ptype ∧ e.attr = attr ∧ getBase s tile ptype attr c = (some e.px, c)) ∨
    (¬ baseHit c tile ptype attr ∧ getBase s tile ptype attr c =
      (some (block16 s tile pt attr false false),
        ⟨c.bc.set (8 * tile + ptype)
            (some ⟨BitVec.ofNat 9 tile, BitVec.ofNat 3 ptype, attr, block16 s tile pt attr false false⟩)
            (by have := paletteTypeOf_lt hpt; omega), c.fc⟩)) := by
  have hlt := paletteTypeOf_lt hpt
  have hk : 8 * tile + ptype < 4096 := by omega
  by_cases h : baseHit c tile ptype attr
  · obtain ⟨e, he, h1, h2, h3⟩ := h
    rw [Vector.getElem?_eq_getElem hk] at he
    have he' := Option.some.inj he
    exact .inl ⟨e, he', h1, h2, h3, getBase_hit s ht hlt he' (by simp [cacheHit, h1, h2, h3])⟩
  · refine .inr ⟨h, getBase_miss s ht hpt fun e he => ?_⟩
    by_contra hc
    simp only [cacheHit, Bool.not_eq_false, Bool.and_eq_true, beq_iff_eq] at hc
    exact h ⟨e, by rw [Vector.getElem?_eq_getElem hk, he], hc.1.1, hc.1.2, hc.2⟩

/-- A request is answered with the block of some pattern content, and the caches stay so. -/
theorem getBase_tagged {s : State} {tile ptype : Nat} {attr : BitVec 4} {c : Caches} {pt : PaletteType}
    (hc : cachesTagged s c) (ht : tile < 512) (hpt : paletteTypeOf ptype = some pt) :
    ∃ chr c', getBase s tile ptype attr c = (some (block16 (s.onChr chr) tile pt attr false false), c') ∧
      cachesTagged s c' := by
  rcases getBase_cases s attr c ht hpt with ⟨e, he, h1, h2, h3, hg⟩ | ⟨_, hg⟩
  · obtain ⟨chr, _, pt', hpt', hpx⟩ := hc.1 _ _ e he
    rw [h2, hpt] at hpt'
    cases hpt'
    exact ⟨chr, c, by rw [hg, hpx, h1, h3], hc⟩
  · refine ⟨s.cfg.chr, _, hg, fun k hk e he => ?_, hc.2⟩
    rw [Vector.getElem_set] at he
    split at he
    · rename_i hkk
      cases he
      have hlt := paletteTypeOf_lt hpt
      have e1 : (BitVec.ofNat 9 tile).toNat = tile := by simp; omega
      have e2 : (BitVec.ofNat 3 ptype).toNat = ptype := by simp; omega
      exact ⟨s.cfg.chr, by simp only [e1, e2]; omega, pt, by simp only [e2]; exact hpt, by simp only [e1]; rfl⟩
    · exact hc.1 k hk e he

/-- Valid base-cache entries stay valid, whatever the caches hold: no request evicts (R228). -/
theorem getBase_keeps_valid (s : State) (tile ptype : Nat) (attr : BitVec 4) (c : Caches) (k : Nat)
    (hk : k < 4096) (h : (c.bc[k]).isSome = true) : ((getBase s tile ptype attr c).2.bc[k]).isSome = true := by
  by_cases hr : 512 ≤ tile ∨ 5 ≤ ptype
  · rw [getBase_none s attr c hr]; exact h
  · obtain ⟨pt, hpt⟩ := paletteTypeOf_some (n := ptype) (by omega)
    by_cases hhit : ∃ e, c.bc[8 * tile + ptype]'(by omega) = some e ∧ cacheHit e tile ptype attr = true
    · obtain ⟨e, he, hh⟩ := hhit
      rw [getBase_hit s (by omega) (by omega) he hh]; exact h
    · rw [getBase_miss (attr := attr) s (by omega) hpt (c := c) fun e he => by
        by_contra hcon; exact hhit ⟨e, he, by simpa using hcon⟩]
      simp only [Vector.getElem_set]
      split
      · rfl
      · exact h

/-! ### `GetFlipped` (44_tile_cache.md R224) -/

/-- The key's fields do not overlap: equal keys, equal requests (30_encoding.md R118). -/
theorem flipKey_injective {tile ptype tile' ptype' : Nat} {attr attr' : BitVec 4} {fx fy fx' fy' : Bool}
    (hp : ptype < 8) (hp' : ptype' < 8)
    (h : flipKey tile ptype attr fx fy = flipKey tile' ptype' attr' fx' fy') :
    tile = tile' ∧ ptype = ptype' ∧ attr = attr' ∧ fx = fx' ∧ fy = fy' := by
  have ha := attr.isLt
  have ha' := attr'.isLt
  have b : ∀ x : Bool, x.toNat < 2 := Bool.toNat_lt
  have h1 := b fx; have h2 := b fy; have h3 := b fx'; have h4 := b fy'
  unfold flipKey at h
  refine ⟨by omega, by omega, BitVec.eq_of_toNat_eq (by omega), ?_, ?_⟩
  · have : fx.toNat = fx'.toNat := by omega
    revert this; cases fx <;> cases fx' <;> simp
  · have : fy.toNat = fy'.toNat := by omega
    revert this; cases fy <;> cases fy' <;> simp

/-- A request in range is answered with the flipped block of the current memories. -/
theorem getFlipped_good {s : State} {tile ptype : Nat} {attr : BitVec 4} {fx fy : Bool} {c : Caches}
    {pt : PaletteType} (hc : cachesGood s c) (ht : tile < 512) (hpt : paletteTypeOf ptype = some pt) :
    ∃ c', getFlipped s tile ptype attr fx fy c = (some (block16 s tile pt attr fx fy), c') ∧
      cachesGood s c' := by
  unfold getFlipped
  cases hl : lookupKey c.fc (flipKey tile ptype attr fx fy) with
  | some b =>
    refine ⟨c, ?_, hc⟩
    obtain ⟨tile', ptype', pt', attr', fx', fy', h1, h2, h3, h4⟩ := hc.2.2 _ (lookupKey_mem hl)
    obtain ⟨rfl, rfl, rfl, rfl, rfl⟩ :=
      flipKey_injective (by have := paletteTypeOf_lt hpt; omega) (by have := paletteTypeOf_lt h2; omega) h3
    rw [hpt] at h2; cases h2
    simp only at h4
    rw [h4]
  | none =>
    obtain ⟨c', h1, h2, h3, _⟩ := getBase_good (attr := attr) hc ht hpt
    refine ⟨⟨c'.bc, insertKey c'.fc (flipKey tile ptype attr fx fy) (block16 s tile pt attr fx fy)⟩,
      ?_, h2.1, insertKey_ascending _ _ h2.2.1, fun p hp => ?_⟩
    · simp only [h1, flipBlock_block16]
    · rcases mem_insertKey hp with rfl | hp
      · exact ⟨tile, ptype, pt, attr, fx, fy, ht, hpt, rfl, rfl⟩
      · exact h2.2.2 p hp

/-- A flip request is answered with the block of some pattern content, and the caches stay so. -/
theorem getFlipped_tagged {s : State} {tile ptype : Nat} {attr : BitVec 4} {fx fy : Bool} {c : Caches}
    {pt : PaletteType} (hc : cachesTagged s c) (ht : tile < 512) (hpt : paletteTypeOf ptype = some pt) :
    ∃ chr c', getFlipped s tile ptype attr fx fy c = (some (block16 (s.onChr chr) tile pt attr fx fy), c') ∧
      cachesTagged s c' := by
  unfold getFlipped
  cases hl : lookupKey c.fc (flipKey tile ptype attr fx fy) with
  | some b =>
    obtain ⟨chr, tile', ptype', pt', attr', fx', fy', h1, h2, h3, h4⟩ := hc.2.2 _ (lookupKey_mem hl)
    obtain ⟨rfl, rfl, rfl, rfl, rfl⟩ :=
      flipKey_injective (by have := paletteTypeOf_lt hpt; omega) (by have := paletteTypeOf_lt h2; omega) h3
    rw [hpt] at h2; cases h2
    exact ⟨chr, c, by simp only at h4; rw [h4], hc⟩
  | none =>
    obtain ⟨chr, c', h1, h2⟩ := getBase_tagged (attr := attr) hc ht hpt
    refine ⟨chr, ⟨c'.bc, insertKey c'.fc (flipKey tile ptype attr fx fy) (block16 (s.onChr chr) tile pt attr fx fy)⟩,
      ?_, h2.1, insertKey_ascending _ _ h2.2.1, fun p hp => ?_⟩
    · simp only [h1, flipBlock_block16]
    · rcases mem_insertKey hp with rfl | hp
      · exact ⟨chr, tile, ptype, pt, attr, fx, fy, ht, hpt, rfl, rfl⟩
      · exact h2.2.2 p hp

theorem getFlipped_none (s : State) {tile ptype : Nat} (attr : BitVec 4) (fx fy : Bool) (c : Caches)
    (h : 512 ≤ tile ∨ 5 ≤ ptype) (hl : lookupKey c.fc (flipKey tile ptype attr fx fy) = none) :
    getFlipped s tile ptype attr fx fy c = (none, c) := by
  simp only [getFlipped, hl, getBase_none s attr c h]

end Sys2Proof.Machine
end

