-- ==== Sys2Proof/Laws/Renderer.lean ====
section
/-! SUPPORT. Whole renders: the true-colour frame pixel by pixel, and the compact path with the caches
taken away. -/

namespace Sys2Proof.Machine

/-! ### The passes keep what their draws keep -/

theorem foldl_rel {σ τ ι : Type} (R : σ → τ → Prop) (l : List ι) (f : σ → ι → σ) (g : τ → ι → τ)
    (h : ∀ c d, ∀ i, R c d → R (f c i) (g d i)) {c : σ} {d : τ} (hR : R c d) :
    R (l.foldl f c) (l.foldl g d) := by
  induction l generalizing c d with
  | nil => exact hR
  | cons i l ih => exact ih (h c d i hR)

/-- Two renders whose draws keep a relation end in it. -/
theorem renderPasses_rel {σ τ : Type} (R : σ → τ → Prop) (s : State) {sp : Sprite → σ → σ}
    {sp' : Sprite → τ → τ} {cell : BgCell → σ → σ} {cell' : BgCell → τ → τ}
    (hs : ∀ x c d, R c d → R (sp x c) (sp' x d)) (hc : ∀ x c d, R c d → R (cell x c) (cell' x d))
    {c : σ} {d : τ} (h : R c d) : R (renderPasses s sp cell c) (renderPasses s sp' cell' d) := by
  have hb : ∀ {c d}, R c d → R (behindPass s sp c) (behindPass s sp' d) := fun h => by
    unfold behindPass
    refine foldl_rel R _ _ _ (fun c d i hcd => ?_) h
    split
    · exact hs _ _ _ hcd
    · exact hcd
  have hf : ∀ {c d}, R c d → R (frontPass s sp c) (frontPass s sp' d) := fun h => by
    unfold frontPass
    refine foldl_rel R _ _ _ (fun c d i hcd => ?_) h
    split
    · exact hs _ _ _ hcd
    · exact hcd
  have hg : ∀ {c d}, R c d → R (backgroundPass s cell c) (backgroundPass s cell' d) := fun h => by
    unfold backgroundPass
    exact foldl_rel R _ _ _ (fun c d i hcd => hc i c d hcd) h
  unfold renderPasses
  cases maskSpen s.mask <;> cases maskBgen s.mask <;> simp only [if_true, if_false, Bool.false_eq_true]
  · exact h
  · exact hg h
  · exact hf (hb h)
  · exact hf (hg (hb h))

/-! ### The true-colour path -/

theorem drawSprite32_at (s : State) (sp : Sprite) (fb : Frame 32) (X : Fin 256) (Y : Fin 240) :
    (drawSprite32 s sp fb).at X Y =
      ((spriteByte s sp X.val Y.val).map (colour32 s.rgb)).getD (fb.at X Y) := by
  unfold drawSprite32
  rw [blitSprite_at, blockPixel_block32]
  cases spriteByte s sp X.val Y.val <;> rfl

theorem backgroundPass32_at (s : State) (fb : Frame 32) (X : Fin 256) (Y : Fin 240) :
    (backgroundPass s (drawCell32 s) fb).at X Y = colour32 s.rgb (backgroundByte s X.val Y.val) :=
  backgroundPass_at s (colour32 s.rgb) (fun c => block32 s (bgTile s c) .background (bgAttr s c) false false)
    (fun c r p => by rw [Block.at_block32]; rfl) fb X Y

/-! ### The compact path without its caches -/

/-- `DrawSprite` of the compact path with the block computed afresh. -/
def plainSprite16 (s : State) (sp : Sprite) (fb : Frame 16) : Frame 16 :=
  blitSprite sp (spriteTest s sp)
    (block16 s (spriteTile s sp) (.sprite (attrSpal sp.attr)) 0#4 (attrFlipX sp.attr) (attrFlipY sp.attr)) fb

/-- `DrawBgTile` of the compact path with the block computed afresh. -/
def plainCell16 (s : State) (c : BgCell) (fb : Frame 16) : Frame 16 :=
  blitTile c.x0 c.y0 (block16 s (bgTile s c) .background (bgAttr s c) false false) fb

/-- The compact frame with every block computed afresh. -/
def plainFrame16 (s : State) : Frame 16 :=
  renderPasses s (plainSprite16 s) (plainCell16 s) (fill (ubc16 s))

theorem paletteTypeOf_spritePtype (sp : Sprite) :
    paletteTypeOf (spritePtype sp) = some (.sprite (attrSpal sp.attr)) :=
  paletteTypeOf_ptypeNumber (.sprite (attrSpal sp.attr))

/-- With good caches a sprite is drawn as with no cache, and the caches stay good. -/
theorem drawSprite16_good {s : State} (sp : Sprite) {c : Canvas16} (h : cachesGood s c.caches) :
    (drawSprite16 s sp c).fb = plainSprite16 s sp c.fb ∧ cachesGood s (drawSprite16 s sp c).caches := by
  unfold drawSprite16 spriteBlock16 plainSprite16
  split_ifs with hf
  · obtain ⟨c', h1, h2⟩ := getFlipped_good (attr := 0#4) (fx := attrFlipX sp.attr) (fy := attrFlipY sp.attr)
      h (spriteTile_lt s sp) (paletteTypeOf_spritePtype sp)
    simp only [h1]; exact ⟨trivial, h2⟩
  · obtain ⟨c', h1, h2, _⟩ := getBase_good (attr := 0#4) h (spriteTile_lt s sp) (paletteTypeOf_spritePtype sp)
    simp only [Bool.or_eq_true, not_or, Bool.not_eq_true] at hf
    simp only [h1, hf.1, hf.2]; exact ⟨trivial, h2⟩

theorem drawCell16_good {s : State} (cell : BgCell) {c : Canvas16} (h : cachesGood s c.caches) :
    (drawCell16 s cell c).fb = plainCell16 s cell c.fb ∧ cachesGood s (drawCell16 s cell c).caches := by
  unfold drawCell16 plainCell16
  obtain ⟨c', h1, h2, _⟩ := getBase_good (attr := bgAttr s cell) (ptype := 0) (pt := .background) h
    (bgTile_lt s cell) rfl
  simp only [h1]; exact ⟨trivial, h2⟩

/-- With good caches `RENDER16` builds the frame it would build with none, and leaves good caches
(44_tile_cache.md R231). -/
theorem renderCanvas16_good {s : State} (h : cachesGood s s.caches) :
    (renderCanvas16 s).fb = plainFrame16 s ∧ cachesGood s (renderCanvas16 s).caches := by
  have := renderPasses_rel (fun (c : Canvas16) (fb : Frame 16) => c.fb = fb ∧ cachesGood s c.caches) s
    (sp := drawSprite16 s) (sp' := plainSprite16 s) (cell := drawCell16 s) (cell' := plainCell16 s)
    (fun sp c d hcd => by have := drawSprite16_good sp hcd.2; rw [← hcd.1]; exact this)
    (fun x c d hcd => by have := drawCell16_good x hcd.2; rw [← hcd.1]; exact this)
    (c := ⟨fill (ubc16 s), s.caches⟩) (d := fill (ubc16 s)) ⟨rfl, h⟩
  exact this

/-- Whatever the host has done to `CHR`, a `RENDER16` leaves every cached block one of its tags or key
(44_tile_cache.md R232). -/
theorem renderCanvas16_tagged {s : State} (h : cachesTagged s s.caches) :
    cachesTagged s (renderCanvas16 s).caches := by
  refine renderPasses_rel (fun (c : Canvas16) (_ : Unit) => cachesTagged s c.caches) s
    (sp := drawSprite16 s) (sp' := fun _ u => u) (cell := drawCell16 s) (cell' := fun _ u => u)
    (fun sp c _ hc => ?_) (fun x c _ hc => ?_) (c := ⟨fill (ubc16 s), s.caches⟩) (d := ()) h
  · unfold drawSprite16 spriteBlock16
    split_ifs
    · obtain ⟨_, c', h1, h2⟩ := getFlipped_tagged (attr := 0#4) (fx := attrFlipX sp.attr)
        (fy := attrFlipY sp.attr) hc (spriteTile_lt s sp) (paletteTypeOf_spritePtype sp)
      simp only [h1]; exact h2
    · obtain ⟨_, c', h1, h2⟩ := getBase_tagged (attr := 0#4) hc (spriteTile_lt s sp) (paletteTypeOf_spritePtype sp)
      simp only [h1]; exact h2
  · unfold drawCell16
    obtain ⟨_, c', h1, h2⟩ := getBase_tagged (attr := bgAttr s x) (ptype := 0) (pt := .background) hc
      (bgTile_lt s x) rfl
    simp only [h1]; exact h2

theorem plainSprite16_at (s : State) (sp : Sprite) (fb : Frame 16) (X : Fin 256) (Y : Fin 240) :
    (plainSprite16 s sp fb).at X Y =
      overlay (spriteTest s sp) ((spriteByte s sp X.val Y.val).map (colour16 s.rgb)) (fb.at X Y) := by
  unfold plainSprite16
  rw [blitSprite_at, blockPixel_block16]

theorem backgroundPass16_at (s : State) (fb : Frame 16) (X : Fin 256) (Y : Fin 240) :
    (backgroundPass s (plainCell16 s) fb).at X Y = colour16 s.rgb (backgroundByte s X.val Y.val) :=
  backgroundPass_at s (colour16 s.rgb) (fun c => block16 s (bgTile s c) .background (bgAttr s c) false false)
    (fun c r p => by rw [Block.at_block16]; rfl) fb X Y

/-! ### No request of a render evicts (44_tile_cache.md R228) -/

/-- Every valid entry of `c` is still valid in `d`, and every flip-cache block is still there. -/
def noEviction (c d : Caches) : Prop :=
  (∀ (k : Nat) (hk : k < 4096), (c.bc[k]).isSome = true → (d.bc[k]).isSome = true) ∧
    ∀ key b, lookupKey c.fc key = some b → lookupKey d.fc key = some b

theorem noEviction_refl (c : Caches) : noEviction c c := ⟨fun _ _ h => h, fun _ _ h => h⟩

theorem noEviction_trans {c d e : Caches} (h : noEviction c d) (h' : noEviction d e) : noEviction c e :=
  ⟨fun k hk x => h'.1 k hk (h.1 k hk x), fun k b x => h'.2 k b (h.2 k b x)⟩

theorem getBase_fc (s : State) (tile ptype : Nat) (attr : BitVec 4) (c : Caches) :
    (getBase s tile ptype attr c).2.fc = c.fc := by
  unfold getBase
  split
  · rfl
  · split
    · split
      · split <;> rfl
      · rfl
    · rfl

theorem getBase_noEviction (s : State) (tile ptype : Nat) (attr : BitVec 4) (c : Caches) :
    noEviction c (getBase s tile ptype attr c).2 :=
  ⟨fun k hk h => getBase_keeps_valid s tile ptype attr c k hk h,
    fun key b h => by rw [getBase_fc]; exact h⟩

theorem getFlipped_noEviction (s : State) (tile ptype : Nat) (attr : BitVec 4) (fx fy : Bool) (c : Caches) :
    noEviction c (getFlipped s tile ptype attr fx fy c).2 := by
  have hb := getBase_noEviction s tile ptype attr c
  have hfc := getBase_fc s tile ptype attr c
  unfold getFlipped
  cases hl : lookupKey c.fc (flipKey tile ptype attr fx fy) with
  | some b => exact noEviction_refl c
  | none =>
    rcases hg : getBase s tile ptype attr c with ⟨_ | b, c'⟩
    · rw [hg] at hb; exact hb
    · rw [hg] at hb hfc
      refine ⟨hb.1, fun key b' h => ?_⟩
      dsimp only
      rw [lookupKey_insertKey]
      split
      · subst_vars; rw [hl] at h; cases h
      · exact hb.2 key b' h

theorem renderCanvas16_noEviction (s : State) : noEviction s.caches (renderCanvas16 s).caches := by
  have := renderPasses_rel (fun (c : Canvas16) (_ : Unit) => noEviction s.caches c.caches) s
    (sp := drawSprite16 s) (sp' := fun _ u => u) (cell := drawCell16 s) (cell' := fun _ u => u)
    (fun sp c _ hc => by
      have hb : noEviction c.caches (spriteBlock16 s sp c.caches).2 := by
        unfold spriteBlock16
        split
        · exact getFlipped_noEviction ..
        · exact getBase_noEviction ..
      unfold drawSprite16
      rcases hg : spriteBlock16 s sp c.caches with ⟨_ | f, k⟩ <;>
        (rw [hg] at hb; exact noEviction_trans hc hb))
    (fun x c _ hc => by
      have hb := getBase_noEviction s (bgTile s x) 0 (bgAttr s x) c.caches
      unfold drawCell16
      rcases hg : getBase s (bgTile s x) 0 (bgAttr s x) c.caches with ⟨_ | f, k⟩ <;>
        (rw [hg] at hb; exact noEviction_trans hc hb))
    (c := ⟨fill (ubc16 s), s.caches⟩) (d := ()) (noEviction_refl _)
  exact this

end Sys2Proof.Machine
end

