-- ==== Sys2Proof/Laws/Inputs.lean ====
section
/-! SUPPORT. What a render command reads: two states that agree on it are rendered alike. -/

namespace Sys2Proof.Machine

/-! ### What a render command reads (45_frame_renderer.md R250, R251) -/

/-- The passes depend on `MASK`, `OAM`, `CTRL` and `SCROLLX`, and on what a sprite and a cell draw. -/
theorem renderPasses_congr {σ : Type} {s t : State} {sprite sprite' : Sprite → σ → σ}
    {cell cell' : BgCell → σ → σ} (c : σ) (hm : t.mask = s.mask) (ho : t.oam = s.oam) (hc : t.ctrl = s.ctrl)
    (hx : t.scrollX = s.scrollX) (hs : ∀ sp c, sprite' sp c = sprite sp c)
    (hcell : ∀ x c, cell' x c = cell x c) :
    renderPasses t sprite' cell' c = renderPasses s sprite cell c := by
  have e1 : sprite' = sprite := funext fun sp => funext (hs sp)
  have e2 : cell' = cell := funext fun x => funext (hcell x)
  subst e1 e2
  simp only [renderPasses, behindPass, frontPass, backgroundPass, backgroundCells, hm, ho, hc, hx]

/-- Two states a render command cannot tell apart, caches aside. -/
structure SameInputs (s t : State) : Prop where
  cfg     : t.cfg = s.cfg
  ctrl    : t.ctrl = s.ctrl
  nt      : t.nt = s.nt
  pal     : t.pal = s.pal
  rgb     : t.rgb = s.rgb

theorem SameInputs.bgTile {s t : State} (h : SameInputs s t) (c : BgCell) : bgTile t c = bgTile s c := by
  simp only [Machine.bgTile, h.ctrl, vRead_congr _ h.cfg h.nt h.pal]
theorem SameInputs.bgAttr {s t : State} (h : SameInputs s t) (c : BgCell) : bgAttr t c = bgAttr s c := by
  simp only [Machine.bgAttr, attrOf, vRead_congr _ h.cfg h.nt h.pal]
theorem SameInputs.getBase {s t : State} (h : SameInputs s t) (tile ptype : Nat) (attr : BitVec 4) (c : Caches) :
    getBase t tile ptype attr c = getBase s tile ptype attr c := by
  simp only [Machine.getBase, refillBase, block16_congr h.cfg h.pal h.rgb]
theorem SameInputs.getFlipped {s t : State} (h : SameInputs s t) (tile ptype : Nat) (attr : BitVec 4)
    (fx fy : Bool) (c : Caches) : getFlipped t tile ptype attr fx fy c = getFlipped s tile ptype attr fx fy c := by
  simp only [Machine.getFlipped, h.getBase]

theorem SameInputs.drawSprite32 {s t : State} (h : SameInputs s t) (sp : Sprite) (fb : Frame 32) :
    drawSprite32 t sp fb = drawSprite32 s sp fb := by
  simp only [Machine.drawSprite32, spriteTile, h.ctrl, block32_congr h.cfg h.pal h.rgb]
theorem SameInputs.drawCell32 {s t : State} (h : SameInputs s t) (c : BgCell) (fb : Frame 32) :
    drawCell32 t c fb = drawCell32 s c fb := by
  simp only [Machine.drawCell32, h.bgTile, h.bgAttr, block32_congr h.cfg h.pal h.rgb]
theorem SameInputs.drawSprite16 {s t : State} (h : SameInputs s t) (sp : Sprite) (c : Canvas16) :
    drawSprite16 t sp c = drawSprite16 s sp c := by
  simp only [Machine.drawSprite16, spriteBlock16, spriteTest, spriteTile, ubc16, h.ctrl, h.pal, h.rgb,
    h.getBase, h.getFlipped]
theorem SameInputs.drawCell16 {s t : State} (h : SameInputs s t) (x : BgCell) (c : Canvas16) :
    drawCell16 t x c = drawCell16 s x c := by
  simp only [Machine.drawCell16, h.bgTile, h.bgAttr, h.getBase]

/-- The true-colour frame depends on the memories, `CTRL`, `MASK` and `SCROLLX` alone. -/
theorem renderFrame32_congr {s t : State} (h : SameInputs s t) (hm : t.mask = s.mask) (ho : t.oam = s.oam)
    (hx : t.scrollX = s.scrollX) : renderFrame32 t = renderFrame32 s := by
  simp only [renderFrame32, ubc32, h.pal, h.rgb]
  exact renderPasses_congr _ hm ho h.ctrl hx h.drawSprite32 h.drawCell32

/-- So do the compact frame and the caches it leaves, given the caches before. -/
theorem renderCanvas16_congr {s t : State} (h : SameInputs s t) (hm : t.mask = s.mask) (ho : t.oam = s.oam)
    (hx : t.scrollX = s.scrollX) (hk : t.caches = s.caches) : renderCanvas16 t = renderCanvas16 s := by
  simp only [renderCanvas16, ubc16, h.pal, h.rgb, hk]
  exact renderPasses_congr _ hm ho h.ctrl hx h.drawSprite16 h.drawCell16

end Sys2Proof.Machine
end

