-- ==== Sys2Proof/Laws/PerInstr.lean ====
section
/-! SUPPORT. Facts about every command as syntax, one lemma per constructor. -/

namespace Sys2Proof.Laws

/-- Decoding the words of a well-formed command gives it back, and leaves what stands after them. -/
def RoundTrip.Statement (i : Instr) : Prop :=
  i.wellFormed = true → ∀ rest, decode (encode i ++ rest) = .ok (i, rest)

theorem RoundTrip.rdStatus (a : Addr) : RoundTrip.Statement (.rdStatus a) := by
  intro h rest
  simp [Instr.wellFormed] at h
  simp [encode, decode_rd, decodeRead, h]

theorem RoundTrip.rdOamData (a : Addr) : RoundTrip.Statement (.rdOamData a) := by
  intro h rest
  simp [Instr.wellFormed] at h
  simp [encode, decode_rd, decodeRead, h]

theorem RoundTrip.rdData (a : Addr) : RoundTrip.Statement (.rdData a) := by
  intro h rest
  simp [Instr.wellFormed] at h
  simp [encode, decode_rd, decodeRead, h]

theorem RoundTrip.rdOther (a : Addr) : RoundTrip.Statement (.rdOther a) := by
  intro h rest
  simp [Instr.wellFormed, readablePort] at h
  simp [encode, decode_rd, decodeRead, h]

theorem RoundTrip.wrCtrl (a : Addr) (d : Byte) : RoundTrip.Statement (.wrCtrl a d) := by
  intro h rest
  simp [Instr.wellFormed] at h
  simp [encode, decode_wr, decodeWrite, h]

theorem RoundTrip.wrMask (a : Addr) (d : Byte) : RoundTrip.Statement (.wrMask a d) := by
  intro h rest
  simp [Instr.wellFormed] at h
  simp [encode, decode_wr, decodeWrite, h]

theorem RoundTrip.wrOamAddr (a : Addr) (d : Byte) : RoundTrip.Statement (.wrOamAddr a d) := by
  intro h rest
  simp [Instr.wellFormed] at h
  simp [encode, decode_wr, decodeWrite, h]

theorem RoundTrip.wrOamData (a : Addr) (d : Byte) : RoundTrip.Statement (.wrOamData a d) := by
  intro h rest
  simp [Instr.wellFormed] at h
  simp [encode, decode_wr, decodeWrite, h]

theorem RoundTrip.wrScroll (a : Addr) (d : Byte) : RoundTrip.Statement (.wrScroll a d) := by
  intro h rest
  simp [Instr.wellFormed] at h
  simp [encode, decode_wr, decodeWrite, h]

theorem RoundTrip.wrAddr (a : Addr) (d : Byte) : RoundTrip.Statement (.wrAddr a d) := by
  intro h rest
  simp [Instr.wellFormed] at h
  simp [encode, decode_wr, decodeWrite, h]

theorem RoundTrip.wrData (a : Addr) (d : Byte) : RoundTrip.Statement (.wrData a d) := by
  intro h rest
  simp [Instr.wellFormed] at h
  simp [encode, decode_wr, decodeWrite, h]

theorem RoundTrip.wrOther (a : Addr) (d : Byte) : RoundTrip.Statement (.wrOther a d) := by
  intro h rest
  simp [Instr.wellFormed, writablePort] at h
  simp [encode, decode_wr, decodeWrite, h]

theorem RoundTrip.dma (page : Byte) : RoundTrip.Statement (.dma page) := by
  intro _ rest; simp [encode, decode_dma]

theorem RoundTrip.render32 : RoundTrip.Statement .render32 := by
  intro _ rest; simp [encode, decode_render32]

theorem RoundTrip.render16 : RoundTrip.Statement .render16 := by
  intro _ rest; simp [encode, decode_render16]

theorem RoundTrip.scale (src : FrameSource) (w h : BitVec 13) : RoundTrip.Statement (.scale src w h) := by
  intro _ rest; simp [encode, decode_scale]

theorem RoundTrip.cclr : RoundTrip.Statement .cclr := by
  intro _ rest; simp [encode, decode_cclr]

theorem RoundTrip.loadRgb (k : BitVec 6) (v : Word) : RoundTrip.Statement (.loadRgb k v) := by
  intro _ rest; simp [encode, decode_loadRgb]

theorem RoundTrip.reset : RoundTrip.Statement .reset := by
  intro _ rest; simp [encode, decode_reset]

theorem RoundTrip.reserved9 : RoundTrip.Statement .reserved9 := by
  intro _ rest; simp [encode, decode_reserved9]

theorem RoundTrip.reservedA : RoundTrip.Statement .reservedA := by
  intro _ rest; simp [encode, decode_reservedA]

theorem RoundTrip.reservedB : RoundTrip.Statement .reservedB := by
  intro _ rest; simp [encode, decode_reservedB]

theorem RoundTrip.reservedC : RoundTrip.Statement .reservedC := by
  intro _ rest; simp [encode, decode_reservedC]

theorem RoundTrip.reservedD : RoundTrip.Statement .reservedD := by
  intro _ rest; simp [encode, decode_reservedD]

theorem RoundTrip.reservedE : RoundTrip.Statement .reservedE := by
  intro _ rest; simp [encode, decode_reservedE]

theorem RoundTrip.reservedF : RoundTrip.Statement .reservedF := by
  intro _ rest; simp [encode, decode_reservedF]

end Sys2Proof.Laws
end

