-- ==== Sys2Proof/Laws/Run.lean ====
section
/-! SUPPORT. Runs, one step at a time. -/

namespace Sys2Proof.Machine

@[simp] theorem core_step (s : State) : Sys2Proof.core.step s = step s := rfl
@[simp] theorem core_reset : Sys2Proof.core.reset = State.reset := rfl

@[simp] theorem run_zero (s : State) : Host.Core.run Sys2Proof.core 0 s = .next s := rfl

/-- A run whose first step answers `t` goes on from `t`. -/
theorem run_succ {s t : State} (k : Nat) (h : step s = .next t) :
    Host.Core.run Sys2Proof.core (k + 1) s = Host.Core.run Sys2Proof.core k t := by
  have h' : Sys2Proof.core.step s = .next t := h
  simp only [Host.Core.run, h']

@[simp] theorem execAll_nil (s : State) : execAll [] s = .next s := rfl

/-- A list of commands whose first one answers `t` goes on from `t`. -/
theorem execAll_cons {i : Instr} {s t : State} (l : List Instr) (h : exec i s = .next t) :
    execAll (i :: l) s = execAll l t := by
  simp only [execAll, h]

@[simp] theorem performAll_nil (s : State) : performAll [] s = .next s := rfl

/-- A list of commands, the host's writes before each, whose first one answers `t` goes on from `t`. -/
theorem performAll_cons {i : Instr} {s t : State} (l : List Instr) (h : exec i (hostTurn s) = .next t) :
    performAll (i :: l) s = performAll l t := by
  simp only [performAll, h]

end Sys2Proof.Machine
end

