-- ==== Sys2Proof/Laws/Scaler.lean ====
section
/-! SUPPORT. What the host owns, place by place, after its own writes; the scaler: its parameters fit the
destination, and what each word of the destination buffer holds after a `SCALE`. -/

namespace Sys2Proof.Machine

/-! ### The destination buffer -/

/-- A word of the destination buffer after a store. -/
theorem dstRead_dstWrite (d : Array (Option Word)) (k j : Nat) (v : Word) :
    dstRead (dstWrite d k v) j = if j = k then v else dstRead d j := by
  unfold dstRead dstWrite
  split
  · rename_i h
    rw [Array.getElem?_set]
    by_cases hj : j = k
    · subst hj; simp
    · simp [hj, Ne.symm hj]
  · rename_i h
    rw [Array.getElem?_push]
    have hs : (d ++ Array.replicate (k - d.size) (none : Option Word)).size = k := by simp; omega
    rw [hs]
    by_cases hj : j = k
    · simp [hj]
    · rw [if_neg hj, if_neg hj]
      by_cases hlt : j < d.size
      · rw [Array.getElem?_append_left hlt]
      · rw [Array.getElem?_append_right (by omega), Array.getElem?_replicate,
          Array.getElem?_eq_none (Nat.not_lt.mp hlt)]
        split <;> rfl

/-- The buffer still ends with a written word. -/
theorem dstWrite_back (d : Array (Option Word)) (k : Nat) (v : Word) (h : d.back? ≠ some none) :
    (dstWrite d k v).back? ≠ some none := by
  unfold dstWrite
  split
  · rename_i hk
    rw [Array.back?_eq_getElem?] at h ⊢
    rw [Array.size_set, Array.getElem?_set]
    split
    · simp
    · exact h
  · simp

/-- A fold of stores keeps the buffer ending with a written word. -/
theorem foldl_back {ι : Type} (l : List ι) (act : Array (Option Word) → ι → Array (Option Word))
    (h : ∀ d i, d.back? ≠ some none → (act d i).back? ≠ some none) {d : Array (Option Word)}
    (hd : d.back? ≠ some none) : (l.foldl act d).back? ≠ some none := by
  induction l generalizing d with
  | nil => exact hd
  | cons i l ih => exact ih (h d i hd)

theorem scaleImage_back (s : State) (src : FrameSource) (sc : ScaleCache) (h : s.dst.back? ≠ some none) :
    (scaleImage s src sc).back? ≠ some none := by
  unfold scaleImage
  refine foldl_back _ _ (fun d y hd => foldl_back _ _ (fun d x hd => ?_) hd) h
  unfold scalePixel
  exact foldl_back _ _ (fun d j hd => foldl_back _ _ (fun d i hd => dstWrite_back _ _ _ hd) hd) hd

/-! ### The host's writes between commands (70_reset_and_hazards.md R386) -/

/-- What is read after a list of writes: the last of them that reaches the place, else what was there. -/
theorem view_foldl_last {σ ι α : Type} {view : σ → α} {act : σ → ι → σ} {into : ι → Option α}
    (h : ∀ d i, view (act d i) = (into i).getD (view d)) (l : List ι) (d : σ) :
    view (l.foldl act d) = (l.reverse.findSome? into).getD (view d) := by
  induction l generalizing d with
  | nil => rfl
  | cons i l ih =>
    rw [List.foldl_cons, ih, h, List.reverse_cons, List.findSome?_append]
    cases List.findSome? into l.reverse <;> cases hi : into i <;> simp [hi]

theorem hostTurn_fb32_word (s : State) (k : Fin 61440) : (hostTurn s).fb32[k] =
    ((s.hostWrites.head?.getD []).reverse.findSome? (HostWrite.intoFb32 k)).getD s.fb32[k] := by
  refine view_foldl_last (view := fun fb : Frame 32 => fb[k]) (fun fb b => ?_) _ s.fb32
  cases b with
  | fb32 j v =>
    simp only [hostFb32, HostWrite.intoFb32, Fin.getElem_fin, Vector.getElem_set, Fin.ext_iff]
    split <;> rfl
  | fb16 j v => rfl
  | dst j v => rfl
  | chr j v => rfl

theorem hostTurn_fb16_word (s : State) (k : Fin 61440) : (hostTurn s).fb16[k] =
    ((s.hostWrites.head?.getD []).reverse.findSome? (HostWrite.intoFb16 k)).getD s.fb16[k] := by
  refine view_foldl_last (view := fun fb : Frame 16 => fb[k]) (fun fb b => ?_) _ s.fb16
  cases b with
  | fb16 j v =>
    simp only [hostFb16, HostWrite.intoFb16, Fin.getElem_fin, Vector.getElem_set, Fin.ext_iff]
    split <;> rfl
  | fb32 j v => rfl
  | dst j v => rfl
  | chr j v => rfl

theorem hostTurn_dst_word (s : State) (k : Nat) : dstRead (hostTurn s).dst k =
    ((s.hostWrites.head?.getD []).reverse.findSome? (HostWrite.intoDst k)).getD (dstRead s.dst k) := by
  refine view_foldl_last (view := fun d => dstRead d k) (fun d b => ?_) _ s.dst
  cases b with
  | dst j v =>
    simp only [hostDst, HostWrite.intoDst, dstRead_dstWrite, eq_comm (a := k)]
    split <;> rfl
  | fb32 j v => rfl
  | fb16 j v => rfl
  | chr j v => rfl

theorem hostTurn_chr_byte (s : State) (k : Fin 8192) : (hostTurn s).cfg.chr[k] =
    ((s.hostWrites.head?.getD []).reverse.findSome? (HostWrite.intoChr k)).getD s.cfg.chr[k] := by
  refine view_foldl_last (view := fun chr : Vector Byte 8192 => chr[k]) (fun chr b => ?_) _ s.cfg.chr
  cases b with
  | chr j v =>
    simp only [hostChr, HostWrite.intoChr, Fin.getElem_fin, Vector.getElem_set, Fin.ext_iff]
    split <;> rfl
  | fb32 j v => rfl
  | fb16 j v => rfl
  | dst j v => rfl

/-- After the host's writes the buffer still ends with a written word. -/
theorem hostTurn_back (s : State) (h : s.dst.back? ≠ some none) : (hostTurn s).dst.back? ≠ some none := by
  refine foldl_back _ _ (fun d b hd => ?_) h
  cases b with
  | dst j v => exact dstWrite_back d j v hd
  | fb32 j v => exact hd
  | fb16 j v => exact hd
  | chr j v => exact hd

/-! ### Parameters (46_output_scaler.md R301, R302) -/

theorem scaleFactor_pos (w h : Nat) : 1 ≤ scaleFactor w h := by unfold scaleFactor; omega

theorem scaleFactor_fits {w h : Nat} (hw : 256 ≤ w) (hh : 240 ≤ h) :
    256 * scaleFactor w h ≤ w ∧ 240 * scaleFactor w h ≤ h := by
  unfold scaleFactor; omega

@[simp] theorem scaleParams_destW (w h : BitVec 13) : (scaleParams w h).destW = w := rfl
@[simp] theorem scaleParams_destH (w h : BitVec 13) : (scaleParams w h).destH = h := rfl
@[simp] theorem scaleParams_factor (w h : BitVec 13) :
    (scaleParams w h).factor = scaleFactor w.toNat h.toNat := rfl
@[simp] theorem scaleParams_offX (w h : BitVec 13) :
    (scaleParams w h).offX = (w.toNat - 256 * scaleFactor w.toNat h.toNat) / 2 := rfl
@[simp] theorem scaleParams_offY (w h : BitVec 13) :
    (scaleParams w h).offY = (h.toNat - 240 * scaleFactor w.toNat h.toNat) / 2 := rfl
theorem scaleParams_mapX (w h : BitVec 13) (x : Fin 256) :
    (scaleParams w h).mapX[x] = (scaleParams w h).offX + x.val * (scaleParams w h).factor := by
  simp [scaleParams]
theorem scaleParams_mapY (w h : BitVec 13) (y : Fin 240) :
    (scaleParams w h).mapY[y] = (scaleParams w h).offY + y.val * (scaleParams w h).factor := by
  simp [scaleParams]

/-- With a good scaling cache a `SCALE` works with the parameters of its size. -/
theorem scaleCacheFor_good {s : State} (h : scaleCacheGood s) (w k : BitVec 13) :
    scaleCacheFor s w k = scaleParams w k := by
  unfold scaleCacheFor
  cases hs : s.sc with
  | none => rfl
  | some sc =>
    dsimp only
    split
    · rename_i he
      have := (h sc hs).1
      rw [he.1, he.2] at this; exact this
    · rfl

/-! ### One source pixel -/

/-- A word after the stores of one source pixel. -/
theorem scalePixel_read (sc : ScaleCache) (y : Fin 240) (x : Fin 256) (v : Word) (d : Array (Option Word))
    (k : Nat) :
    dstRead (scalePixel sc y x v d) k =
      open Classical in
      if ∃ j < sc.factor, ∃ i < sc.factor, k = sc.destW.toNat * (sc.mapY[y] + j) + (sc.mapX[x] + i)
      then v else dstRead d k := by
  classical
  have inner : ∀ (d : Array (Option Word)) (j : Nat),
      dstRead ((List.range sc.factor).foldl
        (fun dst i => dstWrite dst (sc.destW.toNat * (sc.mapY[y] + j) + (sc.mapX[x] + i)) v) d) k =
      if ∃ i < sc.factor, k = sc.destW.toNat * (sc.mapY[y] + j) + (sc.mapX[x] + i) then v
      else dstRead d k := by
    intro d j
    split
    · rename_i h
      refine view_foldl_const (view := fun d => dstRead d k) _ d
        (fun i => k = sc.destW.toNat * (sc.mapY[y] + j) + (sc.mapX[x] + i)) v ?_ ?_ ?_
      · intro d i _ hi; rw [dstRead_dstWrite, if_pos hi]
      · intro d i _ hi; rw [dstRead_dstWrite, if_neg hi]
      · obtain ⟨i, hi, hk⟩ := h; exact ⟨i, List.mem_range.mpr hi, hk⟩
    · rename_i h
      refine view_foldl_same (view := fun d => dstRead d k) _ d fun d i hi => ?_
      rw [dstRead_dstWrite, if_neg fun hk => h ⟨i, List.mem_range.mp hi, hk⟩]
  unfold scalePixel
  split
  · rename_i h
    refine view_foldl_const (view := fun d => dstRead d k) _ d
      (fun j => ∃ i < sc.factor, k = sc.destW.toNat * (sc.mapY[y] + j) + (sc.mapX[x] + i)) v ?_ ?_ ?_
    · intro d j _ hj; rw [inner, if_pos hj]
    · intro d j _ hj; rw [inner, if_neg hj]
    · obtain ⟨j, hj, hk⟩ := h; exact ⟨j, List.mem_range.mpr hj, hk⟩
  · rename_i h
    refine view_foldl_same (view := fun d => dstRead d k) _ d fun d j hj => ?_
    rw [inner, if_neg fun hk => h ⟨j, List.mem_range.mp hj, hk⟩]

/-! ### The image (46_output_scaler.md R300, R309) -/

/-- A place of the image says which source pixel, and which of its copies, it is. -/
theorem scalePlace_unique {w f offX offY y x j i y' x' j' i' : Nat} (hw : offX + 256 * f ≤ w)
    (hx : x < 256) (hx' : x' < 256) (hj : j < f) (hj' : j' < f) (hi : i < f) (hi' : i' < f)
    (h : w * (offY + y * f + j) + (offX + x * f + i) = w * (offY + y' * f + j') + (offX + x' * f + i')) :
    y = y' ∧ x = x' := by
  have hf : 0 < f := by omega
  have bx : ∀ {x i : Nat}, x < 256 → i < f → x * f + i < 256 * f := fun {x i} hx hi => by nlinarith
  have c1 : offX + x * f + i < w := by have := bx hx hi; omega
  have c2 : offX + x' * f + i' < w := by have := bx hx' hi'; omega
  have hw0 : 0 < w := by omega
  have hrow : offY + y * f + j = offY + y' * f + j' := by
    have e1 := Nat.mul_add_div hw0 (offY + y * f + j) (offX + x * f + i)
    have e2 := Nat.mul_add_div hw0 (offY + y' * f + j') (offX + x' * f + i')
    rw [Nat.div_eq_of_lt c1] at e1
    rw [Nat.div_eq_of_lt c2] at e2
    rw [h] at e1; omega
  have hcol : x * f + i = x' * f + i' := by rw [hrow] at h; omega
  have hrow' : y * f + j = y' * f + j' := by omega
  have q : ∀ {a b : Nat}, b < f → (a * f + b) / f = a := fun {a b} hb => by
    rw [Nat.mul_comm, Nat.mul_add_div hf, Nat.div_eq_of_lt hb]; rfl
  exact ⟨by rw [← q (a := y) hj, hrow', q hj'], by rw [← q (a := x) hi, hcol, q hi']⟩

/-- Over a grid of cells, a word that one cell's stores reach, and no other's, holds that cell's value. -/
theorem foldl_grid_once {m n k : Nat} {put : Fin m → Fin n → Word → Array (Option Word) → Array (Option Word)}
    (value : Fin m → Fin n → Word) {y : Fin m} {x : Fin n}
    (here : ∀ v d, dstRead (put y x v d) k = v)
    (miss : ∀ y' x' v d, ¬ (y' = y ∧ x' = x) → dstRead (put y' x' v d) k = dstRead d k)
    (d : Array (Option Word)) :
    dstRead ((List.finRange m).foldl
      (fun d y => (List.finRange n).foldl (fun d x => put y x (value y x) d) d) d) k =
      value y x := by
  refine view_foldl_once (view := fun d => dstRead d k) (List.finRange m) d (List.mem_finRange y)
    (List.nodup_finRange m) (fun _ => value y x) ?_ ?_
  · intro d
    refine view_foldl_once (view := fun d => dstRead d k) (List.finRange n) d (List.mem_finRange x)
      (List.nodup_finRange n) (fun _ => value y x) ?_ ?_
    · intro d; exact here _ d
    · intro d x' _ hne
      exact miss y x' _ d fun h => hne h.2
  · intro d y' _ hne
    refine view_foldl_same (view := fun d => dstRead d k) _ d fun d x' _ => ?_
    exact miss y' x' _ d fun h => hne h.1

/-- Every destination word of the image holds its source pixel. -/
theorem scaleImage_inside (s : State) (src : FrameSource) (w h : BitVec 13) (hw : 256 ≤ w.toNat)
    (hh : 240 ≤ h.toNat) (y : Fin 240) (x : Fin 256) {j i : Nat} (hj : j < (scaleParams w h).factor)
    (hi : i < (scaleParams w h).factor) :
    dstRead (scaleImage s src (scaleParams w h))
      (w.toNat * ((scaleParams w h).offY + y.val * (scaleParams w h).factor + j) +
        ((scaleParams w h).offX + x.val * (scaleParams w h).factor + i)) = sourceWord s src y x := by
  have hfit := scaleFactor_fits hw hh
  have hw' : (scaleParams w h).offX + 256 * (scaleParams w h).factor ≤ w.toNat := by
    simp only [scaleParams_offX, scaleParams_factor]; omega
  generalize hsc : scaleParams w h = sc at *
  have hdw : sc.destW = w := by rw [← hsc]; rfl
  have hmx : ∀ x : Fin 256, sc.mapX[x] = sc.offX + x.val * sc.factor := by
    rw [← hsc]; exact scaleParams_mapX w h
  have hmy : ∀ y : Fin 240, sc.mapY[y] = sc.offY + y.val * sc.factor := by
    rw [← hsc]; exact scaleParams_mapY w h
  have miss : ∀ (y' : Fin 240) (x' : Fin 256) (v : Word) (d : Array (Option Word)), ¬ (y' = y ∧ x' = x) →
      dstRead (scalePixel sc y' x' v d) (w.toNat * (sc.offY + y.val * sc.factor + j) +
        (sc.offX + x.val * sc.factor + i)) =
      dstRead d (w.toNat * (sc.offY + y.val * sc.factor + j) + (sc.offX + x.val * sc.factor + i)) := by
    intro y' x' v d hne
    rw [scalePixel_read, if_neg]
    rintro ⟨j', hj', i', hi', he⟩
    rw [hdw, hmx, hmy] at he
    have := scalePlace_unique hw' x.isLt x'.isLt hj hj' hi hi' he
    exact hne ⟨Fin.ext this.1.symm, Fin.ext this.2.symm⟩
  have here : ∀ (v : Word) (d : Array (Option Word)),
      dstRead (scalePixel sc y x v d) (w.toNat * (sc.offY + y.val * sc.factor + j) +
        (sc.offX + x.val * sc.factor + i)) = v := by
    intro v d
    rw [scalePixel_read, if_pos]
    exact ⟨j, hj, i, hi, by rw [hdw, hmx, hmy]⟩
  generalize w.toNat * (sc.offY + y.val * sc.factor + j) + (sc.offX + x.val * sc.factor + i) = k at *
  exact foldl_grid_once (fun y x => sourceWord s src y x) here miss s.dst

/-- Every word that is no place of the image is as before (46_output_scaler.md R305). -/
theorem scaleImage_outside (s : State) (src : FrameSource) (w h : BitVec 13) {k : Nat}
    (hk : ∀ (y : Fin 240) (x : Fin 256) (j i : Nat), j < (scaleParams w h).factor →
      i < (scaleParams w h).factor →
      k ≠ w.toNat * ((scaleParams w h).offY + y.val * (scaleParams w h).factor + j) +
        ((scaleParams w h).offX + x.val * (scaleParams w h).factor + i)) :
    dstRead (scaleImage s src (scaleParams w h)) k = dstRead s.dst k := by
  unfold scaleImage
  refine view_foldl_same (view := fun d => dstRead d k) _ s.dst fun d y _ => ?_
  refine view_foldl_same (view := fun d => dstRead d k) _ d fun d x _ => ?_
  rw [scalePixel_read, if_neg]
  rintro ⟨j, hj, i, hi, he⟩
  rw [scaleParams_mapX, scaleParams_mapY] at he
  exact hk y x j i hj hi he

/-- The scaled image depends on the frame buffers and the destination before it alone (46_output_scaler.md R310). -/
theorem scaleImage_congr {s t : State} (h16 : t.fb16 = s.fb16) (h32 : t.fb32 = s.fb32) (hd : t.dst = s.dst)
    (src : FrameSource) (sc : ScaleCache) : scaleImage t src sc = scaleImage s src sc := by
  have hw : sourceWord t src = sourceWord s src := by
    funext y x; cases src <;> simp only [sourceWord, h16, h32]
  simp only [scaleImage, hw, hd]

end Sys2Proof.Machine
end

