-- ==== Sys2Proof/Tests/Slice0.lean ====
section
/-! SUPPORT. The model's own tests: ill-formed commands are refused by the check; written-out words decode
to their commands and run; one small step per command, with results from 95_test_vectors.md and the rules'
examples; and, for every statement with hypotheses, a state and operands that meet them. -/

namespace Sys2Proof.Tests

open Sys2Proof Sys2Proof.Machine

set_option Elab.async false

/-! ### Well-formedness refuses -/

theorem test_wellFormed_rdStatus : (Instr.rdStatus 0x2003#16).wellFormed = false := by decide
theorem test_wellFormed_rdOamData : (Instr.rdOamData 0x2002#16).wellFormed = false := by decide
theorem test_wellFormed_rdData : (Instr.rdData 0x200F#16).wellFormed = false := by decide
theorem test_wellFormed_rdOther : (Instr.rdOther 0xE007#16).wellFormed = false := by decide
theorem test_wellFormed_wrCtrl : (Instr.wrCtrl 0x3000#16 0#8).wellFormed = false := by decide
theorem test_wellFormed_wrMask : (Instr.wrMask 0x2000#16 0#8).wellFormed = false := by decide
theorem test_wellFormed_wrOamAddr : (Instr.wrOamAddr 0x2002#16 0#8).wellFormed = false := by decide
theorem test_wellFormed_wrOamData : (Instr.wrOamData 0x0004#16 0#8).wellFormed = false := by decide
theorem test_wellFormed_wrScroll : (Instr.wrScroll 0x2006#16 0#8).wellFormed = false := by decide
theorem test_wellFormed_wrAddr : (Instr.wrAddr 0x2005#16 0#8).wellFormed = false := by decide
theorem test_wellFormed_wrData : (Instr.wrData 0x2008#16 0#8).wellFormed = false := by decide
theorem test_wellFormed_wrOther : (Instr.wrOther 0x6007#16 0#8).wellFormed = false := by decide

/-! ### Written-out words (2.1) -/

theorem test_decode_rd :
    decode [0x002002FF#32] = .ok (.rdStatus 0x2002#16, []) ∧
    decode [0x00200400#32] = .ok (.rdOamData 0x2004#16, []) ∧
    decode [0x00600700#32] = .ok (.rdData 0x6007#16, []) ∧
    decode [0x00000200#32] = .ok (.rdOther 0x0002#16, []) := by decide
theorem test_decode_wr :
    decode [0x10200014#32] = .ok (.wrCtrl 0x2000#16 0x14#8, []) ∧
    decode [0x10200118#32] = .ok (.wrMask 0x2001#16 0x18#8, []) ∧
    decode [0x102003FC#32] = .ok (.wrOamAddr 0x2003#16 0xFC#8, []) ∧
    decode [0x10200412#32] = .ok (.wrOamData 0x2004#16 0x12#8, []) ∧
    decode [0x10200510#32] = .ok (.wrScroll 0x2005#16 0x10#8, []) ∧
    decode [0x1020063F#32] = .ok (.wrAddr 0x2006#16 0x3F#8, []) ∧
    decode [0x10E00700#32] = .ok (.wrData 0xE007#16 0x00#8, []) ∧
    decode [0x102002FF#32] = .ok (.wrOther 0x2002#16 0xFF#8, []) := by decide
theorem test_decode_others :
    decode [0x20000003#32] = .ok (.dma 0x03#8, []) ∧
    decode [0x30000000#32] = .ok (.render32, []) ∧
    decode [0x40000000#32] = .ok (.render16, []) ∧
    decode [0x504001E0#32] = .ok (.scale .fb16 512#13 480#13, []) ∧
    decode [0x5C4001E0#32] = .ok (.scale .fb32 512#13 480#13, []) ∧
    decode [0x5FFFFFFF#32] = .ok (.scale .fb32 8191#13 8191#13, []) ∧
    decode [0x60000000#32] = .ok (.cclr, []) ∧
    decode [0x70000001#32, 0x00FF0000#32] = .ok (.loadRgb 1#6 0x00FF0000#32, []) ∧
    decode [0x80000000#32] = .ok (.reset, []) := by decide
theorem test_decode_reserved :
    decode [0x90000000#32] = .ok (.reserved9, []) ∧ decode [0xA1234567#32] = .ok (.reservedA, []) ∧
    decode [0xB0000000#32] = .ok (.reservedB, []) ∧ decode [0xC0000000#32] = .ok (.reservedC, []) ∧
    decode [0xD0000000#32] = .ok (.reservedD, []) ∧ decode [0xE0000000#32] = .ok (.reservedE, []) ∧
    decode [0xFFFFFFFF#32] = .ok (.reservedF, []) := by decide
theorem test_decode_incomplete :
    decode [] = .error .noWord ∧ decode [0x70000001#32] = .error .missingValueWord := by decide
/-- The words of R120. -/
theorem test_encode :
    encode (.wrAddr 0x2006#16 0x3F#8) = [0x1020063F#32] ∧ encode (.rdStatus 0x2002#16) = [0x00200200#32] ∧
    encode (.dma 0x02#8) = [0x20000002#32] ∧ encode .render32 = [0x30000000#32] ∧
    encode .render16 = [0x40000000#32] ∧ encode (.scale .fb16 512#13 480#13) = [0x504001E0#32] ∧
    encode (.scale .fb32 256#13 240#13) = [0x582000F0#32] ∧ encode .cclr = [0x60000000#32] ∧
    encode (.loadRgb 1#6 0x00FF0000#32) = [0x70000001#32, 0x00FF0000#32] ∧
    encode .reset = [0x80000000#32] := by decide

/-! ### Every row of the opcode table decodes by the table's numbering and runs after reset -/

def isNext : Host.Outcome State Fault Refusal → Bool
  | .next _ => true
  | _       => false

theorem test_table_rows_decode : opcodeTable.map (fun row => (decodeTableWord 32 row.bits.toNat).map Instr.mnemonic) =
    opcodeTable.map (fun row => some row.mnemonic) := by decide +kernel
theorem test_table_rows_run :
    (opcodeTable.all fun row => isNext (step (State.reset.withFetchWord 32 row.bits.toNat))) = true := by
  decide +kernel

/-! ### One step on a small state -/

/-- The reset state of an instance with blank pattern memory, table and frame buffers. -/
def blank : State :=
  { State.reset with
    cfg  := ⟨#v[0, 1, 0, 1], 0xC0#8, 0x00#8, true, Vector.replicate 8192 0x00#8⟩
    rgb  := Vector.replicate 64 0#32
    fb32 := Vector.replicate 61440 0#32
    fb16 := Vector.replicate 61440 0#16 }

/-- `blank` with some bytes of pattern memory. -/
def withChr (cells : List (Nat × Byte)) : State :=
  { blank with cfg := { blank.cfg with chr := cells.foldl (fun v c => v.setIfInBounds c.1 c.2) blank.cfg.chr } }

/-- `blank` with the four test colours of 95_test_vectors.md. -/
def testColours : Vector Word 64 :=
  (((blank.rgb.set 0 0x00808080#32).set 1 0x00FF0000#32).set 2 0x0000FF00#32).set 3 0x000000FF#32

/-- What an outcome's next state holds. -/
def see {α : Type} (o : Host.Outcome State Fault Refusal) (f : State → α) : Option α :=
  match o with
  | .next t => some (f t)
  | _       => none

/-- A host that fills words of its buffers before one step and one more before the next. -/
def hostFills : State := { blank with hostWrites :=
  [[.dst 2 5#32, .dst 0 6#32, .fb32 0 1#32, .fb16 61439 2#16, .dst 2 7#32, .fb32 61439 3#32, .chr 8191 4#8],
    [.dst 1 8#32]] }

/-- 70_reset_and_hazards.md R386: the host fills `DST` with the values it likes; the last one stays. -/
theorem test_host_fill : see (step hostFills) (fun t => (t.dst, t.hostWrites)) =
    some (#[some 6#32, none, some 7#32], [[.dst 1 8#32]]) := by decide +kernel
/-- 46_output_scaler.md R305, R386: words the host filled after an image are kept by the next `SCALE`. -/
theorem test_host_fill_letterbox :
    dstRead (scalePixel (scaleParams 512#13 480#13) 0 0 7#32 (hostDst (Array.replicate 600 (some 9#32))
      (.dst 2 4#32))) 2 = 4#32 := by decide +kernel

theorem test_rdStatus : see (exec (.rdStatus 0x2002#16) { blank with w := true })
    (fun t => (t.result, t.w, t.stCnt)) = some (some 0xC0#8, false, true) := by decide +kernel
theorem test_rdStatus_odd : see (exec (.rdStatus 0x2002#16) { blank with stCnt := true })
    (fun t => (t.result, t.stCnt)) = some (some 0x00#8, false) := by decide +kernel
theorem test_rdOamData : see (exec (.rdOamData 0x2004#16) { blank with oamAddr := 7#8, oam := [(7, 0x5A#8)] })
    (fun t => (t.result, t.oamAddr)) = some (some 0x5A#8, 7#8) := by decide +kernel
theorem test_rdData : see (exec (.rdData 0x2007#16) { blank with
      vaddr := 0xFFFF#16, rdBuf := 0x01#8, pal := [(0x1F, 0x3C#8)] })
    (fun t => (t.result, t.rdBuf, t.vaddr)) = some (some 0x01#8, 0x3C#8, 0x0000#16) := by decide +kernel
theorem test_rdData_pattern : see (exec (.rdData 0x2007#16) { withChr [(5, 0xAB#8)] with vaddr := 0x0005#16 })
    (fun t => (t.result, t.rdBuf, t.vaddr)) = some (some 0x00#8, 0xAB#8, 0x0006#16) := by decide +kernel
theorem test_rdOther : see (exec (.rdOther 0x2000#16) { blank with ctrl := 0xFF#8 })
    (fun t => t.result) = some (some 0x00#8) := by decide +kernel
theorem test_wrCtrl : see (exec (.wrCtrl 0x2000#16 0x14#8) blank)
    (fun t => (t.ctrl, ctrlInc32 t.ctrl, ctrlBpt t.ctrl, ctrlSpt t.ctrl, ctrlNtx t.ctrl)) =
    some (0x14#8, true, true, false, false) := by decide +kernel
theorem test_wrMask : see (exec (.wrMask 0x2001#16 0x18#8) blank)
    (fun t => (maskBgen t.mask, maskSpen t.mask)) = some (true, true) := by decide +kernel
theorem test_wrOamAddr : see (exec (.wrOamAddr 0x2003#16 0xFC#8) blank) (fun t => t.oamAddr) = some 0xFC#8 := by
  decide +kernel
theorem test_wrOamData_wraps : see (exec (.wrOamData 0x2004#16 0x12#8) { blank with oamAddr := 0xFF#8 })
    (fun t => (t.oam, t.oamAddr)) = some ([(255, 0x12#8)], 0x00#8) := by decide +kernel
theorem test_wrScroll_first : see (exec (.wrScroll 0x2005#16 0x10#8) { blank with scrollY := 3#8 })
    (fun t => (t.scrollX, t.scrollY, t.w)) = some (0x10#8, 3#8, true) := by decide +kernel
theorem test_wrScroll_second : see (exec (.wrScroll 0x2005#16 0x99#8) { blank with w := true, scrollX := 0x55#8 })
    (fun t => (t.scrollX, t.scrollY, t.w)) = some (0x55#8, 0x99#8, false) := by decide +kernel
theorem test_wrAddr_first : see (exec (.wrAddr 0x2006#16 0x3F#8) { blank with vaddr := 0x1234#16 })
    (fun t => (t.vaddr, t.w)) = some (0x3F34#16, true) := by decide +kernel
theorem test_wrAddr_second : see (exec (.wrAddr 0x2006#16 0x00#8) { blank with vaddr := 0x3F34#16, w := true })
    (fun t => (t.vaddr, t.w)) = some (0x3F00#16, false) := by decide +kernel
theorem test_wrData_mirrors : see (exec (.wrData 0x2007#16 0x2A#8) { blank with vaddr := 0x3F10#16 })
    (fun t => (t.pal, t.vaddr)) = some ([(0x00, 0x2A#8), (0x10, 0x2A#8)], 0x3F11#16) := by decide +kernel
theorem test_wrData_steps_by_32 : see (exec (.wrData 0x2007#16 0x07#8) { blank with vaddr := 0x2000#16, ctrl := 4#8 })
    (fun t => (t.nt, t.vaddr)) = some ([(0, 0x07#8)], 0x2020#16) := by decide +kernel
theorem test_wrOther : see (exec (.wrOther 0x2002#16 0xFF#8) { blank with w := true })
    (fun t => (t.w, t.stCnt)) = some (true, false) := by decide +kernel

/-- The host answers byte `k` of page 2 with 0x11 at 0, 0x22 at 1 and 0x33 at 2; the rest is left free. -/
def dmaState : State :=
  { blank with oamAddr := 0xFE#8, ext := [[(0x0200, 0x11#8), (0x0201, 0x22#8), (0x0202, 0x33#8)]] }

theorem test_dma_reads_ascending : (extRead dmaState (dmaSource 0x02#8 0), extRead dmaState (dmaSource 0x02#8 2)) =
    (0x11#8, 0x33#8) := by decide +kernel
theorem test_dma_keeps_cursor : see (exec (.dma 0x02#8) dmaState) (fun t => (t.oamAddr, t.ext)) =
    some (0xFE#8, []) := by decide +kernel

theorem test_render32_fill : see (exec .render32 { blank with rgb := testColours, pal := [(0, 0x43#8)] })
    (fun t => t.fb32[0]) = some 0x000000FF#32 := by decide +kernel
theorem test_render16_fill : see (exec .render16 { blank with rgb := testColours, pal := [(0, 0x43#8)] })
    (fun t => t.fb16[0]) = some 0x001F#16 := by decide +kernel
theorem test_scale_params : (scaleParams 800#13 600#13).factor = 2 ∧ (scaleParams 800#13 600#13).offX = 144 ∧
    (scaleParams 800#13 600#13).offY = 60 ∧ (scaleParams 8191#13 8191#13).factor = 31 ∧
    (scaleParams 8191#13 8191#13).offX = 127 ∧ (scaleParams 8191#13 8191#13).offY = 375 := by decide +kernel
theorem test_scale_pixel : [0, 1, 2, 512, 513, 514].map
    (dstRead (scalePixel (scaleParams 512#13 480#13) 0 0 7#32 (Array.replicate 600 (some 9#32)))) =
    [7#32, 7#32, 9#32, 7#32, 7#32, 9#32] := by decide +kernel
theorem test_scale_too_small : see (exec (.scale .fb32 255#13 240#13) blank) (fun t => (t.dst, t.sc)) =
    some (#[], none) := by decide +kernel

/-- A scene of one warm entry in each cache. -/
def warm : State :=
  { blank with caches := ⟨Caches.empty.bc.set 8 (some ⟨1#9, 0#3, 0#4, Vector.replicate 64 none⟩), [(0x070101, Vector.replicate 64 none)]⟩ }

/-- 44_tile_cache.md R232: after the host changes row 0 of tile 1, a hit gives the block of before and a miss
(another attribute) the new pattern: `PAL[1]`, set to RGB entry 1, in the leftmost pixel. -/
theorem test_stale_hit_fresh_miss :
    let s : State := hostTurn { warm with rgb := testColours, pal := [(1, 1#8), (5, 1#8)],
                                          hostWrites := [[.chr 16 0x80#8]] }
    ((getBase s 1 0 0#4 s.caches).1.map fun b => Block.at b 0 0) = some none ∧
    ((getBase s 1 0 1#4 s.caches).1.map fun b => Block.at b 0 0) = some (some 0xF800#16) := by decide +kernel

theorem test_cclr : see (exec .cclr warm) (fun t => (t.caches.bc[8].isSome, t.caches.fc.length)) =
    some (false, 0) := by decide +kernel
theorem test_loadRgb : see (exec (.loadRgb 1#6 0x00FF0000#32) warm)
    (fun t => (t.rgb[0], t.rgb[1], t.caches.bc[8].isSome, t.caches.fc.length)) =
    some (0x00000000#32, 0x00FF0000#32, false, 0) := by decide +kernel
theorem test_reset : see (exec .reset { warm with
      ctrl := 0x14#8, w := true, stCnt := true, rdBuf := 0x77#8, nt := [(5, 1#8)], rgb := testColours })
    (fun t => (t.ctrl, t.w, t.stCnt, t.rdBuf, t.nt.length, t.rgb[1])) =
    some (0x00#8, false, false, 0x00#8, 0, 0x00FF0000#32) := by decide +kernel
theorem test_reserved : [Instr.reserved9, .reservedA, .reservedB, .reservedC, .reservedD, .reservedE, .reservedF].map
    (fun i => see (exec i { warm with w := true }) fun t => (t.w, t.result, t.caches.fc.length)) =
    List.replicate 7 (some (true, none, 1)) := by decide +kernel

/-! ### The shared operations -/

theorem test_ntIndex : [0x2000, 0x23FF, 0x2400, 0x27FF, 0x2800, 0x2BFF, 0x2C00, 0x2FFF, 0x3000, 0x3EFF].map
    (ntIndex blank.cfg.mirror) = [0, 1023, 1024, 2047, 0, 1023, 1024, 2047, 0, 1791] := by decide +kernel
theorem test_vRead_mirrors : [0x2800#16, 0x3000#16, 0x6000#16, 0xA800#16, 0x2400#16].map
    (vRead { blank with nt := [(0, 0x22#8), (1024, 0x33#8)] }) = [0x22#8, 0x22#8, 0x22#8, 0x22#8, 0x33#8] := by
  decide +kernel
theorem test_vWrite_oneWay : (vWrite { blank with pal := [(0x14, 9#8)] } 0x3F04#16 0x15#8).pal =
    [(0x04, 0x15#8), (0x14, 9#8)] := by decide +kernel
theorem test_readPlane : (readPlane (withChr [(0x0FF5, 0x3C#8)]).cfg.chr 255 5, readPlane blank.cfg.chr 512 0) =
    (0x3C#8, 0x00#8) := by decide +kernel
theorem test_pixelIndex : (List.finRange 8).map (pixelIndex (withChr [(0, 0xB1#8), (8, 0x63#8)]).cfg.chr 0 0) =
    [1#2, 2#2, 3#2, 1#2, 0#2, 0#2, 2#2, 3#2] := by decide +kernel
theorem test_palByte : (palByte [(6, 6#8)] .background 1#4 2#2, palByte [(13, 13#8)] .background 7#4 1#2,
    palByte [(0x1F, 0x1F#8)] (.sprite 3#2) 0#4 3#2, palByte [(0x10, 1#8)] (.sprite 0#2) 0#4 0#2) =
    (some 6#8, some 13#8, some 0x1F#8, none) := by decide +kernel
theorem test_to565 : [0x00808080#32, 0x003CBCFC#32, 0xFF7C7C7C#32, 0x00080408#32].map to565 =
    [0x8410#16, 0x3DFF#16, 0x7BEF#16, 0x0821#16] := by decide +kernel
theorem test_attrOf : (attrOf { blank with nt := [(0x3C9, 0x9C#8)] } 0x2000 5 6,
    attrOf { blank with nt := [(1992, 0x04#8)] } 0x2400 2 4) = (1#2, 1#2) := by decide +kernel
theorem test_flipKey : (flipKey 7 1 0#4 true false, flipKey 511 4 0#4 true true) = (0x070101, 0x1FF0403) := by
  decide +kernel
theorem test_getBase_fills : ((getBase blank 5 0 2#4 Caches.empty).2.bc[40].map fun e => (e.tile, e.ptype, e.attr)) =
    some (5#9, 0#3, 2#4) := by decide +kernel
theorem test_scrolledCells : [0, 7, 255, 511].map (fun sx =>
      ((scrolledCells sx).head?.map (·.x0), (scrolledCells sx).getLast?.map (·.x0), (scrolledCells sx).length)) =
    [(some 0, some 256, 858), (some (-7), some 249, 858), (some (-7), some 249, 858), (some (-7), some 249, 858)] := by
  decide +kernel
theorem test_passOrders : behindOrder.take 2 = [63, 62] ∧ frontOrder.take 3 = [0, 63, 62] ∧
    frontOrder.getLast? = some 1 ∧ frontOrder.length = 64 := by decide +kernel

/-- The end-to-end scenario E8: one dot in tile 0, at bit 0 of row 0. -/
def dotScene : State :=
  { withChr [(0, 0x01#8)] with mask := 0x08#8, pal := [(0, 0x0F#8), (1, 0x21#8)] }

theorem test_endToEnd_pixels : [0, 6, 7, 8].map (fun X => pixelByte32 dotScene X 32) =
    [0x0F#8, 0x0F#8, 0x21#8, 0x0F#8] := by decide +kernel
/-- The status-bar cell at (0, 0), drawn into a frame of nines. -/
def dotCell : Frame 32 :=
  drawCell32 { dotScene with rgb := blank.rgb.set 0x21 5#32 } ⟨0x2000, 0, 0, 0, 0⟩ (fill 9#32)
/-- The dot is at (7, 0). -/
theorem test_drawCell : [dotCell[6], dotCell[7], dotCell[8], dotCell[256 + 7]] = [0#32, 5#32, 9#32, 0#32] := by
  decide +kernel
/-- Sprite (0, 2, FLIPX, 0), tile 2 with one pixel at row 1, pixel column 2, drawn into a frame of nines. -/
def flippedSprite : Frame 32 :=
  drawSprite32 { withChr [(33, 0x20#8)] with rgb := testColours, pal := [(0x11, 1#8)] }
    ⟨5, 0#8, 2#8, 0x40#8, 0#8⟩ (fill 9#32)
/-- It lands at (5, 2). -/
theorem test_drawSprite : [flippedSprite[512 + 2], flippedSprite[512 + 5], flippedSprite[256 + 5]] =
    [9#32, 0x00FF0000#32, 9#32] := by decide +kernel

/-! ### Every statement with hypotheses has a state and operands that meet them -/

theorem witness_DecodeEncodeRoundTrip : (Instr.wrAddr 0xE006#16 0x3F#8).wellFormed = true := by decide +kernel
theorem witness_IgnoredFieldsSelectNothing :
    0x0FE002FF#32 &&& operandMask (opField 0x0FE002FF#32) = 0x00E00200#32 &&& operandMask (opField 0x0FE002FF#32) ∧
    decode [0x0FE002FF#32] = .ok (.rdStatus 0xE002#16, []) := by decide +kernel
theorem witness_OnlyLoadRgbReadsSecondWord : opField 0x6FFFFFFF#32 ≠ 0x7#4 ∧ opField 0x7FFFFFC5#32 = 0x7#4 := by decide +kernel
theorem witness_OpcodeTableNamesTheCommand : decode [0x10401402#32] = .ok (.wrOther 0x4014#16 0x02#8, []) := by decide +kernel
theorem witness_StepPerformsDecodedCommand :
    decode { blank with cmds := [0x70000001#32, 0x80000000#32, 0x60000000#32] }.cmds =
      .ok (.loadRgb 1#6 0x80000000#32, [0x60000000#32]) ∧
    decode { hostFills with cmds := [0x60000000#32] }.cmds = .ok (.cclr, []) ∧ blank.hostWrites = [] ∧
    hostFills.hostWrites ≠ [] := by decide +kernel
theorem witness_StepWaitsForWholeCommand : blank.cmds = [] ∧
    { blank with cmds := [0x70000001#32] }.cmds = [0x70000001#32] ∧ opField 0x70000001#32 = 0x7#4 := by decide +kernel
/-- The last write to a word at either end of a buffer stays. -/
theorem witness_hostFills : hostFills.cmds = [] ∧ (hostTurn hostFills).fb32[(0 : Fin 61440)] = 1#32 ∧
    (hostTurn hostFills).fb32[(61439 : Fin 61440)] = 3#32 ∧
    (hostTurn hostFills).fb16[(61439 : Fin 61440)] = 2#16 ∧ dstRead (hostTurn hostFills).dst 2 = 7#32 ∧
    (hostTurn hostFills).cfg.chr[(8191 : Fin 8192)] = 4#8 :=
  ⟨rfl, (hostTurn_fb32_word hostFills 0).trans (by decide +kernel),
    (hostTurn_fb32_word hostFills 61439).trans (by decide +kernel),
    (hostTurn_fb16_word hostFills 61439).trans (by decide +kernel),
    (hostTurn_dst_word hostFills 2).trans (by decide +kernel),
    (hostTurn_chr_byte hostFills 8191).trans (by decide +kernel)⟩
theorem witness_QueuedCommandsRunInOrder :
    (∀ i ∈ [Instr.rdStatus 0x2002#16, .loadRgb 5#6 7#32], i.wellFormed = true) ∧
    { blank with cmds := [0x00200200#32, 0x70000005#32, 7#32, 0x60000000#32] }.cmds =
      [Instr.rdStatus 0x2002#16, .loadRgb 5#6 7#32].flatMap encode ++ [0x60000000#32] := by decide +kernel
theorem witness_RdStatusReturnsAndClears : 0x0FE002FF#32 &&& 0xF03FFF00#32 = 0x00200200#32 := by decide +kernel
theorem witness_StatusCounterCountsStatusReads :
    Instr.reset ∉ [Instr.rdStatus 0x2002#16, .render32] ∧ blank.cfg.wf = true := by decide +kernel
theorem witness_RdOamDataReturnsByteAtCursor : 0x0FE004FF#32 &&& 0xF03FFF00#32 = 0x00200400#32 := by decide +kernel
theorem witness_RdDataReturnsOldBuffer : 0x0FE007FF#32 &&& 0xF03FFF00#32 = 0x00200700#32 := by decide +kernel
theorem witness_RdOtherReturnsZero : 0x0F2008FF#32 &&& 0xF0000000#32 = 0x00000000#32 ∧
    addrField 0x0F2008FF#32 &&& 0x3FFF#16 ≠ 0x2002#16 ∧ addrField 0x0F2008FF#32 &&& 0x3FFF#16 ≠ 0x2004#16 ∧
    addrField 0x0F2008FF#32 &&& 0x3FFF#16 ≠ 0x2007#16 := by decide +kernel
theorem witness_PlainRegisterWrites : 0x1FE000FF#32 &&& 0xF03FFF00#32 = 0x10200000#32 ∧
    0x1FE001FF#32 &&& 0xF03FFF00#32 = 0x10200100#32 ∧ 0x1FE003FF#32 &&& 0xF03FFF00#32 = 0x10200300#32 := by decide +kernel
theorem witness_WrOamDataStoresAndAdvances : 0x1FE004FF#32 &&& 0xF03FFF00#32 = 0x10200400#32 ∧
    0 ≠ blank.oamAddr.toNat + 1 := by decide +kernel
theorem witness_WrScrollAlternatesLatches : 0x1FE005FF#32 &&& 0xF03FFF00#32 = 0x10200500#32 ∧ blank.w = false ∧
    { blank with w := true }.w = true := by decide +kernel
theorem witness_WrAddrBuildsHighByteFirst : 0x1FE006FF#32 &&& 0xF03FFF00#32 = 0x10200600#32 ∧ blank.w = false ∧
    { blank with w := true }.w = true := by decide +kernel
/-- The last address of the pattern region, the two ends of the nametables, the two ends of the palette. -/
theorem witness_WrDataStoresAndAdvances : 0x1FE007FF#32 &&& 0xF03FFF00#32 = 0x10200700#32 ∧
    (0x5FFF#16).toNat % 0x4000 < 0x2000 ∧
    (0x2000 ≤ (0x6000#16).toNat % 0x4000 ∧ (0x6000#16).toNat % 0x4000 < 0x3F00) ∧
    (0x2000 ≤ (0x3EFF#16).toNat % 0x4000 ∧ (0x3EFF#16).toNat % 0x4000 < 0x3F00) ∧
    0x3F00 ≤ (0x3F00#16).toNat % 0x4000 ∧ 0x3F00 ≤ (0xFFFF#16).toNat % 0x4000 := by decide +kernel
theorem witness_WrOtherIsIgnored : 0x104014FF#32 &&& 0xF0000000#32 = 0x10000000#32 ∧
    addrField 0x104014FF#32 &&& 0x3FFF#16 ∉
      [0x2000#16, 0x2001#16, 0x2003#16, 0x2004#16, 0x2005#16, 0x2006#16, 0x2007#16] := by decide +kernel
theorem witness_ScrollAndAddrShareOneToggle :
    (∀ i ∈ [Instr.wrScroll 0x2005#16 1#8, .wrAddr 0x2006#16 2#8, .wrAddr 0x2006#16 3#8], togglesW i = true) ∧
    blank.w = false := by decide +kernel
/-- Both ends of each logical nametable, and of the mirror above them. -/
theorem witness_NtIndexFollowsMirrorTable :
    ∀ p ∈ [(0x2000#16, 0), (0x23FF#16, 0), (0x2400#16, 1), (0x27FF#16, 1), (0x2800#16, 2), (0x2BFF#16, 2),
      (0x2C00#16, 3), (0x2FFF#16, 3), (0x3000#16, 0), (0x3EFF#16, 3)],
    0x2000 ≤ p.1.toNat ∧ p.1.toNat ≤ 0x3EFF ∧ (((p.1 - 0x2000#16) &&& 0x0FFF#16) >>> 10).toNat = p.2 := by decide +kernel
theorem witness_AddressSpaceRegionsAndMirrors : (0x1FFF#16).toNat < 0x2000 ∧
    { blank with vaddr := 0x5FFF#16 }.vaddr.toNat % 0x4000 < 0x2000 ∧
    (0x2000 ≤ (0x2000#16).toNat ∧ (0x2000#16).toNat < 0x3F00) ∧
    (0x2000 ≤ (0x3EFF#16).toNat ∧ (0x3EFF#16).toNat < 0x3F00) ∧
    (0x3000 ≤ (0x3000#16).toNat ∧ (0x3000#16).toNat < 0x3F00) ∧
    (0x3F00 ≤ (0x3F00#16).toNat ∧ (0x3F00#16).toNat < 0x4000) ∧
    (0x3F00 ≤ (0x3FFF#16).toNat ∧ (0x3FFF#16).toNat < 0x4000) := by decide +kernel
theorem witness_PaletteWriteMirrorsOneWay :
    ((0x7F10#16).toNat % 0x4000 = 0x3F00 + (0x10 : Fin 32).val ∧ (0x10 : Fin 32).val ∈ [0x10, 0x14, 0x18, 0x1C]) ∧
    ((0x3F1C#16).toNat % 0x4000 = 0x3F00 + (0x1C : Fin 32).val ∧ (0x1C : Fin 32).val ∈ [0x10, 0x14, 0x18, 0x1C]) ∧
    ((0x3F00#16).toNat % 0x4000 = 0x3F00 + (0 : Fin 32).val ∧ (0 : Fin 32).val ∉ [0x10, 0x14, 0x18, 0x1C]) ∧
    ((0x3F1F#16).toNat % 0x4000 = 0x3F00 + (0x1F : Fin 32).val ∧
      (0x1F : Fin 32).val ∉ [0x10, 0x14, 0x18, 0x1C]) := by decide +kernel
theorem witness_DmaFillsOamFromPage : 0x2ABCDE03#32 &&& 0xF0000000#32 = 0x20000000#32 := by decide +kernel
/-- Two images; the second lists all of page 3. -/
def twoImages : State :=
  { blank with ext := [[(0x0200, 1#8)], (List.range 256).map fun i => (0x0300 + i, BitVec.ofNat 8 i)] }
theorem witness_DmaReadsTheHostsNextImage :
    lookupKey [((0x0200 : Nat), 1#8)] (0x0200#16).toNat = some 1#8 ∧
    twoImages.ext =
      [(0x0200, 1#8)] :: ((List.range 256).map fun i => (0x0300 + i, BitVec.ofNat 8 i)) :: [] ∧
    ((List.range 256).all fun i =>
      (lookupKey ((List.range 256).map fun i => (0x0300 + i, BitVec.ofNat 8 i)) (256 * (0x03#8).toNat + i)).isSome) =
      true := by decide +kernel
theorem witness_TrueColourBlockPixels : (0xCF#8 &&& 0x3F#8).toNat = (0x0F : Fin 64).val := by decide +kernel
theorem witness_BlockDependsOnItsInputs :
    (∀ row : Fin 16, (withChr [(16, 1#8)]).cfg.chr[16 * (0 : Fin 512).val + row.val]'(by omega) =
      blank.cfg.chr[16 * (0 : Fin 512).val + row.val]'(by omega)) ∧
    ∀ k ∈ [0, 4 * ((0#4).toNat % 4) + 1, 4 * ((0#4).toNat % 4) + 2, 4 * ((0#4).toNat % 4) + 3],
      { withChr [(16, 1#8)] with pal := [(0x15, 9#8)] }.pal.read k = blank.pal.read k ∧
      colour32 (withChr [(16, 1#8)]).rgb (blank.pal.read k) = colour32 blank.rgb (blank.pal.read k) := by
  decide +kernel
theorem witness_AttributeOfCell : 0x2800 ∈ [0x2000, 0x2400, 0x2800] ∧ 31 < 32 ∧ 29 < 30 ∧
    blank.cfg.mirror[2] = blank.cfg.mirror[0] := by decide +kernel
theorem witness_BaseCacheRequest : (512 ≤ 512 ∨ 5 ≤ 0) ∧ (512 ≤ 0 ∨ 5 ≤ 5) ∧
    511 < 512 ∧ paletteTypeOf 4 = some (.sprite 3#2) ∧
    (warm.caches.bc[8 * 1 + 0]? = some (some ⟨1#9, 0#3, 0#4, Vector.replicate 64 none⟩) ∧
      (1#9).toNat = 1 ∧ (0#3).toNat = 0) ∧
    Caches.empty.bc[8 * 511 + 4]? = some none := by decide +kernel
theorem witness_FlipCacheRequest : 511 < 512 ∧ 7 < 8 ∧
    lookupKey warm.caches.fc (flipKey 7 1 0#4 true false) = some (Vector.replicate 64 none) ∧
    lookupKey warm.caches.fc (flipKey 7 1 0#4 false true) = none ∧
    (getBase warm 512 1 0#4 warm.caches).1 = none ∧ (getBase warm 7 1 0#4 warm.caches).1.isSome = true := by
  decide +kernel
theorem witness_CachesAreInvisible : (cachesGood blank Caches.empty ∧ 511 < 512 ∧
    paletteTypeOf 4 = some (.sprite 3#2) ∧ ¬ baseHit Caches.empty 511 4 0#4 ∧
    (lookupKey Caches.empty.fc (flipKey 511 4 0#4 true false)).isSome = false) ∧
    ∃ c, cachesGood blank c ∧ baseHit c 511 4 0#4 ∧
      (lookupKey c.fc (flipKey 511 4 0#4 true false)).isSome = true := by
  refine ⟨⟨cachesGood_empty blank, by decide +kernel, rfl, ?_, rfl⟩, ?_⟩
  · rintro ⟨e, he, -⟩
    simp [Caches.empty] at he
  · obtain ⟨c, h, hc⟩ := getFlipped_good (attr := 0#4) (fx := true) (fy := false) (cachesGood_empty blank)
      (show 511 < 512 by decide) (show paletteTypeOf 4 = some (.sprite 3#2) from rfl)
    have hb := getBase_miss (s := blank) (attr := 0#4) (c := Caches.empty) (tile := 511) (ptype := 4)
      (pt := .sprite 3#2) (by decide) rfl fun e he => by simp [Caches.empty] at he
    simp only [getFlipped, show lookupKey Caches.empty.fc _ = none from rfl, hb] at h
    have hc' := (Prod.mk.inj h).2
    subst hc'
    refine ⟨_, hc, ⟨⟨511#9, 4#3, 0#4, block16 blank 511 (.sprite 3#2) 0#4 false false⟩, ?_, rfl, rfl, rfl⟩, ?_⟩
    · simp
    · simp [lookupKey_insertKey]
theorem witness_OnlyClearsEmptyTheCaches :
    clearsCaches .cclr warm = true ∧ clearsCaches (.wrData 0x2007#16 0#8) { warm with vaddr := 0x3F00#16 } = true ∧
    clearsCaches (.wrData 0x2007#16 0#8) { warm with vaddr := 0x3EFF#16 } = false ∧
    clearsCaches .render16 warm = false ∧ warm.caches.bc[8].isSome = true ∧
    lookupKey warm.caches.fc 0x070101 = some (Vector.replicate 64 none) := by decide +kernel
theorem witness_Render16PixelByPixel : cachesGood dotScene dotScene.caches := cachesGood_empty _
/-- Sprite 1 is behind and hidden; the others are in front. -/
theorem witness_CompactFrameIsConvertedFrame :
    let s : State := { dotScene with oam := [(4, 0xF0#8), (6, 0x20#8)] }
    cachesGood s s.caches ∧ ∀ i < 64, attrBehind (readSprite s.oam i).attr = true →
      visible (readSprite s.oam i) = false := ⟨cachesGood_empty _, by decide +kernel⟩
/-- Sprite 1 is behind in both and stands elsewhere in the second. -/
theorem witness_BackgroundHidesBehindSprites :
    let s : State := { dotScene with mask := 0x18#8, oam := [(6, 0x20#8)] }
    let oam : Memory := [(4, 50#8), (6, 0x20#8), (7, 9#8)]
    s.mask.getLsbD 3 = true ∧ cachesGood s s.caches ∧
    ∀ i < 64, readSprite oam i = readSprite s.oam i ∨
      (attrBehind (readSprite oam i).attr && !special (readSprite oam i)) = true ∧
        (attrBehind (readSprite s.oam i).attr && !special (readSprite s.oam i)) = true :=
  ⟨by decide +kernel, cachesGood_empty _, by decide +kernel⟩
theorem witness_StatusBarIgnoresScroll :
    let s : State := { blank with ctrl := 0x18#8, mask := 0xF7#8 }
    cachesGood s s.caches ∧ 0xFF#8 &&& 0x18#8 = s.ctrl &&& 0x18#8 ∧ (31 : Fin 240).val < 32 ∧
      s.mask.getLsbD 3 = false := ⟨cachesGood_empty _, by decide +kernel⟩
/-- Sprite 1 has Y = 0xEF in one and X = 0xF9 in the other, and another tile. -/
theorem witness_HiddenSpritesDrawNothing :
    let s : State := { blank with oam := [(4, 0xEF#8)] }
    let oam : Memory := [(5, 7#8), (7, 0xF9#8)]
    ∀ i < 64, readSprite oam i = readSprite s.oam i ∨
      (0xEF ≤ (oam.read (4 * i)).toNat ∨ 0xF9 ≤ (oam.read (4 * i + 3)).toNat) ∧
        (0xEF ≤ (s.oam.read (4 * i)).toNat ∨ 0xF9 ≤ (s.oam.read (4 * i + 3)).toNat) := by decide +kernel
/-- Unflipped at (102, 56), and flipped both ways at (104, 53). -/
theorem witness_SpecialPixelsAreNeverWritten :
    let s : State := { blank with oam := [(0, 50#8), (1, 0xFF#8), (3, 100#8)] }
    let t : State := { blank with oam := [(0, 50#8), (1, 0xFF#8), (2, 0xC0#8), (3, 100#8)] }
    (cachesGood s s.caches ∧ s.oam.read 1 = 0xFF#8 ∧
      102 = (s.oam.read 3).toNat + (if (s.oam.read 2).getLsbD 6 then 7 - 2 else 2) ∧
      56 = (s.oam.read 0).toNat + 1 + (if (s.oam.read 2).getLsbD 7 then 7 - 5 else 5)) ∧
    cachesGood t t.caches ∧ t.oam.read 1 = 0xFF#8 ∧
      104 = (t.oam.read 3).toNat + (if (t.oam.read 2).getLsbD 6 then 7 - 3 else 3) ∧
      53 = (t.oam.read 0).toNat + 1 + (if (t.oam.read 2).getLsbD 7 then 7 - 5 else 5) :=
  ⟨⟨cachesGood_empty _, by decide +kernel⟩, cachesGood_empty _, by decide +kernel⟩
/-- Every unused bit differs. -/
theorem witness_FrameDependsOnUsedBitsOnly :
    let t : State := { blank with ctrl := 0xE6#8, mask := 0xE7#8, scrollY := 9#8, vaddr := 0x1234#16, w := true,
                                  pal := [(1, 0xC0#8)], oam := [(2, 0x1C#8)] }
    t.ctrl &&& 0x19#8 = blank.ctrl &&& 0x19#8 ∧ t.mask &&& 0x18#8 = blank.mask &&& 0x18#8 ∧
    (∀ k < 32, t.pal.read k &&& 0x3F#8 = blank.pal.read k &&& 0x3F#8) ∧
    (∀ k < 256, k % 4 ≠ 2 → t.oam.read k = blank.oam.read k) ∧
    ∀ i < 64, t.oam.read (4 * i + 2) &&& 0xE3#8 = blank.oam.read (4 * i + 2) &&& 0xE3#8 := by decide +kernel
theorem witness_DisabledFrameIsBackdrop : { blank with mask := 0xE7#8 }.mask.getLsbD 3 = false ∧
    { blank with mask := 0xE7#8 }.mask.getLsbD 4 = false := by decide +kernel
theorem witness_RenderLeavesRestAndRepeats : cachesGood dotScene dotScene.caches := cachesGood_empty _
/-- The smallest size, and a size with a margin of one column. -/
theorem witness_ScaleReplicatesEveryPixel : scaleCacheGood blank ∧ blank.cfg.hasScaler = true ∧
    256 ≤ (256#13).toNat ∧ 240 ≤ (240#13).toNat ∧ 0 < (scaleParams 256#13 240#13).factor ∧
    256 < (257#13).toNat ∧ ¬ ((scaleParams 257#13 241#13).offX ≤ 256 ∧
      256 < (scaleParams 257#13 241#13).offX + 256 * (scaleParams 257#13 241#13).factor ∧
      (scaleParams 257#13 241#13).offY ≤ 0 ∧
      0 < (scaleParams 257#13 241#13).offY + 240 * (scaleParams 257#13 241#13).factor) :=
  ⟨fun _ h => (nomatch h), by decide +kernel⟩
theorem witness_ScaleParametersFit : 256 ≤ (256#13).toNat ∧ 240 ≤ (240#13).toNat ∧ 256 ≤ (8191#13).toNat := by decide +kernel
theorem witness_ScaleDoesNothingWhenItCannot :
    { blank with cfg := { blank.cfg with hasScaler := false } }.cfg.hasScaler = false ∧ (255#13).toNat < 256 ∧
    (239#13).toNat < 240 := by decide +kernel
theorem witness_LoadRgbAndCclr : 0x7FFFFFC5#32 &&& 0xF0000000#32 = 0x70000000#32 ∧
    0x6FFFFFFF#32 &&& 0xF0000000#32 = 0x60000000#32 := by decide +kernel
theorem witness_ResetCommandClears : 0x8FFFFFFF#32 &&& 0xF0000000#32 = 0x80000000#32 := by decide +kernel
theorem witness_NothingTraps : { blank with cmds := [0x90000000#32, 0x60000000#32] }.cmds =
      0x90000000#32 :: [0x60000000#32] ∧ 9 ≤ (opField 0x90000000#32).toNat ∧ 9 ≤ (opField 0xFFFFFFFF#32).toNat ∧
    0x0FE002FF#32 &&& operandMask (opField 0x0FE002FF#32) =
      0x00E00200#32 &&& operandMask (opField 0x0FE002FF#32) := by decide +kernel
theorem witness_InvariantIsKeptByEveryStep : blank.Inv ∧ (∃ t, step blank = .next t) ∧
    (hostTurn blank).cfg.chr = blank.cfg.chr ∧ cachesGood blank blank.caches ∧
    decode { warm with cmds := [0x60000000#32] }.cmds = .ok (.cclr, []) ∧ clearsCaches .cclr warm = true :=
  ⟨⟨by decide +kernel, ⟨Memory.wf_nil _, Memory.wf_nil _, Memory.wf_nil _⟩, cachesTagged_empty _,
    fun _ h => (nomatch h), fun h => nomatch h⟩, ⟨_, rfl⟩, rfl, cachesGood_empty _, by decide +kernel⟩

end Sys2Proof.Tests
end

section
/-! PROOF. One step and a queue of steps (00_scope.md R5): what the fetch answers, what every command does with the
queues and the byte returned that stand between the block and its host, and the statements about steps. -/

namespace Sys2Proof.Machine

/-! ### One step, by what the issued words decode to -/

/-- With a whole command issued, a step performs it after the host's turn. -/
theorem step_of_decode_ok {s : State} {i : Instr} {rest : List Word} (h : decode s.cmds = .ok (i, rest)) :
    step s = exec i { hostTurn s with cmds := rest, result := none } := by
  simp only [step, fetchCommand, hostTurn_cmds, h]

/-- With no whole command issued, a step is the host's turn and returns nothing. -/
theorem step_of_decode_error {s : State} {e : DecodeError} (h : decode s.cmds = .error e) :
    step s = .next (idle (hostTurn s)) := by
  simp only [step, fetchCommand, hostTurn_cmds, h]

/-- No word, or the first word of a `LOADRGB` alone, is no whole command (30_encoding.md R108). -/
theorem decode_incomplete {ws : List Word} (h : ws = [] ∨ ∃ w, ws = [w] ∧ opField w = 0x7#4) :
    ∃ e, decode ws = .error e := by
  obtain rfl | ⟨w, rfl, hop⟩ := h
  · exact ⟨.noWord, rfl⟩
  · exact ⟨.missingValueWord, decode_loadRgb_alone hop⟩

/-- Decoding the words of a well-formed command gives it back, and leaves what stands after them. -/
theorem decode_encode_append {i : Instr} (h : i.wellFormed = true) (rest : List Word) :
    decode (encode i ++ rest) = .ok (i, rest) := by
  have roundTrip : Laws.RoundTrip.Statement i := by
    cases i with
    | rdStatus a => exact Laws.RoundTrip.rdStatus a
    | rdOamData a => exact Laws.RoundTrip.rdOamData a
    | rdData a => exact Laws.RoundTrip.rdData a
    | rdOther a => exact Laws.RoundTrip.rdOther a
    | wrCtrl a d => exact Laws.RoundTrip.wrCtrl a d
    | wrMask a d => exact Laws.RoundTrip.wrMask a d
    | wrOamAddr a d => exact Laws.RoundTrip.wrOamAddr a d
    | wrOamData a d => exact Laws.RoundTrip.wrOamData a d
    | wrScroll a d => exact Laws.RoundTrip.wrScroll a d
    | wrAddr a d => exact Laws.RoundTrip.wrAddr a d
    | wrData a d => exact Laws.RoundTrip.wrData a d
    | wrOther a d => exact Laws.RoundTrip.wrOther a d
    | dma page => exact Laws.RoundTrip.dma page
    | render32 => exact Laws.RoundTrip.render32
    | render16 => exact Laws.RoundTrip.render16
    | scale src destW destH => exact Laws.RoundTrip.scale src destW destH
    | cclr => exact Laws.RoundTrip.cclr
    | loadRgb k v => exact Laws.RoundTrip.loadRgb k v
    | reset => exact Laws.RoundTrip.reset
    | reserved9 => exact Laws.RoundTrip.reserved9
    | reservedA => exact Laws.RoundTrip.reservedA
    | reservedB => exact Laws.RoundTrip.reservedB
    | reservedC => exact Laws.RoundTrip.reservedC
    | reservedD => exact Laws.RoundTrip.reservedD
    | reservedE => exact Laws.RoundTrip.reservedE
    | reservedF => exact Laws.RoundTrip.reservedF
  exact roundTrip h rest

/-! ### What a command does with the queues and the byte returned -/

/-- A `SCALE` that acts stores the scaled image and its parameters (46_output_scaler.md R300). -/
theorem exec_scale_of_runs {s : State} (src : FrameSource) {destW destH : BitVec 13}
    (h : scaleRuns s destW destH = true) : exec (.scale src destW destH) s = .next { s with
      sc := some (scaleCacheFor s destW destH), dst := scaleImage s src (scaleCacheFor s destW destH) } := by
  simp only [exec, execScale, if_pos h]

/-- A `SCALE` that cannot act changes nothing (46_output_scaler.md R306, R307). -/
theorem exec_scale_of_not_runs {s : State} (src : FrameSource) {destW destH : BitVec 13}
    (h : ¬ scaleRuns s destW destH = true) : exec (.scale src destW destH) s = .next s := by
  simp only [exec, execScale, if_neg h]

/-- The state with other issued words, another byte being returned and other listed writes of the host. -/
def State.withQueues (s : State) (cmds : List Word) (result : Option Byte) (writes : List (List HostWrite)) : State :=
  { s with cmds := cmds, result := result, hostWrites := writes }

section Operations

variable (s : State) (cmds : List Word) (result : Option Byte) (writes : List (List HostWrite))

theorem vWrite_withQueues (a : Addr) (v : Byte) :
    vWrite (s.withQueues cmds result writes) a v = (vWrite s a v).withQueues cmds result writes := by
  by_cases hpat : ppuAddr a < 0x2000
  · simp only [vWrite_pattern v hpat]
  · by_cases hnt : ppuAddr a < 0x3F00
    · simp only [vWrite_nametable v (Nat.not_lt.mp hpat) hnt]; rfl
    · simp only [vWrite_palette v (Nat.not_lt.mp hnt)]; rfl

/-- The host's answers to a `DMA` stand in `ext`, apart from the three fields. -/
theorem dmaStores_withQueues (page : Byte) :
    dmaStores (s.withQueues cmds result writes) page = dmaStores s page := by
  simp only [dmaStores, extRead, State.withQueues]

theorem renderFrame32_withQueues : renderFrame32 (s.withQueues cmds result writes) = renderFrame32 s :=
  renderFrame32_congr ⟨rfl, rfl, rfl, rfl, rfl⟩ rfl rfl rfl

theorem renderCanvas16_withQueues : renderCanvas16 (s.withQueues cmds result writes) = renderCanvas16 s :=
  renderCanvas16_congr ⟨rfl, rfl, rfl, rfl, rfl⟩ rfl rfl rfl rfl

theorem scaleRuns_withQueues (destW destH : BitVec 13) :
    scaleRuns (s.withQueues cmds result writes) destW destH = scaleRuns s destW destH := rfl

end Operations

/-- Every command completes, neither sees nor changes the queues, and either returns a byte that does not depend on
the one returned before or leaves that one as it is. -/
theorem exec_withQueues (i : Instr) (s : State) :
    ∃ t, exec i s = .next t ∧ ∀ (cmds : List Word) (result : Option Byte) (writes : List (List HostWrite)),
      exec i (s.withQueues cmds result writes) =
        .next (t.withQueues cmds (if i.returnsByte then t.result else result) writes) := by
  cases i with
  | wrData a d =>
    refine ⟨_, rfl, fun cmds result writes => ?_⟩
    simp only [exec, execWrData, vWrite_withQueues]
    rfl
  | dma page =>
    refine ⟨_, rfl, fun cmds result writes => ?_⟩
    simp only [exec, execDma, dmaStores_withQueues]
    simp only [State.withQueues]
    rfl
  | render32 =>
    refine ⟨_, rfl, fun cmds result writes => ?_⟩
    simp only [exec, execRender32, renderFrame32_withQueues]
    rfl
  | render16 =>
    refine ⟨_, rfl, fun cmds result writes => ?_⟩
    simp only [exec, execRender16, renderCanvas16_withQueues]
    rfl
  | scale src destW destH =>
    by_cases hruns : scaleRuns s destW destH = true
    · refine ⟨_, exec_scale_of_runs src hruns, fun cmds result writes => ?_⟩
      rw [exec_scale_of_runs src ((scaleRuns_withQueues s cmds result writes destW destH).trans hruns)]
      simp only [State.withQueues]
      rfl
    · refine ⟨_, exec_scale_of_not_runs src hruns, fun cmds result writes => ?_⟩
      exact exec_scale_of_not_runs src (s := s.withQueues cmds result writes) hruns
  | rdStatus _ | rdOamData _ | rdData _ | rdOther _ => exact ⟨_, rfl, fun _ _ _ => rfl⟩
  | wrCtrl _ _ | wrMask _ _ | wrOamAddr _ _ | wrOamData _ _ => exact ⟨_, rfl, fun _ _ _ => rfl⟩
  | wrScroll _ _ | wrAddr _ _ | wrOther _ _ => exact ⟨_, rfl, fun _ _ _ => rfl⟩
  | cclr | loadRgb _ _ | reset | reserved9 | reservedA | reservedB | reservedC | reservedD | reservedE | reservedF =>
    exact ⟨_, rfl, fun _ _ _ => rfl⟩

/-- No command touches the host's listed writes. -/
theorem exec_hostWrites {i : Instr} {s t : State} (h : exec i s = .next t) : t.hostWrites = s.hostWrites := by
  obtain ⟨u, -, hqueues⟩ := exec_withQueues i s
  have hself : exec i s = _ := hqueues s.cmds s.result s.hostWrites
  cases h.symm.trans hself
  rfl

/-! ### Queues of commands -/

/-- With no writes listed, the host's turns before the commands do nothing. -/
theorem performAll_eq_execAll (l : List Instr) {s : State} (h : s.hostWrites = []) :
    performAll l s = execAll l s := by
  induction l generalizing s with
  | nil => rfl
  | cons i l ih =>
    obtain ⟨u, hu, -⟩ := exec_withQueues i s
    rw [performAll_cons l ((hostTurn_none h).symm ▸ hu), execAll_cons l hu]
    exact ih ((exec_hostWrites hu).trans h)

/-- The byte being returned once the queued commands `l` have run and left `t`: the last command's, if it returns one;
`before`, the byte returned earlier, where there was no command. -/
def resultAfter (l : List Instr) (before : Option Byte) (t : State) : Option Byte :=
  match l.getLast? with
  | none   => before
  | some i => if i.returnsByte then t.result else none

/-- A run of queued commands performs them, from any words issued before and any byte being returned. -/
theorem run_queue (l : List Instr) (hwf : ∀ i ∈ l, i.wellFormed = true) (s : State) (rest : List Word)
    (before : Option Byte) :
    ∃ t, performAll l s = .next t ∧
      Host.Core.run Sys2Proof.core l.length { s with cmds := l.flatMap encode ++ rest, result := before } =
        .next { t with cmds := rest, result := resultAfter l before t } := by
  induction l generalizing s before with
  | nil => exact ⟨s, rfl, rfl⟩
  | cons i l ih =>
    obtain ⟨hi, hl⟩ := List.forall_mem_cons.mp hwf
    obtain ⟨u, hu, hqueues⟩ := exec_withQueues i (hostTurn s)
    have hstep : step { s with cmds := (i :: l).flatMap encode ++ rest, result := before } = .next { u with
        cmds := l.flatMap encode ++ rest, result := if i.returnsByte then u.result else none } := by
      rw [List.flatMap_cons, List.append_assoc, step_of_decode_ok (decode_encode_append hi _)]
      exact (hqueues _ none (hostTurn s).hostWrites).trans (by rw [← exec_hostWrites hu]; rfl)
    obtain ⟨t, hperform, hrun⟩ := ih hl u (if i.returnsByte then u.result else none)
    refine ⟨t, (performAll_cons l hu).trans hperform, ?_⟩
    rw [List.length_cons, run_succ _ hstep, hrun]
    -- The byte of `i` is the run's only when no command follows it.
    cases l with
    | nil => cases hperform; rfl
    | cons j l => rfl

/-! ### The statements -/

/-- Settles O6: the fetch finds the decoded command, and a host that lists no writes has an empty turn. -/
theorem stepPerformsDecodedCommand : Obligations.StepPerformsDecodedCommand := by
  intro s i rest h
  refine ⟨step_of_decode_ok h, fun hnone => ?_⟩
  rw [step_of_decode_ok h, hostTurn_none hnone]

/-- Settles O7: the words do not decode, so the step is the host's turn alone, known place by place. -/
theorem stepWaitsForWholeCommand : Obligations.StepWaitsForWholeCommand := by
  intro s h
  obtain ⟨e, he⟩ := decode_incomplete h
  exact ⟨(hostTurn s).cfg.chr, (hostTurn s).fb32, (hostTurn s).fb16, (hostTurn s).dst,
    step_of_decode_error he, rfl, hostTurn_none, hostTurn_chr_byte s, hostTurn_fb32_word s, hostTurn_fb16_word s,
    hostTurn_dst_word s⟩

/-- Settles O9, by induction on the commands with the words issued and the byte returned left free. -/
theorem queuedCommandsRunInOrder : Obligations.QueuedCommandsRunInOrder := by
  intro l s rest hwf hcmds
  obtain ⟨t, hperform, hrun⟩ := run_queue l hwf s rest s.result
  refine ⟨t, hperform, fun hnone => (performAll_eq_execAll l hnone).symm.trans hperform, ?_⟩
  rw [← hcmds] at hrun
  exact hrun

end Sys2Proof.Machine
end

section
/-! PROOF. What every command writes: the nine registers, and the memories, tables, caches and buffers
(10_state.md R22 to R40). -/

namespace Sys2Proof.Machine

/-! ### The registers (10_state.md R22 to R30) -/

/-- Settles O25, command by command: `WR.DATA` advances `VADDR` after a store that reaches no register, and a `SCALE`
writes none whether it acts or not. -/
theorem registersHaveTheirWriters : Obligations.RegistersHaveTheirWriters := by
  intro i s
  cases i with
  | wrData a d =>
    refine ⟨_, rfl, vWrite_ctrl .., vWrite_mask .., vWrite_oamAddr .., vWrite_scrollX .., vWrite_scrollY .., ?_,
      vWrite_w .., vWrite_rdBuf .., vWrite_stCnt ..⟩
    rw [advanceVaddr_vaddr, vWrite_vaddr, vWrite_ctrl]
    rfl
  | scale src destW destH =>
    by_cases hruns : scaleRuns s destW destH = true
    · exact ⟨_, exec_scale_of_runs src hruns, rfl, rfl, rfl, rfl, rfl, rfl, rfl, rfl, rfl⟩
    · exact ⟨_, exec_scale_of_not_runs src hruns, rfl, rfl, rfl, rfl, rfl, rfl, rfl, rfl, rfl⟩
  | _ => exact ⟨_, rfl, rfl, rfl, rfl, rfl, rfl, rfl, rfl, rfl, rfl⟩

/-! ### The status counter (10_state.md R30, 41_register_port.md R151) -/

/-- `RESET` apart, a command inverts `STCNT` exactly when it is a status read. -/
theorem exec_stCnt {i : Instr} (s : State) (hreset : i ≠ .reset) :
    ∃ t, exec i s = .next t ∧ t.stCnt = (s.stCnt ^^ isStatusRead i) := by
  obtain ⟨t, h, -, -, -, -, -, -, -, -, hst⟩ := registersHaveTheirWriters i s
  refine ⟨t, h, hst.trans ?_⟩
  cases i with
  | rdStatus a => exact (Bool.xor_true _).symm
  | reset => exact absurd rfl hreset
  | _ => exact (Bool.xor_false _).symm

/-- The constraint on the status parameters makes bit 7 of the status byte alternate with `STCNT` (10_state.md R30). -/
theorem statusByte_bit7_alternates {c : Config} (h : c.wf = true) (b : Bool) :
    (statusByte c b).getLsbD 7 = !(statusByte c (!b)).getLsbD 7 := by
  have hne : c.statusEven.getLsbD 7 = !c.statusOdd.getLsbD 7 := Bool.eq_not.mpr (bne_iff_ne.mp h)
  cases b with
  | false => exact hne
  | true => exact (Bool.not_eq_eq_eq_not.mpr hne).symm

/-- Settles O12, by induction on the commands with the state left free; two reads in a row see `STCNT` and its
inverse. -/
theorem statusCounterCountsStatusReads : Obligations.StatusCounterCountsStatusReads := by
  refine ⟨fun l => ?_, fun a b s hwf => ?_⟩
  · induction l with
    | nil => exact fun s _ => ⟨s, rfl, by simp⟩
    | cons i l ih =>
      intro s hl
      rw [List.mem_cons, not_or] at hl
      obtain ⟨u, hu, hust⟩ := exec_stCnt s (Ne.symm hl.1)
      obtain ⟨t, ht, htst⟩ := ih u hl.2
      refine ⟨t, (execAll_cons l hu).trans ht, ?_⟩
      rw [htst, hust, List.countP_cons]
      cases isStatusRead i with
      | false => simp
      | true =>
        have hodd : (l.countP isStatusRead + 1) % 2 = 1 ↔ ¬ l.countP isStatusRead % 2 = 1 := by omega
        simp only [if_true, hodd, decide_not, Bool.xor_assoc, Bool.true_xor]
  · exact ⟨_, _, _, _, rfl, rfl, rfl, rfl, statusByte_bit7_alternates hwf s.stCnt⟩

/-! ### The memories, tables, caches and buffers (10_state.md R32 to R40) -/

/-- A write below the palette leaves the palette and the caches alone. -/
theorem vWrite_below_palette {s : State} {a : Addr} (v : Byte) (h : ppuAddr a < 0x3F00) :
    (vWrite s a v).pal = s.pal ∧ (vWrite s a v).caches = s.caches := by
  by_cases hpat : ppuAddr a < 0x2000
  · rw [vWrite_pattern v hpat]; exact ⟨rfl, rfl⟩
  · rw [vWrite_nametable v (Nat.not_lt.mp hpat) h]; exact ⟨rfl, rfl⟩

/-- Settles O26, command by command: each of the commands named writes its own places, a `WR.DATA` below the palette
leaves the caches, and every other command writes no memory. -/
theorem memoriesHaveTheirWriters : Obligations.MemoriesHaveTheirWriters := by
  intro i s
  cases i with
  | wrOamData a d =>
    exact ⟨_, rfl, rfl, .inl rfl, .inl rfl, .inr (.inr (.inl ⟨a, d, rfl⟩)), .inl rfl, .inl rfl, .inl rfl, .inl rfl,
      .inl rfl, .inl rfl⟩
  | dma page =>
    exact ⟨_, rfl, rfl, .inl rfl, .inl rfl, .inr (.inr (.inr ⟨page, rfl⟩)), .inl rfl, .inl rfl, .inl rfl, .inl rfl,
      .inl rfl, .inl rfl⟩
  | wrData a d =>
    refine ⟨_, rfl, vWrite_cfg .., .inr (.inr ⟨a, d, rfl⟩), .inr (.inr ⟨a, d, rfl⟩), .inl (vWrite_oam ..),
      .inl (vWrite_rgb ..), ?_, .inl (vWrite_sc ..), .inl (vWrite_fb32 ..), .inl (vWrite_fb16 ..), .inl (vWrite_dst ..)⟩
    by_cases hpal : 0x3F00 ≤ ppuAddr s.vaddr
    · exact .inr (.inr (decide_eq_true hpal))
    · exact .inl (vWrite_below_palette d (Nat.not_le.mp hpal)).2
  | render32 =>
    exact ⟨_, rfl, rfl, .inl rfl, .inl rfl, .inl rfl, .inl rfl, .inl rfl, .inl rfl, .inr rfl, .inl rfl, .inl rfl⟩
  | render16 =>
    exact ⟨_, rfl, rfl, .inl rfl, .inl rfl, .inl rfl, .inl rfl, .inr (.inl rfl), .inl rfl, .inl rfl, .inr rfl, .inl rfl⟩
  | scale src destW destH =>
    by_cases hruns : scaleRuns s destW destH = true
    · exact ⟨_, exec_scale_of_runs src hruns, rfl, .inl rfl, .inl rfl, .inl rfl, .inl rfl, .inl rfl,
        .inr (.inr ⟨src, destW, destH, rfl⟩), .inl rfl, .inl rfl, .inr ⟨src, destW, destH, rfl⟩⟩
    · exact ⟨_, exec_scale_of_not_runs src hruns, rfl, .inl rfl, .inl rfl, .inl rfl, .inl rfl, .inl rfl, .inl rfl,
        .inl rfl, .inl rfl, .inl rfl⟩
  | cclr =>
    exact ⟨_, rfl, rfl, .inl rfl, .inl rfl, .inl rfl, .inl rfl, .inr (.inr rfl), .inl rfl, .inl rfl, .inl rfl, .inl rfl⟩
  | loadRgb k v =>
    exact ⟨_, rfl, rfl, .inl rfl, .inl rfl, .inl rfl, .inr ⟨k, v, rfl⟩, .inr (.inr rfl), .inl rfl, .inl rfl, .inl rfl,
      .inl rfl⟩
  | reset =>
    exact ⟨_, rfl, rfl, .inr (.inl rfl), .inr (.inl rfl), .inr (.inl rfl), .inl rfl, .inr (.inr rfl), .inr (.inl rfl),
      .inl rfl, .inl rfl, .inl rfl⟩
  | _ =>
    exact ⟨_, rfl, rfl, .inl rfl, .inl rfl, .inl rfl, .inl rfl, .inl rfl, .inl rfl, .inl rfl, .inl rfl, .inl rfl⟩

end Sys2Proof.Machine
end

section
/-! PROOF. Good states: each part of the invariant is kept by every command, the whole of it by the host's turn and so
by every step; the state after power-on is good. -/

namespace Sys2Proof.Machine

/-! ### The invariant: what each part of it needs of a command -/

section Exec

variable {i : Instr} {s t : State} (h : exec i s = .next t)
include h

/-- A command keeps the three memories canonical: only a `WR.DATA`, a `WR.OAMDATA`, a `DMA` and a `RESET` write them. -/
theorem exec_keeps_memories (hs : memoriesGood s) : memoriesGood t := by
  obtain ⟨hnt, hpal, hoam⟩ := hs
  obtain ⟨u, hu, -, unt, upal, uoam, -⟩ := memoriesHaveTheirWriters i s
  cases h.symm.trans hu
  refine ⟨?_, ?_, ?_⟩
  · obtain e | rfl | ⟨a, d, rfl⟩ := unt
    · rwa [e]
    · cases h; exact Memory.wf_nil _
    · cases h; exact (vWrite_memories _ d hnt hpal).1
  · obtain e | rfl | ⟨a, d, rfl⟩ := upal
    · rwa [e]
    · cases h; exact Memory.wf_nil _
    · cases h; exact (vWrite_memories _ d hnt hpal).2
  · obtain e | rfl | ⟨a, d, rfl⟩ | ⟨page, rfl⟩ := uoam
    · rwa [e]
    · cases h; exact Memory.wf_nil _
    · cases h; exact Memory.wf_write d hoam s.oamAddr.isLt
    · cases h; dsimp only; exact dmaStores_wf page hoam

/-- A command keeps a valid scaling cache that of its size: a `SCALE` that acts stores the parameters of its own, and
a `RESET` none. -/
theorem exec_keeps_scaleCache (hs : scaleCacheGood s) : scaleCacheGood t := by
  obtain ⟨u, hu, -, -, -, -, -, -, usc, -⟩ := memoriesHaveTheirWriters i s
  cases h.symm.trans hu
  obtain e | rfl | ⟨src, destW, destH, rfl⟩ := usc
  · unfold scaleCacheGood; rwa [e]
  · cases h; exact fun sc hsc => nomatch hsc
  · by_cases hruns : scaleRuns s destW destH = true
    · cases h.symm.trans (exec_scale_of_runs src hruns)
      simp only [scaleRuns, Bool.and_eq_true, decide_eq_true_eq] at hruns
      obtain ⟨⟨-, hwidth⟩, hheight⟩ := hruns
      intro sc hsc
      cases hsc
      rw [scaleCacheFor_good hs]
      exact ⟨rfl, hwidth, hheight⟩
    · cases h.symm.trans (exec_scale_of_not_runs src hruns); exact hs

/-- A command leaves the destination buffer ending with a written word: only a `SCALE` writes it. -/
theorem exec_keeps_dst (hs : dstGood s) : dstGood t := by
  obtain ⟨u, hu, -, -, -, -, -, -, -, -, -, udst⟩ := memoriesHaveTheirWriters i s
  cases h.symm.trans hu
  obtain e | ⟨src, destW, destH, rfl⟩ := udst
  · unfold dstGood; rwa [e]
  · by_cases hruns : scaleRuns s destW destH = true
    · cases h.symm.trans (exec_scale_of_runs src hruns)
      dsimp only [dstGood]
      exact scaleImage_back s src _ hs
    · cases h.symm.trans (exec_scale_of_not_runs src hruns); exact hs

/-- A command that clears the caches leaves nothing in them (44_tile_cache.md R228). -/
theorem exec_caches_of_clears (hclears : clearsCaches i s = true) : t.caches = Caches.empty := by
  cases i with
  | wrData a d =>
    cases h
    rw [advanceVaddr_caches, vWrite_palette d (of_decide_eq_true hclears)]
  | loadRgb k v => cases h; rfl
  | cclr => cases h; rfl
  | reset => cases h; rfl
  | _ => cases hclears

/-- A command that does not clear the caches leaves the palette and RGB bytes their blocks come from, and the caches
themselves unless it is `RENDER16`. -/
theorem exec_caches_of_not_clears (hclears : clearsCaches i s = false) :
    t.pal = s.pal ∧ t.rgb = s.rgb ∧ (t.caches = s.caches ∨ t.caches = (renderCanvas16 s).caches) := by
  obtain ⟨u, hu, -, -, upal, -, urgb, ucaches, -⟩ := memoriesHaveTheirWriters i s
  cases h.symm.trans hu
  refine ⟨?_, ?_, ?_⟩
  · obtain e | rfl | ⟨a, d, rfl⟩ := upal
    · exact e
    · cases hclears
    · cases h
      exact (vWrite_below_palette d (Nat.not_le.mp (of_decide_eq_false hclears))).1
  · obtain e | ⟨k, v, rfl⟩ := urgb
    · exact e
    · cases hclears
  · obtain e | rfl | e := ucaches
    · exact .inl e
    · cases h; exact .inr rfl
    · rw [hclears] at e; cases e

/-- No command writes the parameters or `CHR`. -/
theorem exec_cfg : t.cfg = s.cfg := by
  obtain ⟨u, hu, ucfg, -⟩ := memoriesHaveTheirWriters i s
  cases h.symm.trans hu
  exact ucfg

/-- Caches that hold only what the memories give do so after every command (44_tile_cache.md R231). -/
theorem exec_keeps_cachesGood (hs : cachesGood s s.caches) : cachesGood t t.caches := by
  cases hclears : clearsCaches i s with
  | true => rw [exec_caches_of_clears h hclears]; exact cachesGood_empty t
  | false =>
    obtain ⟨hpal, hrgb, e | e⟩ := exec_caches_of_not_clears h hclears
    · rw [e]; exact cachesGood_congr (exec_cfg h) hpal hrgb hs
    · rw [e]; exact cachesGood_congr (exec_cfg h) hpal hrgb (renderCanvas16_good hs).2

/-- Whatever the host has done to `CHR`, cached blocks stay those of their tags or keys (44_tile_cache.md R232). -/
theorem exec_keeps_cachesTagged (hs : cachesTagged s s.caches) : cachesTagged t t.caches := by
  cases hclears : clearsCaches i s with
  | true => rw [exec_caches_of_clears h hclears]; exact cachesTagged_empty t
  | false =>
    have hcfg : ∀ chr, (t.onChr chr).cfg = (s.onChr chr).cfg := fun chr => by simp only [State.onChr, exec_cfg h]
    obtain ⟨hpal, hrgb, e | e⟩ := exec_caches_of_not_clears h hclears
    · rw [e]; exact cachesTagged_congr hcfg hpal hrgb hs
    · rw [e]; exact cachesTagged_congr hcfg hpal hrgb (renderCanvas16_tagged hs)

/-- Every command keeps a good state good. -/
theorem exec_keeps_inv (hs : s.Inv) : t.Inv where
  params   := (congrArg Config.wf (exec_cfg h)).trans hs.params
  memories := exec_keeps_memories h hs.memories
  caches   := exec_keeps_cachesTagged h hs.caches
  scaler   := exec_keeps_scaleCache h hs.scaler
  dst      := exec_keeps_dst h hs.dst

end Exec

/-! ### The invariant: the host's turn and the step -/

/-- The host's turn keeps a good state good, and so does taking a command's words or clearing the byte returned: the
invariant speaks of no queue. -/
theorem hostTurn_withQueues_inv {s : State} (hs : s.Inv) (cmds : List Word) (result : Option Byte)
    (writes : List (List HostWrite)) : ((hostTurn s).withQueues cmds result writes).Inv where
  params   := hs.params
  memories := hs.memories
  caches   := cachesTagged_congr (fun _ => rfl) rfl rfl hs.caches
  scaler   := hs.scaler
  dst      := hostTurn_back s hs.dst

/-- A host that leaves `CHR` as it is leaves the caches true. -/
theorem hostTurn_withQueues_cachesGood {s : State} (hchr : (hostTurn s).cfg.chr = s.cfg.chr) {c : Caches}
    (hs : cachesGood s c) (cmds : List Word) (result : Option Byte) (writes : List (List HostWrite)) :
    cachesGood ((hostTurn s).withQueues cmds result writes) c := by
  have hcfg : (hostTurn s).cfg = s.cfg := by
    show { s.cfg with chr := (hostTurn s).cfg.chr } = s.cfg
    rw [hchr]
  exact cachesGood_congr hcfg rfl rfl hs

/-- A step is the host's turn and then, if the issued words hold one, a whole command, performed with its words taken
and no byte being returned. -/
theorem step_cases {s t : State} (h : step s = .next t) :
    (∃ e, decode s.cmds = .error e ∧ t = (hostTurn s).withQueues s.cmds none (hostTurn s).hostWrites) ∨
    ∃ i rest, decode s.cmds = .ok (i, rest) ∧
      exec i ((hostTurn s).withQueues rest none (hostTurn s).hostWrites) = .next t := by
  cases hd : decode s.cmds with
  | error e => cases (step_of_decode_error hd).symm.trans h; exact .inl ⟨e, rfl, rfl⟩
  | ok p =>
    obtain ⟨i, rest⟩ := p
    have hexec := step_of_decode_ok hd
    exact .inr ⟨i, rest, rfl, hexec.symm.trans h⟩

/-- Which commands clear the caches turns on `VADDR` alone. -/
theorem clearsCaches_congr {s t : State} (h : t.vaddr = s.vaddr) (i : Instr) : clearsCaches i t = clearsCaches i s := by
  unfold clearsCaches; rw [h]

/-- Settles O60: the host's turn keeps the state good, and so does the command the step performs, if it performs one. -/
theorem invariantIsKeptByEveryStep : Obligations.InvariantIsKeptByEveryStep := by
  intro s t hs hstep
  obtain ⟨e, hd, rfl⟩ | ⟨i, rest, hd, hexec⟩ := step_cases hstep
  · refine ⟨hostTurn_withQueues_inv hs _ _ _, fun hchr hgood => hostTurn_withQueues_cachesGood hchr hgood _ _ _,
      fun i rest hok => ?_⟩
    rw [hd] at hok; cases hok
  · refine ⟨exec_keeps_inv hexec (hostTurn_withQueues_inv hs _ _ _),
      fun hchr hgood => exec_keeps_cachesGood hexec (hostTurn_withQueues_cachesGood hchr hgood _ _ _),
      fun j rest' hok hclears => ?_⟩
    rw [hd] at hok; cases hok
    rw [exec_caches_of_clears hexec ((clearsCaches_congr rfl i).trans hclears)]
    exact cachesGood_empty t

/-! ### The state after power-on (10_state.md R43) -/

/-- Settles O59: nothing is listed in the memories and nothing is valid in the caches. -/
theorem invariantHoldsAtReset : Obligations.InvariantHoldsAtReset where
  left := {
    params := by decide
    memories := ⟨Memory.wf_nil _, Memory.wf_nil _, Memory.wf_nil _⟩
    caches := cachesTagged_empty _
    scaler := fun _ hsc => nomatch hsc
    dst := fun hback => nomatch hback }
  right := cachesGood_empty _

/-- Settles O58: the memories list nothing, the caches hold nothing, and each free value stands at its own place. -/
theorem powerOnState : Obligations.PowerOnState := by
  refine ⟨rfl, rfl, rfl, rfl, rfl, rfl, rfl, rfl, rfl, fun k => ⟨rfl, rfl, rfl⟩, fun k hk => ?_, rfl, rfl, fun k => ?_,
    fun k => ?_, fun k => ⟨?_, ?_⟩, rfl, rfl, rfl, rfl⟩
  · exact Vector.getElem_replicate hk
  · exact Vector.getElem_ofFn k.isLt
  · rfl
  · exact Vector.getElem_ofFn k.isLt
  · exact Vector.getElem_ofFn k.isLt

end Sys2Proof.Machine
end

section
/-! PROOF. Which bits a true-colour frame depends on: each part of `RENDER32` reads the same of two states that agree
on the bits the rules use (45_frame_renderer.md R270 d). -/

namespace Sys2Proof.Machine

/-- Two states that agree on every bit the rules of `RENDER32` use (10_state.md R22, R23, R26; 30_encoding.md R112,
R114). -/
structure SameUsedBits (s t : State) : Prop where
  chr     : t.cfg.chr = s.cfg.chr
  mirror  : t.cfg.mirror = s.cfg.mirror
  rgb     : t.rgb = s.rgb
  nt      : t.nt = s.nt
  scrollX : t.scrollX = s.scrollX
  ctrl    : t.ctrl &&& 0x19#8 = s.ctrl &&& 0x19#8
  mask    : t.mask &&& 0x18#8 = s.mask &&& 0x18#8
  pal     : ∀ k < 32, t.pal.read k &&& 0x3F#8 = s.pal.read k &&& 0x3F#8
  oam     : ∀ k < 256, k % 4 ≠ 2 → t.oam.read k = s.oam.read k
  attr    : ∀ i < 64, t.oam.read (4 * i + 2) &&& 0xE3#8 = s.oam.read (4 * i + 2) &&& 0xE3#8

/-- Bytes that agree under a mask agree on every bit of it. -/
theorem getLsbD_eq_of_and_eq {a b m : Byte} (h : b &&& m = a &&& m) {k : Nat} (hk : m.getLsbD k = true) :
    b.getLsbD k = a.getLsbD k := by
  have hbit := congrArg (·.getLsbD k) h
  simpa only [BitVec.getLsbD_and, hk, Bool.and_true] using hbit

/-! ### Colours and blocks -/

/-- A colour is chosen by the low six bits of its palette byte (30_encoding.md R114). -/
theorem colour32_eq_of_low_bits (rgb : Vector Word 64) {e e' : Byte} (h : e' &&& 0x3F#8 = e &&& 0x3F#8) :
    colour32 rgb e' = colour32 rgb e := by
  have hlow : ∀ b : Byte, (b &&& 0x3F#8).toNat = b.toNat % 64 := fun b => Nat.and_two_pow_sub_one_eq_mod b.toNat 6
  have hmod : e'.toNat % 64 = e.toNat % 64 := by rw [← hlow, ← hlow, h]
  simp only [colour32, hmod]

/-- Every palette byte a pixel can be given stands below 32, so the colours it takes are those of the low bits. -/
theorem palByte_colour32_congr (rgb : Vector Word 64) {pal pal' : Memory}
    (h : ∀ k < 32, pal'.read k &&& 0x3F#8 = pal.read k &&& 0x3F#8) (pt : PaletteType) (attr : BitVec 4)
    (idx : BitVec 2) :
    (palByte pal' pt attr idx).map (colour32 rgb) = (palByte pal pt attr idx).map (colour32 rgb) := by
  have hcolour : ∀ k < 32, colour32 rgb (pal'.read k) = colour32 rgb (pal.read k) :=
    fun k hk => colour32_eq_of_low_bits rgb (h k hk)
  have hidx := idx.isLt
  cases pt with
  | background =>
    simp only [palByte]
    split
    · exact congrArg some (hcolour 0 (by decide))
    · exact congrArg some (hcolour _ (by omega))
  | sprite p =>
    have hp := p.isLt
    simp only [palByte]
    split
    · rfl
    · exact congrArg some (hcolour _ (by omega))

/-! ### Background cells and sprites -/

/-- The cells of the background pass lie in the first three nametables. -/
theorem backgroundCells_bounds {s : State} {c : BgCell} (hc : c ∈ backgroundCells s) :
    0x2000 ≤ c.base ∧ c.base ≤ 0x2800 ∧ c.tx < 32 ∧ c.ty < 30 := by
  have hscroll := effectiveScroll_lt s.ctrl s.scrollX
  rcases List.mem_append.mp hc with hm | hm
  · simp only [statusCells, statusRows, bgCols, List.mem_flatMap, List.mem_map, List.mem_range] at hm
    obtain ⟨ty, hty, tx, htx, rfl⟩ := hm
    dsimp only
    omega
  · simp only [scrolledCells, columnCells, statusRows, bgRows, List.mem_flatMap, List.mem_map, List.mem_range'_1] at hm
    obtain ⟨col, hcol, ty, hty, rfl⟩ := hm
    unfold window
    split_ifs <;> dsimp only <;> omega

section UsedBitsOfAttribute

variable (sp : Sprite) {attr : Byte} (hattr : attr &&& 0xE3#8 = sp.attr &&& 0xE3#8)
include hattr

/-- The sprite palette is bits 1:0 of the `attr` byte, both used. -/
theorem attrSpal_eq_of_used_bits : attrSpal attr = attrSpal sp.attr := by
  have hlow : ∀ a : Byte, attrSpal (a &&& 0xE3#8) = attrSpal a := fun a => by
    have hones : (0xE3#8).extractLsb' 0 2 = BitVec.allOnes 2 := by decide
    simp only [attrSpal, BitVec.extractLsb'_and, hones, BitVec.and_allOnes]
  rw [← hlow attr, hattr, hlow]

theorem inBehindPass_of_used_bits : inBehindPass { sp with attr := attr } = inBehindPass sp := by
  have hbehind : attrBehind attr = attrBehind sp.attr := getLsbD_eq_of_and_eq hattr rfl
  simp only [inBehindPass, visible, hbehind]

theorem inFrontPass_of_used_bits : inFrontPass { sp with attr := attr } = inFrontPass sp := by
  have hbehind : attrBehind attr = attrBehind sp.attr := getLsbD_eq_of_and_eq hattr rfl
  simp only [inFrontPass, special, visible, hbehind]

theorem blitSprite_of_used_bits {n : Nat} (test : Option (BitVec n)) (f : Block n) (fb : Frame n) :
    blitSprite { sp with attr := attr } test f fb = blitSprite sp test f fb := by
  have hx : attrFlipX attr = attrFlipX sp.attr := getLsbD_eq_of_and_eq hattr rfl
  have hy : attrFlipY attr = attrFlipY sp.attr := getLsbD_eq_of_and_eq hattr rfl
  have hrow : ∀ Y, spriteRow { sp with attr := attr } Y = spriteRow sp Y := fun Y => by simp only [spriteRow, hy]
  have hcol : ∀ X, spriteCol { sp with attr := attr } X = spriteCol sp X := fun X => by simp only [spriteCol, hx]
  refine Frame.ext_at fun X Y => ?_
  rw [blitSprite_at, blitSprite_at, blockPixel, hrow, hcol]
  rfl

end UsedBitsOfAttribute

/-! ### The parts of a frame, of two states that agree on the used bits -/

namespace SameUsedBits

variable {s t : State} (h : SameUsedBits s t)
include h

theorem block32 (tile : Nat) (pt : PaletteType) (attr : BitVec 4) (fx fy : Bool) :
    block32 t tile pt attr fx fy = block32 s tile pt attr fx fy :=
  Block.ext_at fun r p => by
    rw [Block.at_block32, Block.at_block32, h.chr, h.rgb, palByte_colour32_congr s.rgb h.pal]

theorem ubc32 : ubc32 t = ubc32 s := by
  simp only [Machine.ubc32, h.rgb, colour32_eq_of_low_bits s.rgb (h.pal 0 (by decide))]

/-- A nametable read sees `MIRROR` and `NT` alone. -/
theorem vRead_nametable {a : Nat} (ha : 0x2000 ≤ a) (ha' : a < 0x3F00) :
    vRead t (BitVec.ofNat 16 a) = vRead s (BitVec.ofNat 16 a) := by
  have hmod : a % 0x4000 = a := by omega
  have hppu : ppuAddr (BitVec.ofNat 16 a) = a := (ppuAddr_ofNat a).trans hmod
  rw [Machine.vRead_nametable (by omega) (by omega), Machine.vRead_nametable (by omega) (by omega), h.mirror, h.nt]

theorem backgroundCells : backgroundCells t = backgroundCells s := by
  have hntx : ctrlNtx t.ctrl = ctrlNtx s.ctrl := getLsbD_eq_of_and_eq h.ctrl rfl
  simp only [Machine.backgroundCells, effectiveScroll, hntx, h.scrollX]

theorem drawCell32 {c : BgCell} (hc : c ∈ Machine.backgroundCells s) (fb : Frame 32) :
    drawCell32 t c fb = drawCell32 s c fb := by
  obtain ⟨hlow, hhigh, htx, hty⟩ := backgroundCells_bounds hc
  have hbpt : ctrlBpt t.ctrl = ctrlBpt s.ctrl := getLsbD_eq_of_and_eq h.ctrl rfl
  have htile : bgTile t c = bgTile s c := by
    simp only [bgTile, hbpt, h.vRead_nametable (a := c.base + 32 * c.ty + c.tx) (by omega) (by omega)]
  have hattr : bgAttr t c = bgAttr s c := by
    simp only [bgAttr, attrOf,
      h.vRead_nametable (a := c.base + 0x3C0 + 8 * (c.ty / 4) + c.tx / 4) (by omega) (by omega)]
  simp only [Machine.drawCell32, htile, hattr, h.block32]

theorem drawSprite32 (sp : Sprite) {attr : Byte} (hattr : attr &&& 0xE3#8 = sp.attr &&& 0xE3#8) (fb : Frame 32) :
    drawSprite32 t { sp with attr := attr } fb = drawSprite32 s sp fb := by
  have hspt : ctrlSpt t.ctrl = ctrlSpt s.ctrl := getLsbD_eq_of_and_eq h.ctrl rfl
  have hx : attrFlipX attr = attrFlipX sp.attr := getLsbD_eq_of_and_eq hattr rfl
  have hy : attrFlipY attr = attrFlipY sp.attr := getLsbD_eq_of_and_eq hattr rfl
  simp only [Machine.drawSprite32, spriteTile, hspt, hx, hy, attrSpal_eq_of_used_bits sp hattr, h.block32,
    blitSprite_of_used_bits sp hattr]

/-- Sprite `i` is read alike but for bits 4:2 of its `attr` byte, which no rule uses (30_encoding.md R112). -/
theorem readSprite {i : Nat} (hi : i < 64) : ∃ attr, attr &&& 0xE3#8 = (readSprite s.oam i).attr &&& 0xE3#8 ∧
    readSprite t.oam i = { readSprite s.oam i with attr := attr } := by
  refine ⟨t.oam.read (4 * i + 2), h.attr i hi, ?_⟩
  simp only [Machine.readSprite, h.oam (4 * i) (by omega) (by omega), h.oam (4 * i + 1) (by omega) (by omega),
    h.oam (4 * i + 3) (by omega) (by omega)]

/-- A pass over the sprites draws the same, if the bits used decide which sprites are in it. -/
theorem spritePass {inPass : Sprite → Bool}
    (hpass : ∀ (sp : Sprite) {attr : Byte}, attr &&& 0xE3#8 = sp.attr &&& 0xE3#8 →
      inPass { sp with attr := attr } = inPass sp)
    {order : List Nat} (horder : ∀ i ∈ order, i < 64) (fb : Frame 32) :
    order.foldl (fun fb i => if inPass (Machine.readSprite t.oam i) then
      Machine.drawSprite32 t (Machine.readSprite t.oam i) fb else fb) fb =
    order.foldl (fun fb i => if inPass (Machine.readSprite s.oam i) then
      Machine.drawSprite32 s (Machine.readSprite s.oam i) fb else fb) fb := by
  refine List.foldl_ext _ _ _ fun fb i hmem => ?_
  obtain ⟨attr, hattr, hread⟩ := h.readSprite (horder i hmem)
  rw [hread, hpass _ hattr, h.drawSprite32 _ hattr]

theorem renderFrame32 : renderFrame32 t = renderFrame32 s := by
  have hspen : maskSpen t.mask = maskSpen s.mask := getLsbD_eq_of_and_eq h.mask rfl
  have hbgen : maskBgen t.mask = maskBgen s.mask := getLsbD_eq_of_and_eq h.mask rfl
  have hbehind : ∀ fb, behindPass t (Machine.drawSprite32 t) fb = behindPass s (Machine.drawSprite32 s) fb :=
    h.spritePass inBehindPass_of_used_bits (by decide)
  have hfront : ∀ fb, frontPass t (Machine.drawSprite32 t) fb = frontPass s (Machine.drawSprite32 s) fb :=
    h.spritePass inFrontPass_of_used_bits (by decide)
  have hback : ∀ fb, backgroundPass t (Machine.drawCell32 t) fb = backgroundPass s (Machine.drawCell32 s) fb := by
    intro fb
    unfold backgroundPass
    rw [h.backgroundCells]
    exact List.foldl_ext _ _ _ fun fb c hc => h.drawCell32 hc fb
  simp only [Machine.renderFrame32, renderPasses, hspen, hbgen, h.ubc32, hbehind, hback, hfront]

end SameUsedBits

/-- Settles O49: the two frames are built alike, pass by pass. -/
theorem frameDependsOnUsedBitsOnly : Obligations.FrameDependsOnUsedBitsOnly := by
  intro s t hchr hmirror hrgb hnt hscrollX hctrl hmask hpal hoam hattr
  have h : SameUsedBits s t := ⟨hchr, hmirror, hrgb, hnt, hscrollX, hctrl, hmask, hpal, hoam, hattr⟩
  exact ⟨_, _, rfl, rfl, h.renderFrame32⟩

end Sys2Proof.Machine
end

section
/-! PROOF. Memory as a command sees it (20_memory.md): the places of the 14-bit address space, what a read and a write of
each region do, and that a command sees nothing of what stands in the queues. -/

namespace Sys2Proof.Machine

/-! ### Places (20_memory.md R65, R71) -/

theorem ppuAddr_eq_toNat {a : Addr} (h : a.toNat < 0x4000) : ppuAddr a = a.toNat := Nat.mod_eq_of_lt h

theorem ppuAddr_add_0x4000 (a : Addr) : ppuAddr (a + 0x4000#16) = ppuAddr a := by
  simp only [ppuAddr, BitVec.toNat_add, BitVec.toNat_ofNat]
  omega

/-- A read sees an address only through its 14-bit reduction. -/
theorem vRead_of_ppuAddr_eq (s : State) {a b : Addr} (h : ppuAddr b = ppuAddr a) : vRead s b = vRead s a := by
  simp only [vRead, h]

/-- A write sees an address only through its 14-bit reduction. -/
theorem vWrite_of_ppuAddr_eq (s : State) {a b : Addr} (v : Byte) (h : ppuAddr b = ppuAddr a) :
    vWrite s b v = vWrite s a v := by
  simp only [vWrite, h]

theorem toNat_and_0x1F (a : Addr) : (a &&& 0x1F#16).toNat = palIndex a.toNat :=
  Nat.and_two_pow_sub_one_eq_mod a.toNat 5

/-- The palette index of an address, put in the low bits of 0x3F00, is the first address of that palette byte. -/
theorem toNat_palette_base (a : Addr) : (0x3F00#16 ||| (a &&& 0x1F#16)).toNat = 0x3F00 + palIndex a.toNat := by
  rw [BitVec.toNat_or, toNat_and_0x1F]
  exact (Nat.two_pow_add_eq_or_of_lt (i := 8) ((palIndex_lt _).trans (by decide)) 0x3F).symm

/-! ### Nametable addresses (20_memory.md R68, R69, R72) -/

/-- The offset into nametable space, as `NTIndex` reduces it. -/
theorem toNat_nametable_offset {a : Addr} (h : 0x2000 ≤ a.toNat) :
    ((a - 0x2000#16) &&& 0x0FFF#16).toNat = (a.toNat - 0x2000) % 0x1000 := by
  have hle : 0x2000#16 ≤ a := BitVec.le_def.mpr h
  rw [BitVec.toNat_and, BitVec.toNat_sub_of_le hle]
  exact Nat.and_two_pow_sub_one_eq_mod _ 12

/-- `NTIndex` by the logical nametable `t` in bits 11:10 of the offset. -/
theorem ntIndex_of_nametable (mirror : Vector (Fin 2) 4) {a : Nat} {t : Fin 4}
    (ht : (a - 0x2000) % 0x1000 / 0x400 = t.val) :
    ntIndex mirror a = mirror[t].val * 0x400 + (a - 0x2000) % 0x400 := by
  simp only [ntIndex, ht, Fin.getElem_fin]

/-- Settles O27: bits 11:10 and 9:0 of the offset are its quotient and remainder by 0x400. -/
theorem ntIndexFollowsMirrorTable : Obligations.NtIndexFollowsMirrorTable := by
  refine ⟨fun mirror a t hlow _ htable => ⟨?_, ntIndex_lt mirror a.toNat⟩, rfl, by decide⟩
  rw [BitVec.toNat_ushiftRight, toNat_nametable_offset hlow, Nat.shiftRight_eq_div_pow] at htable
  have hinside : (((a - 0x2000#16) &&& 0x0FFF#16) &&& 0x3FF#16).toNat = (a.toNat - 0x2000) % 0x400 := by
    rw [BitVec.toNat_and, toNat_nametable_offset hlow]
    exact (Nat.and_two_pow_sub_one_eq_mod _ 10).trans (Nat.mod_mod_of_dvd _ (by decide))
  rw [hinside]
  exact ntIndex_of_nametable mirror htable

/-! ### Palette writes (20_memory.md R70) -/

theorem mirroredSlot_iff_mem (p : Nat) : mirroredSlot p = true ↔ p ∈ [0x10, 0x14, 0x18, 0x1C] := by
  simp [mirroredSlot, or_assoc]

/-- What a palette write at index `p` leaves in every palette byte, the mirrored slots listed. -/
theorem paletteStore_read_slots (pal : Memory) (p k : Nat) (v : Byte) : (paletteStore pal p v).read k =
    if k = p ∨ (p ∈ [0x10, 0x14, 0x18, 0x1C] ∧ k + 0x10 = p) then v else pal.read k := by
  simp only [paletteStore_read, mirroredSlot_iff_mem]

/-- Settles O29: the store is known byte by byte, and the slot 16 below is read back at its own address. -/
theorem paletteWriteMirrorsOneWay : Obligations.PaletteWriteMirrorsOneWay := by
  intro s p v base hbase
  have hp := p.isLt
  have hindex : palIndex (ppuAddr base) = p.val := by simp only [palIndex, ppuAddr]; omega
  have hwrite := vWrite_palette (s := s) (a := base) v (by simp only [ppuAddr]; omega)
  rw [hindex] at hwrite
  simp only [hwrite]
  refine ⟨trivial, by simp [paletteStore_read_slots], fun hmem => ?_, fun hmem k hk => ?_⟩
  · have hle : 0x10 ≤ p.val := by
      obtain h | h | h | h := mirroredSlot_cases ((mirroredSlot_iff_mem _).mpr hmem) <;> omega
    have hbelow : (paletteStore s.pal p.val v).read (p.val - 0x10) = v := by
      rw [paletteStore_read_slots, if_pos (.inr ⟨hmem, Nat.sub_add_cancel hle⟩)]
    have hread : ppuAddr (BitVec.ofNat 16 (0x3F00 + p.val - 0x10)) = 0x3F00 + (p.val - 0x10) := by
      rw [ppuAddr_ofNat]; omega
    refine ⟨hbelow, ?_, fun k hk hk' => ?_⟩
    · rw [vRead_palette (by omega), hread, palIndex, show (0x3F00 + (p.val - 0x10)) % 0x20 = p.val - 0x10 by omega]
      exact hbelow
    · rw [paletteStore_read_slots, if_neg (by omega)]
  · rw [paletteStore_read_slots, if_neg (not_or.mpr ⟨hk, fun h => hmem h.1⟩)]

/-! ### The regions of the address space (20_memory.md R65 to R67, R71 to R73) -/

/-- 0x3000 to 0x3EFF is the same nametable bytes as 0x1000 below, for reads and writes (20_memory.md R72). -/
theorem nametable_mirror (s : State) {a : Addr} (v : Byte) (hlow : 0x3000 ≤ a.toNat) (hhigh : a.toNat < 0x3F00) :
    vRead s a = vRead s (a - 0x1000#16) ∧ vWrite s a v = vWrite s (a - 0x1000#16) v := by
  have hbelow : (a - 0x1000#16).toNat = a.toNat - 0x1000 :=
    BitVec.toNat_sub_of_le (BitVec.le_def.mpr (Nat.le_trans (by decide) hlow))
  have ha : ppuAddr a = a.toNat := ppuAddr_eq_toNat (by omega)
  have hb : ppuAddr (a - 0x1000#16) = a.toNat - 0x1000 := (ppuAddr_eq_toNat (by omega)).trans hbelow
  have hindex : ntIndex s.cfg.mirror (a.toNat - 0x1000) = ntIndex s.cfg.mirror a.toNat := by
    rw [← ntIndex_add_0x1000 _ _ (by omega), Nat.sub_add_cancel (by omega)]
  constructor
  · rw [vRead_nametable (by omega) (by omega), vRead_nametable (by omega) (by omega), ha, hb, hindex]
  · rw [vWrite_nametable v (by omega) (by omega), vWrite_nametable v (by omega) (by omega), ha, hb, hindex]

/-- From 0x3F00 the low five bits name the palette byte, for reads and writes (20_memory.md R71). -/
theorem palette_mirror (s : State) {a : Addr} (v : Byte) (hlow : 0x3F00 ≤ ppuAddr a) :
    vRead s a = vRead s (0x3F00#16 ||| (a &&& 0x1F#16)) ∧
      vWrite s a v = vWrite s (0x3F00#16 ||| (a &&& 0x1F#16)) v := by
  have hlt : palIndex a.toNat < 0x20 := palIndex_lt _
  have hb : ppuAddr (0x3F00#16 ||| (a &&& 0x1F#16)) = 0x3F00 + palIndex a.toNat := by
    rw [ppuAddr_eq_toNat, toNat_palette_base]
    rw [toNat_palette_base]; omega
  have hindex : palIndex (0x3F00 + palIndex a.toNat) = palIndex (ppuAddr a) := by
    simp only [palIndex, ppuAddr]; omega
  constructor
  · rw [vRead_palette hlow, vRead_palette (by omega), hb, hindex]
  · rw [vWrite_palette v hlow, vWrite_palette v (by omega), hb, hindex]

/-- Settles O28, region by region. -/
theorem addressSpaceRegionsAndMirrors : Obligations.AddressSpaceRegionsAndMirrors := by
  refine ⟨fun s a v => ?_, fun s a v h => ?_, fun s a d h => ?_, fun s a v hlow hhigh => ?_,
    fun s a v hlow hhigh => nametable_mirror s v hlow hhigh, fun s a v hlow hhigh => ?_⟩
  · exact ⟨vRead_of_ppuAddr_eq s (ppuAddr_add_0x4000 a), vWrite_of_ppuAddr_eq s v (ppuAddr_add_0x4000 a)⟩
  · have ha : ppuAddr a = a.toNat := ppuAddr_eq_toNat (by omega)
    have hpat : ppuAddr a < 0x2000 := ha ▸ h
    exact ⟨by simp only [vRead_pattern hpat, ha], vWrite_pattern v hpat⟩
  · show Host.Outcome.next (advanceVaddr (vWrite s s.vaddr d)) = _
    rw [vWrite_pattern d h]
    rfl
  · have ha : ppuAddr a = a.toNat := ppuAddr_eq_toNat (by omega)
    rw [vRead_nametable (by omega) (by omega), vWrite_nametable v (by omega) (by omega), ha]
    exact ⟨rfl, _, rfl, Memory.read_write_self .., fun k hk => Memory.read_write_ne _ v hk⟩
  · have ha : ppuAddr a = a.toNat := ppuAddr_eq_toNat hhigh
    have hpal : 0x3F00 ≤ ppuAddr a := ha ▸ hlow
    obtain ⟨hread, hwrite⟩ := palette_mirror s v hpal
    refine ⟨?_, hread, hwrite, paletteStore s.pal (a &&& 0x1F#16).toNat v, ?_, fun k => paletteStore_read_slots ..⟩
    · rw [vRead_palette hpal, ha, toNat_and_0x1F]
    · rw [vWrite_palette v hpal, ha, toNat_and_0x1F]

/-! ### What a command sees (20_memory.md R80) -/

/-- Settles O10: a command is the same over any queues, the ones it finds among them. -/
theorem commandsDoNotSeeLaterCommands : Obligations.CommandsDoNotSeeLaterCommands := by
  intro i s later writes
  obtain ⟨_, -, hqueues⟩ := exec_withQueues i s
  exact ⟨_, hqueues s.cmds s.result s.hostWrites, rfl, rfl, hqueues later s.result writes⟩

end Sys2Proof.Machine
end

section
/-! PROOF. Command words (30_encoding.md R100 to R108): what each word decodes to, that its ignored fields say nothing,
and the row of the opcode table it stands for. -/

namespace Sys2Proof.Machine

/-! ### Operand masks (30_encoding.md R101 to R104) -/

/-- A field that a mask keeps reads the same of the masked word. -/
theorem extractLsb'_and_of_allOnes (w : Word) {m : Word} {start len : Nat}
    (h : m.extractLsb' start len = BitVec.allOnes len) :
    (w &&& m).extractLsb' start len = w.extractLsb' start len := by
  rw [BitVec.extractLsb'_and, h, BitVec.and_allOnes]

/-- Every mask keeps `OP`. -/
theorem opField_and_operandMask (w : Word) (op : BitVec 4) : opField (w &&& operandMask op) = opField w :=
  extractLsb'_and_of_allOnes w (by revert op; decide)

/-- Format N keeps `OP` alone. -/
theorem and_plainMask (w : Word) : w &&& 0xF0000000#32 = plainWord (opField w) :=
  (and_eq_iff_bits ..).mpr fun i hi => by
    simp only [plainWord, opField, BitVec.getLsbD_append, BitVec.getLsbD_extractLsb']
    interval_cases i <;> simp

/-- A mask in format B masks `ADDR` and `DATA` each on its own. -/
theorem and_busMask (w : Word) (x : Addr) (y : Byte) :
    w &&& busWord 0xF#4 x y = busWord (opField w) (addrField w &&& x) (dataField w &&& y) :=
  (and_eq_iff_bits ..).mpr fun i hi => by
    simp only [busWord, opField, addrField, dataField, BitVec.getLsbD_append, BitVec.getLsbD_and,
      BitVec.getLsbD_extractLsb']
    interval_cases i <;> simp

/-- `RD` keeps `ADDR`. -/
theorem and_readMask (w : Word) : w &&& operandMask 0x0#4 = busWord (opField w) (addrField w) 0#8 := by
  rw [show operandMask 0x0#4 = busWord 0xF#4 (BitVec.allOnes 16) 0#8 by decide, and_busMask, BitVec.and_allOnes,
    BitVec.and_zero]

/-- `WR` keeps `ADDR` and `DATA`. -/
theorem and_writeMask (w : Word) : w &&& operandMask 0x1#4 = busWord (opField w) (addrField w) (dataField w) := by
  rw [show operandMask 0x1#4 = busWord 0xF#4 (BitVec.allOnes 16) (BitVec.allOnes 8) by decide, and_busMask,
    BitVec.and_allOnes, BitVec.and_allOnes]

/-- `DMA` keeps `DATA`. -/
theorem and_dmaMask (w : Word) : w &&& operandMask 0x2#4 = busWord (opField w) 0#16 (dataField w) := by
  rw [show operandMask 0x2#4 = busWord 0xF#4 0#16 (BitVec.allOnes 8) by decide, and_busMask, BitVec.and_zero,
    BitVec.and_allOnes]

theorem srcBit_srcField (w : Word) : srcBit (srcField w) = w.extractLsb' 27 1 := by
  have hbit : w.extractLsb' 27 1 = BitVec.ofBool (w.getLsbD 27) := by
    ext i hi; obtain rfl : i = 0 := by omega
    simp
  rw [hbit, srcField]
  cases w.getLsbD 27 <;> rfl

/-- Format S keeps all but bit 26. -/
theorem and_scaleMask {w : Word} (h : opField w = 0x5#4) :
    w &&& operandMask 0x5#4 = scaleWord (srcField w) (destWField w) (destHField w) :=
  (and_eq_iff_bits ..).mpr fun i hi => by
    rw [show operandMask 0x5#4 = 0xFBFFFFFF#32 from rfl]
    simp only [scaleWord, srcBit_srcField, ← h, opField, destWField, destHField, BitVec.getLsbD_append,
      BitVec.getLsbD_extractLsb']
    interval_cases i <;> simp

/-- Format L keeps `OP` and `INDEX`. -/
theorem and_loadMask {w : Word} (h : opField w = 0x7#4) : w &&& operandMask 0x7#4 = loadWord (indexField w) :=
  (and_eq_iff_bits ..).mpr fun i hi => by
    rw [show operandMask 0x7#4 = 0xF000003F#32 from rfl]
    simp only [loadWord, ← h, opField, indexField, BitVec.getLsbD_append, BitVec.getLsbD_extractLsb']
    interval_cases i <;> simp

/-! ### The command of a word -/

/-- What decoding ensures of the command of a first word `w`: it has that word's `OP`, its address operand selects its
own sub-opcode, and its words are `w` with the ignored fields zero, followed by `values`. -/
structure CommandOf (w : Word) (values : List Word) (i : Instr) : Prop where
  opCode : i.opCode = opField w
  wellFormed : i.wellFormed = true
  words : encode i = (w &&& operandMask (opField w)) :: values

/-- The command of a word of format N is its `OP` alone. -/
theorem commandOf_plain {w : Word} {i : Instr} (hop : opField w = i.opCode) (hwf : i.wellFormed = true)
    (hmask : operandMask i.opCode = 0xF0000000#32) (henc : encode i = [plainWord i.opCode]) : CommandOf w [] i :=
  ⟨hop.symm, hwf, by rw [hop, hmask, and_plainMask, hop, henc]⟩

theorem commandOf_decodeRead {w : Word} (h : opField w = 0x0#4) : CommandOf w [] (decodeRead (addrField w)) := by
  have hword : w &&& operandMask (opField w) = busWord 0x0#4 (addrField w) 0#8 := by rw [h, and_readMask, h]
  unfold decodeRead
  split_ifs with h2 h4 h7
  · exact ⟨h.symm, beq_iff_eq.mpr h2, hword ▸ rfl⟩
  · exact ⟨h.symm, beq_iff_eq.mpr h4, hword ▸ rfl⟩
  · exact ⟨h.symm, beq_iff_eq.mpr h7, hword ▸ rfl⟩
  · exact ⟨h.symm, by simp [Instr.wellFormed, readablePort, h2, h4, h7], hword ▸ rfl⟩

theorem commandOf_decodeWrite {w : Word} (h : opField w = 0x1#4) :
    CommandOf w [] (decodeWrite (addrField w) (dataField w)) := by
  have hword : w &&& operandMask (opField w) = busWord 0x1#4 (addrField w) (dataField w) := by
    rw [h, and_writeMask, h]
  unfold decodeWrite
  split_ifs with h0 h1 h3 h4 h5 h6 h7
  · exact ⟨h.symm, beq_iff_eq.mpr h0, hword ▸ rfl⟩
  · exact ⟨h.symm, beq_iff_eq.mpr h1, hword ▸ rfl⟩
  · exact ⟨h.symm, beq_iff_eq.mpr h3, hword ▸ rfl⟩
  · exact ⟨h.symm, beq_iff_eq.mpr h4, hword ▸ rfl⟩
  · exact ⟨h.symm, beq_iff_eq.mpr h5, hword ▸ rfl⟩
  · exact ⟨h.symm, beq_iff_eq.mpr h6, hword ▸ rfl⟩
  · exact ⟨h.symm, beq_iff_eq.mpr h7, hword ▸ rfl⟩
  · exact ⟨h.symm, by simp [Instr.wellFormed, writablePort, h0, h1, h3, h4, h5, h6, h7], hword ▸ rfl⟩

theorem commandOf_loadRgb {w : Word} (v : Word) (h : opField w = 0x7#4) :
    CommandOf w [v] (.loadRgb (indexField w) v) :=
  ⟨h.symm, rfl, by rw [h, and_loadMask h]; rfl⟩

/-- A word that is no `LOADRGB` is a whole command, whatever follows it (30_encoding.md R108). -/
theorem decode_of_op_ne_7 {w : Word} (h : opField w ≠ 0x7#4) :
    ∃ i, (∀ rest, decode (w :: rest) = .ok (i, rest)) ∧ CommandOf w [] i := by
  rcases op_cases (opField w) with
    op | op | op | op | op | op | op | op | op | op | op | op | op | op | op | op
  · exact ⟨_, fun rest => decode_rd rest op, commandOf_decodeRead op⟩
  · exact ⟨_, fun rest => decode_wr rest op, commandOf_decodeWrite op⟩
  · exact ⟨_, fun rest => decode_dma rest op, op.symm, rfl, by rw [op, and_dmaMask, op]; rfl⟩
  · exact ⟨_, fun rest => decode_render32 rest op, commandOf_plain op rfl rfl rfl⟩
  · exact ⟨_, fun rest => decode_render16 rest op, commandOf_plain op rfl rfl rfl⟩
  · exact ⟨_, fun rest => decode_scale rest op, op.symm, rfl, by rw [op, and_scaleMask op]; rfl⟩
  · exact ⟨_, fun rest => decode_cclr rest op, commandOf_plain op rfl rfl rfl⟩
  · exact absurd op h
  · exact ⟨_, fun rest => decode_reset rest op, commandOf_plain op rfl rfl rfl⟩
  · exact ⟨_, fun rest => decode_reserved9 rest op, commandOf_plain op rfl rfl rfl⟩
  · exact ⟨_, fun rest => decode_reservedA rest op, commandOf_plain op rfl rfl rfl⟩
  · exact ⟨_, fun rest => decode_reservedB rest op, commandOf_plain op rfl rfl rfl⟩
  · exact ⟨_, fun rest => decode_reservedC rest op, commandOf_plain op rfl rfl rfl⟩
  · exact ⟨_, fun rest => decode_reservedD rest op, commandOf_plain op rfl rfl rfl⟩
  · exact ⟨_, fun rest => decode_reservedE rest op, commandOf_plain op rfl rfl rfl⟩
  · exact ⟨_, fun rest => decode_reservedF rest op, commandOf_plain op rfl rfl rfl⟩

/-- Whatever decodes is the command of its first word and of the words it took after that one. -/
theorem commandOf_of_decode {w : Word} {rest after : List Word} {i : Instr} (h : decode (w :: rest) = .ok (i, after)) :
    ∃ values, CommandOf w values i ∧ values ++ after = rest := by
  by_cases hop : opField w = 0x7#4
  · cases rest with
    | nil => cases (decode_loadRgb_alone hop).symm.trans h
    | cons v rest =>
      cases (decode_loadRgb v rest hop).symm.trans h
      exact ⟨[v], commandOf_loadRgb v hop, rfl⟩
  · obtain ⟨j, hj, hcommand⟩ := decode_of_op_ne_7 hop
    cases (hj rest).symm.trans h
    exact ⟨[], hcommand, rfl⟩

/-! ### Ignored fields (30_encoding.md R100) -/

/-- The word with its ignored fields zero, and the values of its command, are that command. -/
theorem CommandOf.decode_masked {w : Word} {values : List Word} {i : Instr} (h : CommandOf w values i)
    (rest : List Word) : decode ((w &&& operandMask (opField w)) :: (values ++ rest)) = .ok (i, rest) := by
  rw [← List.cons_append, ← h.words, decode_encode_append h.wellFormed]

/-- With its ignored fields zero a word decodes as it is. -/
theorem decode_and_operandMask (w : Word) (rest : List Word) :
    decode ((w &&& operandMask (opField w)) :: rest) = decode (w :: rest) := by
  by_cases hop : opField w = 0x7#4
  · cases rest with
    | nil => rw [decode_loadRgb_alone hop, decode_loadRgb_alone ((opField_and_operandMask w _).trans hop)]
    | cons v rest => exact ((commandOf_loadRgb v hop).decode_masked rest).trans (decode_loadRgb v rest hop).symm
  · obtain ⟨i, hi, hcommand⟩ := decode_of_op_ne_7 hop
    exact (hcommand.decode_masked rest).trans (hi rest).symm

/-- Words that agree outside the ignored fields of their `OP` decode alike. -/
theorem decode_eq_of_and_operandMask_eq {w w' : Word} (rest : List Word)
    (h : w &&& operandMask (opField w) = w' &&& operandMask (opField w)) :
    decode (w :: rest) = decode (w' :: rest) := by
  have hop : opField w = opField w' := by
    rw [← opField_and_operandMask w (opField w), h, opField_and_operandMask]
  rw [← decode_and_operandMask w, h, hop, decode_and_operandMask]

/-! ### The opcode table (30_encoding.md R106) -/

/-- A row that names a command by `OP` alone covers the words of that `OP`. -/
theorem covers_opRow (name : String) (w b : Word) (hb : b.extractLsb' 0 28 = 0#28) :
    (TableRow.mk name 0xF0000000#32 b).covers w = decide (opField w = b.extractLsb' 28 4) :=
  (beq_eq_decide _ _).trans (decide_eq_decide.mpr (and_opMask w b hb))

/-- A row that names a sub-opcode covers the words of its `OP` with its reduced address. -/
theorem covers_portRow (name : String) (w b : Word) (hb : b &&& 0xF03FFF00#32 = b) :
    (TableRow.mk name 0xF03FFF00#32 b).covers w =
      decide (opField w = b.extractLsb' 28 4 ∧ portAddr (addrField w) = b.extractLsb' 8 16 &&& 0x3FFF#16) :=
  (beq_eq_decide _ _).trans (decide_eq_decide.mpr (and_portMask w b hb))

/-- The address operand of an `RD` or `WR` is that of its word. -/
theorem CommandOf.addrField_eq {w : Word} {values : List Word} {i : Instr} (h : CommandOf w values i) {op : BitVec 4}
    {a : Addr} {d : Byte} (henc : encode i = [busWord op a d]) (hop : op = 0x0#4 ∨ op = 0x1#4) : addrField w = a := by
  obtain ⟨hword, -⟩ := List.cons_eq_cons.mp (henc.symm.trans h.words)
  have hopw : op = opField w := by rw [← opField_busWord op a d, hword, opField_and_operandMask]
  have hkept : addrField (w &&& operandMask op) = addrField w :=
    extractLsb'_and_of_allOnes w (by obtain rfl | rfl := hop <;> rfl)
  rw [← hkept, hopw, ← hword, addrField_busWord]

/-- The row of a command is found by its `OP`, and by the reduced address where rows of one `OP` differ in it. -/
theorem CommandOf.find_row {w : Word} {values : List Word} {i : Instr} (h : CommandOf w values i) :
    (opcodeTable.find? fun row => row.covers w).map TableRow.mnemonic = some i.mnemonic := by
  have hop := h.opCode
  have hwf := h.wellFormed
  cases i with
  | rdStatus a | rdOamData a | rdData a =>
    have hport : portAddr (addrField w) = _ := h.addrField_eq rfl (.inl rfl) ▸ beq_iff_eq.mp hwf
    simp [opcodeTable, covers_portRow, ← hop, hport, Instr.opCode, Instr.mnemonic]
  | wrCtrl a d | wrMask a d | wrOamAddr a d | wrOamData a d | wrScroll a d | wrAddr a d | wrData a d =>
    have hport : portAddr (addrField w) = _ := h.addrField_eq rfl (.inr rfl) ▸ beq_iff_eq.mp hwf
    simp [opcodeTable, covers_portRow, ← hop, hport, Instr.opCode, Instr.mnemonic]
  | rdOther a =>
    rw [← h.addrField_eq rfl (.inl rfl)] at hwf
    simp only [Instr.wellFormed, readablePort, Bool.not_eq_true', Bool.or_eq_false_iff, beq_eq_false_iff_ne, ne_eq]
      at hwf
    simp [opcodeTable, covers_portRow, covers_opRow, ← hop, hwf, Instr.opCode, Instr.mnemonic]
  | wrOther a d =>
    rw [← h.addrField_eq rfl (.inr rfl)] at hwf
    simp only [Instr.wellFormed, writablePort, Bool.not_eq_true', Bool.or_eq_false_iff, beq_eq_false_iff_ne, ne_eq]
      at hwf
    simp [opcodeTable, covers_portRow, covers_opRow, ← hop, hwf, Instr.opCode, Instr.mnemonic]
  | _ => simp [opcodeTable, covers_portRow, covers_opRow, ← hop, Instr.opCode, Instr.mnemonic]

/-! ### Reserved codes (30_encoding.md R107) -/

/-- A command whose `OP` is 0x9 or more changes nothing and returns nothing. -/
theorem exec_of_nine_le_opCode {i : Instr} (h : 9 ≤ i.opCode.toNat) (s : State) : exec i s = .next s := by
  cases i with
  | reserved9 | reservedA | reservedB | reservedC | reservedD | reservedE | reservedF => rfl
  | _ => simp [Instr.opCode] at h

/-! ### The statements -/

/-- Settles O2: the round trip of each command. -/
theorem decodeEncodeRoundTrip : Obligations.DecodeEncodeRoundTrip :=
  fun _ rest h => decode_encode_append h rest

/-- Settles O3: both words decode as the one word with its ignored fields zero does, and what decodes is the command
of its first word. -/
theorem ignoredFieldsSelectNothing : Obligations.IgnoredFieldsSelectNothing := by
  refine ⟨fun _ _ rest h => decode_eq_of_and_operandMask_eq rest h, fun w rest after i h => ?_⟩
  obtain ⟨values, ⟨hop, hwf, hwords⟩, hrest⟩ := commandOf_of_decode h
  exact ⟨hop, hwf, by rw [hwords, List.cons_append, hrest]⟩

/-- Settles O5: what decodes is the command of its word, and the table's first row for the word is that command's. -/
theorem opcodeTableNamesTheCommand : Obligations.OpcodeTableNamesTheCommand := by
  intro w rest after i h
  obtain ⟨values, hcommand, -⟩ := commandOf_of_decode h
  exact hcommand.find_row

/-- Settles O57: a word of a reserved `OP` is the command of that `OP`, and no such command does anything. -/
theorem nothingTraps : Obligations.NothingTraps := by
  refine ⟨fun s w rest hcmds hop => ?_, fun i hi s => exec_of_nine_le_opCode ?_ s, fun _ _ _ => ⟨rfl, rfl⟩,
    fun _ _ rest h => decode_eq_of_and_operandMask_eq rest h⟩
  · obtain ⟨i, hdecode, hcommand⟩ := decode_of_op_ne_7 (w := w) (by rintro h7; simp [h7] at hop)
    rw [step_of_decode_ok ((congrArg decode hcmds).trans (hdecode rest))]
    exact exec_of_nine_le_opCode (hcommand.opCode ▸ hop) _
  · revert i; decide

/-- Settles O1: the decoder run on each word. -/
theorem writtenWordsDecode : Obligations.WrittenWordsDecode :=
  ⟨rfl, rfl, rfl, rfl, rfl, rfl, rfl, rfl, rfl, rfl, rfl, rfl⟩

/-- Settles O4: by whether `OP` is 0x7. -/
theorem onlyLoadRgbReadsSecondWord : Obligations.OnlyLoadRgbReadsSecondWord := by
  refine ⟨fun w h => ?_, fun _ value rest h => decode_loadRgb value rest h⟩
  obtain ⟨i, hdecode, -⟩ := decode_of_op_ne_7 h
  exact ⟨i, hdecode⟩

end Sys2Proof.Machine
end

section
/-! PROOF. The five pseudo-commands (30_encoding.md R121), each the run of its commands from any state. -/

namespace Sys2Proof.Machine

/-- One list of commands after another. -/
theorem execAll_append {l : List Instr} {s t : State} (l' : List Instr) (h : execAll l s = .next t) :
    execAll (l ++ l') s = execAll l' t := by
  induction l generalizing s with
  | nil => cases h; rfl
  | cons i l ih =>
    obtain ⟨u, hu, -⟩ := exec_withQueues i s
    rw [execAll_cons l hu] at h
    rw [List.cons_append, execAll_cons _ hu, ih h]

/-- `VADDR` written high byte first, then low byte, is the operand (30_encoding.md R109 d). -/
theorem withLowByte_withHighByte (v x : Addr) : withLowByte (withHighByte v (hiByte x)) (loByte x) = x := by
  have hhigh : (hiByte x ++ v.extractLsb' 0 8).extractLsb' 8 8 = hiByte x :=
    BitVec.extractLsb'_append_eq_left ..
  simp only [withLowByte, withHighByte, hhigh]
  exact (BitVec.extractLsb'_append_extractLsb'_eq_extractLsb' (start₂ := 8) (len₁ := 8) rfl).trans
    BitVec.extractLsb'_eq_self

/-- The status read clears `W`, so the two writes of an address are its high and its low byte. -/
theorem execAll_setAddrCommands (x : Addr) (s : State) : execAll (setAddrCommands x) s = .next { s with
    vaddr := x, w := false, stCnt := !s.stCnt, result := some (statusByte s.cfg s.stCnt) } := by
  show Host.Outcome.next { s with
    vaddr := withLowByte (withHighByte s.vaddr (hiByte x)) (loByte x), w := false, stCnt := !s.stCnt
    result := some (statusByte s.cfg s.stCnt) } = _
  rw [withLowByte_withHighByte]

/-- The advance of `WR.DATA` is by the increment from before its store (41_register_port.md R166). -/
theorem exec_wrData (a : Addr) (d : Byte) (s : State) : exec (.wrData a d) s = .next { vWrite s s.vaddr d with
    vaddr := s.vaddr + increment s.ctrl } := by
  show Host.Outcome.next { vWrite s s.vaddr d with
    vaddr := (vWrite s s.vaddr d).vaddr + increment (vWrite s s.vaddr d).ctrl } = _
  rw [vWrite_vaddr, vWrite_ctrl]

/-- The cursor of sprite `i`. -/
theorem toNat_append_00 (i : BitVec 6) : (i ++ 0#2 : Byte).toNat = 4 * i.toNat := by
  rw [BitVec.toNat_append]
  simp [Nat.shiftLeft_eq, Nat.mul_comm]

/-- Each write of `OAMDATA` stores at the cursor and moves it on (41_register_port.md R163). -/
theorem execAll_spriteCommands (i : BitVec 6) (y t a x : Byte) (s : State) :
    execAll (spriteCommands i y t a x) s = .next { s with
      oam := (((s.oam.write (4 * i.toNat) y).write (4 * i.toNat + 1) t).write (4 * i.toNat + 2) a).write
        (4 * i.toNat + 3) x
      oamAddr := BitVec.ofNat 8 (4 * i.toNat + 4) } := by
  have hi := i.isLt
  have h0 := toNat_append_00 i
  have h1 : (i ++ 0#2 + 1#8 : Byte).toNat = 4 * i.toNat + 1 := by bv_omega
  have h2 : (i ++ 0#2 + 1#8 + 1#8 : Byte).toNat = 4 * i.toNat + 2 := by bv_omega
  have h3 : (i ++ 0#2 + 1#8 + 1#8 + 1#8 : Byte).toNat = 4 * i.toNat + 3 := by bv_omega
  have h4 : (i ++ 0#2 + 1#8 + 1#8 + 1#8 + 1#8 : Byte) = BitVec.ofNat 8 (4 * i.toNat + 4) := by bv_omega
  rw [← h4, ← h3, ← h2, ← h1, ← h0]
  rfl

/-- Settles O24: each expansion run from any state, `WR.DATA` and the reads of `DATA` after the address is set. -/
theorem pseudoCommandsDoAsWritten : Obligations.PseudoCommandsDoAsWritten := by
  refine ⟨fun x s => ⟨_, execAll_setAddrCommands x s, rfl⟩, fun x d s => ?_, fun x s => ?_,
    fun x y s => ⟨_, rfl, rfl⟩, fun i y t a x s => ⟨_, execAll_spriteCommands i y t a x s, ?_⟩⟩
  · refine ⟨_, some (statusByte s.cfg s.stCnt), ?_, rfl⟩
    rw [pokeCommands, execAll_append _ (execAll_setAddrCommands x s), execAll_cons [] (exec_wrData ..)]
    rfl
  · rw [peekCommands, execAll_append _ (execAll_setAddrCommands x s)]
    rfl
  · refine ⟨by simp, by simp, by simp, by simp, fun k hk => ?_⟩
    rw [Memory.read_write_ne, Memory.read_write_ne, Memory.read_write_ne, Memory.read_write_ne] <;> omega

end Sys2Proof.Machine
end

section
/-! PROOF. The flip cache's key and its request (30_encoding.md R118, 44_tile_cache.md R224). -/

namespace Sys2Proof.Machine

/-! ### The packed key (30_encoding.md R118) -/

/-- Fields that do not overlap: the lower one fits below the lowest bit of the upper one. -/
theorem or_eq_add_of_dvd {x y k : Nat} (hx : 2 ^ k ∣ x) (hy : y < 2 ^ k) : x ||| y = x + y := by
  obtain ⟨c, rfl⟩ := hx
  exact (Nat.two_pow_add_eq_or_of_lt hy c).symm

/-- The sum the model writes is the packed word: each field lies below the one before it. -/
theorem flipKey_eq_packed (tile : Nat) {ptype : Nat} (attr : BitVec 4) (fx fy : Bool) (hp : ptype < 8) :
    flipKey tile ptype attr fx fy =
      (tile <<< 16 ||| ptype <<< 8 ||| attr.toNat <<< 4 ||| (fx.toNat ||| fy.toNat <<< 1)) := by
  have hattr := attr.isLt
  have hfx := fx.toNat_lt
  have hfy := fy.toNat_lt
  have hflip : fx.toNat ||| fy.toNat <<< 1 = fx.toNat + 2 * fy.toNat := by
    cases fx <;> cases fy <;> rfl
  rw [hflip, Nat.shiftLeft_eq, Nat.shiftLeft_eq, Nat.shiftLeft_eq]
  rw [or_eq_add_of_dvd (k := 16) (x := tile * 2 ^ 16) (by omega) (by omega),
    or_eq_add_of_dvd (k := 8) (x := tile * 2 ^ 16 + ptype * 2 ^ 8) (by omega) (by omega),
    or_eq_add_of_dvd (k := 4) (by omega) (by omega), flipKey]
  omega

/-! ### The request (44_tile_cache.md R224) -/

section Request

variable (s : State) {c : Caches} {tile ptype : Nat} {attr : BitVec 4} {fx fy : Bool}

/-- A stored key is answered with its block. -/
theorem getFlipped_hit {b : Block 16} (h : lookupKey c.fc (flipKey tile ptype attr fx fy) = some b) :
    getFlipped s tile ptype attr fx fy c = (some b, c) := by
  simp only [getFlipped, h]

/-- A new key gets nothing where its base request gets nothing. -/
theorem getFlipped_of_getBase_none {c' : Caches} (h : lookupKey c.fc (flipKey tile ptype attr fx fy) = none)
    (hbase : getBase s tile ptype attr c = (none, c')) : getFlipped s tile ptype attr fx fy c = (none, c') := by
  simp only [getFlipped, h, hbase]

/-- A new key is answered with the base block flipped, which is stored under it. -/
theorem getFlipped_miss {b : Block 16} {c' : Caches} (h : lookupKey c.fc (flipKey tile ptype attr fx fy) = none)
    (hbase : getBase s tile ptype attr c = (some b, c')) : getFlipped s tile ptype attr fx fy c =
      (some (flipBlock fx fy b),
        { c' with fc := insertKey c'.fc (flipKey tile ptype attr fx fy) (flipBlock fx fy b) }) := by
  simp only [getFlipped, h, hbase]

end Request

/-- Settles O39: the key is packed and injective, and a request is a hit, a miss without a base block, or a miss whose
flipped block is stored. -/
theorem flipCacheRequest : Obligations.FlipCacheRequest := by
  refine ⟨fun tile ptype attr fx fy _ hp => ⟨flipKey_eq_packed tile attr fx fy hp, ?_⟩,
    fun s c tile ptype attr fx fy => ⟨fun b hhit => getFlipped_hit s hhit, fun hnew => ⟨?_, ?_⟩⟩⟩
  · exact fun tile' ptype' attr' fx' fy' _ hp' hkey => flipKey_injective hp hp' hkey
  · exact fun c' hbase => getFlipped_of_getBase_none s hnew hbase
  · exact fun b c' hbase => ⟨_, getFlipped_miss s hnew hbase, rfl, fun k => lookupKey_insertKey ..⟩

end Sys2Proof.Machine
end

section
/-! PROOF. Pattern bytes and pixel indices (40_pattern_accessor.md R140 to R142, 43_compositor.md R190). -/

namespace Sys2Proof.Machine

/-- Inside CHR a pattern byte is the byte at its offset in the tile's record. -/
theorem readPlane_of_lt (chr : Vector Byte 8192) {tile : Nat} {row : Fin 16} (h : 16 * tile + row.val < 8192) :
    readPlane chr tile row = chr[16 * tile + row.val] :=
  dif_pos h

/-- The two bits fit the index's width: nothing is cut off. -/
theorem toNat_pixelIndex (chr : Vector Byte 8192) (tile : Nat) (row px : Fin 8) :
    (pixelIndex chr tile row px).toNat =
      2 * ((plane2 chr tile row).getLsbD (7 - px.val)).toNat + ((plane1 chr tile row).getLsbD (7 - px.val)).toNat := by
  have hhigh := ((plane2 chr tile row).getLsbD (7 - px.val)).toNat_lt
  have hlow := ((plane1 chr tile row).getLsbD (7 - px.val)).toNat_lt
  rw [pixelIndex, BitVec.toNat_ofNat]
  exact Nat.mod_eq_of_lt (by omega)

/-- Plane 1 of a tile of CHR is the first half of its record. -/
theorem plane1_of_lt (chr : Vector Byte 8192) {tile : Nat} (h : tile < 512) (row : Fin 8) :
    plane1 chr tile row = chr[16 * tile + row.val] :=
  readPlane_of_lt chr _

/-- Plane 2 of a tile of CHR is the second half of its record. -/
theorem plane2_of_lt (chr : Vector Byte 8192) {tile : Nat} (h : tile < 512) (row : Fin 8) :
    plane2 chr tile row = chr[16 * tile + (8 + row.val)] := by
  rw [plane2, readPlane_of_lt chr (by omega)]
  simp only [Nat.add_comm row.val 8]

/-- Settles O32: a pattern byte is its definition, an index is its two plane bits, and the planes of the 512 tiles of CHR
are the two halves of each record. -/
theorem pixelIndexFromTwoPlanes : Obligations.PixelIndexFromTwoPlanes := by
  refine ⟨fun chr tile row => rfl, toNat_pixelIndex, fun chr tile row px => ?_⟩
  rw [toNat_pixelIndex, plane1_of_lt chr tile.isLt, plane2_of_lt chr tile.isLt]

end Sys2Proof.Machine
end

section
/-! PROOF. The register port (41_register_port.md): the words of each row of `RD` and `WR`, what each command does to
the whole state, the toggle that `WR.SCROLL` and `WR.ADDR` share, and the delay of the data reads. -/

namespace Sys2Proof.Machine

/-! ### Words of the port (30_encoding.md R101, R106) -/

/-- A word that is a command's one word, its ignored fields aside, decodes to that command. -/
theorem decode_of_encode_eq_masked {w : Word} {i : Instr} (rest : List Word) (hwf : i.wellFormed = true)
    (henc : encode i = [w &&& operandMask (opField w)]) : decode (w :: rest) = .ok (i, rest) := by
  rw [← decode_and_operandMask, ← List.singleton_append, ← henc]
  exact decode_encode_append hwf rest

/-- An `RD` word decodes to the read that its address operand selects. -/
theorem decode_read {w : Word} {i : Instr} (rest : List Word) (hop : opField w = 0x0#4)
    (henc : encode i = [busWord 0x0#4 (addrField w) 0#8]) (hwf : i.wellFormed = true) :
    decode (w :: rest) = .ok (i, rest) :=
  decode_of_encode_eq_masked rest hwf (by rw [henc, hop, and_readMask, hop])

/-- A `WR` word decodes to the write that its address operand selects. -/
theorem decode_write {w : Word} {i : Instr} (rest : List Word) (hop : opField w = 0x1#4)
    (henc : encode i = [busWord 0x1#4 (addrField w) (dataField w)]) (hwf : i.wellFormed = true) :
    decode (w :: rest) = .ok (i, rest) :=
  decode_of_encode_eq_masked rest hwf (by rw [henc, hop, and_writeMask, hop])

/-- A word that matches a sub-opcode row has the row's `OP` and reduced address. -/
theorem port_of_match {w b : Word} (h : w &&& 0xF03FFF00#32 = b) :
    opField w = opField b ∧ portAddr (addrField w) = portAddr (addrField b) :=
  (and_portMask w b (by rw [← h, BitVec.and_assoc, BitVec.and_self])).mp h

/-- A word that matches an `RD` row decodes to the read at the row's address. -/
theorem decode_readRow {w b : Word} {i : Instr} (rest : List Word) (h : w &&& 0xF03FFF00#32 = b)
    (hb : opField b = 0x0#4) (henc : encode i = [busWord 0x0#4 (addrField w) 0#8])
    (hwf : i.wellFormed = (portAddr (addrField w) == portAddr (addrField b))) :
    decode (w :: rest) = .ok (i, rest) := by
  obtain ⟨hop, hport⟩ := port_of_match h
  exact decode_read rest (hop.trans hb) henc (hwf.trans (beq_iff_eq.mpr hport))

/-- A word that matches a `WR` row decodes to the write at the row's address. -/
theorem decode_writeRow {w b : Word} {i : Instr} (rest : List Word) (h : w &&& 0xF03FFF00#32 = b)
    (hb : opField b = 0x1#4) (henc : encode i = [busWord 0x1#4 (addrField w) (dataField w)])
    (hwf : i.wellFormed = (portAddr (addrField w) == portAddr (addrField b))) :
    decode (w :: rest) = .ok (i, rest) := by
  obtain ⟨hop, hport⟩ := port_of_match h
  exact decode_write rest (hop.trans hb) henc (hwf.trans (beq_iff_eq.mpr hport))

theorem readablePort_eq_false {ra : Addr} (h2 : ra ≠ 0x2002#16) (h4 : ra ≠ 0x2004#16) (h7 : ra ≠ 0x2007#16) :
    readablePort ra = false := by
  simp [readablePort, h2, h4, h7]

theorem writablePort_eq_false {ra : Addr}
    (h : ra ∉ [0x2000#16, 0x2001#16, 0x2003#16, 0x2004#16, 0x2005#16, 0x2006#16, 0x2007#16]) :
    writablePort ra = false := by
  simpa [writablePort, and_assoc] using h

/-! ### Reads without a data fetch (41_register_port.md R151, R152, R154) -/

/-- Settles O11: the two values of `STCNT`. -/
theorem rdStatusReturnsAndClears : Obligations.RdStatusReturnsAndClears := by
  refine ⟨fun w rest h => decode_readRow rest h rfl rfl rfl, fun a s => ?_⟩
  have hstatus : statusByte s.cfg s.stCnt = if s.stCnt = false then s.cfg.statusEven else s.cfg.statusOdd := by
    cases s.stCnt <;> rfl
  rw [← hstatus]
  rfl

/-- Settles O13: the row of the word, and a read that only returns a byte. -/
theorem rdOamDataReturnsByteAtCursor : Obligations.RdOamDataReturnsByteAtCursor :=
  ⟨fun _ rest h => decode_readRow rest h rfl rfl rfl, fun _ _ => rfl⟩

/-- Settles O15: an address outside the three readable ones selects the last row. -/
theorem rdOtherReturnsZero : Obligations.RdOtherReturnsZero := by
  refine ⟨fun w rest h h2 h4 h7 => ?_, fun a s => rfl⟩
  exact decode_read rest ((and_opMask w _ rfl).mp h) rfl (congrArg not (readablePort_eq_false h2 h4 h7))

/-! ### Writes of one register or of `OAM` (41_register_port.md R160 to R163, R167) -/

/-- Settles O16: the row of each word, and each write by its meaning. -/
theorem plainRegisterWrites : Obligations.PlainRegisterWrites :=
  ⟨fun _ rest h => decode_writeRow rest h rfl rfl rfl, fun _ rest h => decode_writeRow rest h rfl rfl rfl,
    fun _ rest h => decode_writeRow rest h rfl rfl rfl, fun _ _ _ => ⟨rfl, rfl, rfl⟩⟩

/-- Settles O17: one byte of `OAM` is written, at the cursor. -/
theorem wrOamDataStoresAndAdvances : Obligations.WrOamDataStoresAndAdvances :=
  ⟨fun _ rest h => decode_writeRow rest h rfl rfl rfl, fun _ d s =>
    ⟨s.oam.write s.oamAddr.toNat d, rfl, Memory.read_write_self .., fun _ hk => Memory.read_write_ne _ d hk⟩⟩

/-- Settles O21: an address outside the seven writable ones selects the last row. -/
theorem wrOtherIsIgnored : Obligations.WrOtherIsIgnored := by
  refine ⟨fun w rest h hports => ?_, fun a d s => rfl⟩
  exact decode_write rest ((and_opMask w _ rfl).mp h) rfl (congrArg not (writablePort_eq_false hports))

/-! ### `WR.SCROLL` and `WR.ADDR`, by the toggle (41_register_port.md R164, R165) -/

theorem exec_wrScroll_of_w_false (a : Addr) (d : Byte) {s : State} (h : s.w = false) :
    exec (.wrScroll a d) s = .next { s with scrollX := d, w := true } := by
  simp [exec, execWrScroll, h]

theorem exec_wrScroll_of_w_true (a : Addr) (d : Byte) {s : State} (h : s.w = true) :
    exec (.wrScroll a d) s = .next { s with scrollY := d, w := false } := by
  simp [exec, execWrScroll, h]

theorem exec_wrAddr_of_w_false (a : Addr) (d : Byte) {s : State} (h : s.w = false) :
    exec (.wrAddr a d) s = .next { s with vaddr := withHighByte s.vaddr d, w := true } := by
  simp [exec, execWrAddr, h]

theorem exec_wrAddr_of_w_true (a : Addr) (d : Byte) {s : State} (h : s.w = true) :
    exec (.wrAddr a d) s = .next { s with vaddr := withLowByte s.vaddr d, w := false } := by
  simp [exec, execWrAddr, h]

/-- The low byte stays below the new high byte. -/
theorem toNat_withHighByte (v : Addr) (d : Byte) : (withHighByte v d).toNat = 256 * d.toNat + v.toNat % 256 := by
  rw [withHighByte, BitVec.toNat_append, ← Nat.shiftLeft_add_eq_or_of_lt (BitVec.isLt _), Nat.shiftLeft_eq,
    BitVec.extractLsb'_toNat, Nat.shiftRight_zero, Nat.mul_comm]

/-- The high byte stays above the new low byte. -/
theorem toNat_withLowByte (v : Addr) (d : Byte) : (withLowByte v d).toNat = 256 * (v.toNat / 256) + d.toNat := by
  have hv := v.isLt
  rw [withLowByte, BitVec.toNat_append, ← Nat.shiftLeft_add_eq_or_of_lt d.isLt, Nat.shiftLeft_eq,
    BitVec.extractLsb'_toNat, Nat.shiftRight_eq_div_pow, Nat.mul_comm]
  omega

/-- Settles O18, by the toggle. -/
theorem wrScrollAlternatesLatches : Obligations.WrScrollAlternatesLatches :=
  ⟨fun _ rest h => decode_writeRow rest h rfl rfl rfl, fun a d _ =>
    ⟨exec_wrScroll_of_w_false a d, exec_wrScroll_of_w_true a d⟩⟩

/-- Settles O19, by the toggle: the new address as the bytes it is joined of. -/
theorem wrAddrBuildsHighByteFirst : Obligations.WrAddrBuildsHighByteFirst :=
  ⟨fun _ rest h => decode_writeRow rest h rfl rfl rfl, fun a d s =>
    ⟨fun hw => ⟨_, exec_wrAddr_of_w_false a d hw, toNat_withHighByte s.vaddr d⟩,
      fun hw => ⟨_, exec_wrAddr_of_w_true a d hw, toNat_withLowByte s.vaddr d⟩⟩⟩

/-! ### The shared toggle (41_register_port.md R168, 10_state.md R28) -/

/-- What every command does to `W`. -/
theorem exec_w (i : Instr) (s : State) : ∃ t, exec i s = .next t ∧
    t.w = if togglesW i then !s.w else if isStatusRead i || decide (i = .reset) then false else s.w := by
  obtain ⟨t, h, -, -, -, -, -, -, hw, -, -⟩ := registersHaveTheirWriters i s
  refine ⟨t, h, hw.trans ?_⟩
  cases i <;> rfl

/-- Each of the two commands inverts `W`, so a list of them inverts it once for each. -/
theorem execAll_w_of_togglesW {l : List Instr} (hl : ∀ i ∈ l, togglesW i = true) (s : State) :
    ∃ t, execAll l s = .next t ∧ t.w = (s.w ^^ decide (l.length % 2 = 1)) := by
  induction l generalizing s with
  | nil => exact ⟨s, rfl, (Bool.xor_false _).symm⟩
  | cons i l ih =>
    obtain ⟨hi, hl⟩ := List.forall_mem_cons.mp hl
    obtain ⟨u, hu, huw⟩ := exec_w i s
    obtain ⟨t, ht, htw⟩ := ih hl u
    refine ⟨t, (execAll_cons l hu).trans ht, ?_⟩
    have hodd : (l.length + 1) % 2 = 1 ↔ ¬ l.length % 2 = 1 := by omega
    rw [htw, huw, if_pos hi, List.length_cons, decide_eq_decide.mpr hodd, decide_not, Bool.not_xor, Bool.xor_not]

/-- Settles O22: the parity of the toggles, the toggle command by command, and the two crossings of the registers, where
the second command finds `W` set by the first. -/
theorem scrollAndAddrShareOneToggle : Obligations.ScrollAndAddrShareOneToggle := by
  refine ⟨fun l s hl => execAll_w_of_togglesW hl s, exec_w, fun a b d e s hw => ⟨?_, ?_⟩⟩
  · have hrun := (execAll_cons _ (exec_wrScroll_of_w_false a d hw)).trans
      (execAll_cons [] (exec_wrAddr_of_w_true b e rfl))
    exact ⟨_, hrun, rfl, rfl, toNat_withLowByte s.vaddr e, rfl⟩
  · have hrun := (execAll_cons _ (exec_wrAddr_of_w_false a d hw)).trans
      (execAll_cons [] (exec_wrScroll_of_w_true b e rfl))
    exact ⟨_, hrun, rfl, rfl, toNat_withHighByte s.vaddr d, rfl⟩

/-! ### `RD.DATA` and its delay (41_register_port.md R153, R169) -/

/-- The old buffer is returned, and the byte at `VADDR` fetched before the advance. -/
theorem exec_rdData (a : Addr) (s : State) : exec (.rdData a) s = .next { s with
    result := some s.rdBuf, rdBuf := vRead s s.vaddr, vaddr := s.vaddr + increment s.ctrl } := rfl

/-- Settles O14: the row of the word, and the fetch before the advance. -/
theorem rdDataReturnsOldBuffer : Obligations.RdDataReturnsOldBuffer :=
  ⟨fun _ rest h => decode_readRow rest h rfl rfl rfl, exec_rdData⟩

/-- Settles O23: `SETADDR` changes nothing a read depends on, and the second read returns what the first fetched. -/
theorem dataReadsAreDelayedByOne : Obligations.DataReadsAreDelayedByOne := by
  intro x a b s
  exact ⟨_, _, _, execAll_setAddrCommands x s, exec_rdData a _, rfl, exec_rdData b _,
    congrArg some (vRead_congr x rfl rfl rfl), vRead_congr x rfl rfl rfl⟩

/-! ### `WR.DATA` (41_register_port.md R166) -/

/-- A byte written from 0x2000 up is read back. -/
theorem vRead_vWrite_self (s : State) {a : Addr} (v : Byte) (h : 0x2000 ≤ ppuAddr a) :
    vRead (vWrite s a v) a = v := by
  by_cases hnt : ppuAddr a < 0x3F00
  · rw [vRead_nametable h hnt, vWrite_nametable v h hnt]
    exact Memory.read_write_self ..
  · have hpal := Nat.not_lt.mp hnt
    rw [vRead_palette hpal, vWrite_palette v hpal]
    exact (paletteStore_read ..).trans (if_pos (.inl rfl))

/-- Settles O20, region by region: the advance by the increment follows the store of the region. -/
theorem wrDataStoresAndAdvances : Obligations.WrDataStoresAndAdvances := by
  refine ⟨fun _ rest h => decode_writeRow rest h rfl rfl rfl, fun a d s =>
    ⟨fun hpat => ?_, fun hlow hhigh => ?_, fun hpal => ?_, fun hlow => ?_⟩⟩
  · rw [exec_wrData, vWrite_pattern d hpat]
    rfl
  · rw [exec_wrData, vWrite_nametable d hlow hhigh]
    exact ⟨_, rfl, Memory.read_write_self .., fun k hk => Memory.read_write_ne _ d hk⟩
  · rw [exec_wrData, vWrite_palette d hpal]
    exact ⟨_, rfl, fun k => paletteStore_read_slots ..⟩
  · exact ⟨_, exec_wrData a d s, (vRead_congr _ rfl rfl rfl).trans (vRead_vWrite_self s d hlow)⟩

end Sys2Proof.Machine
end

section
/-! PROOF. OAM DMA (42_oam_dma.md R180, R181). -/

namespace Sys2Proof.Machine

theorem exec_dma (page : Byte) (s : State) : exec (.dma page) s =
    .next { s with oam := dmaStores s page, ext := s.ext.tail, dmaCount := s.dmaCount + 1 } := rfl

/-- The 256 destinations lie in OAM: nothing from place 256 up is written. -/
theorem dmaStores_read_of_le (s : State) (page : Byte) {k : Nat} (hk : 256 ≤ k) :
    (dmaStores s page).read k = s.oam.read k := by
  refine view_foldl_same (view := fun m : Memory => m.read k) (List.range 256) s.oam fun m i _ => ?_
  have hin : (s.oamAddr.toNat + i) % 256 < 256 := Nat.mod_lt _ (by decide)
  exact Memory.read_write_ne m _ (by omega)

/-- Settles O30: the word's row, and the 256 stores read back at their places. -/
theorem dmaFillsOamFromPage : Obligations.DmaFillsOamFromPage :=
  ⟨fun w rest h => decode_dma rest ((and_opMask w _ rfl).mp h), fun page s =>
    ⟨dmaStores s page, exec_dma page s, fun _ hi => dmaStores_read s page hi, fun _ hk => dmaStores_read_of_le s page hk⟩⟩

/-- A byte that the front image lists is the answer. -/
theorem extRead_of_lookupKey {s : State} {image : HostImage} {later : List HostImage} {a : Addr} {v : Byte}
    (hext : s.ext = image :: later) (hv : lookupKey image a.toNat = some v) : extRead s a = v := by
  simp [extRead, hext, hv]

/-- A byte that the front image lists for the page is the byte stored. -/
theorem dmaStores_read_of_lookupKey {s : State} {image : HostImage} {later : List HostImage} {page v : Byte} {i : Nat}
    (hext : s.ext = image :: later) (hi : i < 256) (hv : lookupKey image (256 * page.toNat + i) = some v) :
    (dmaStores s page).read ((s.oamAddr.toNat + i) % 256) = v := by
  rw [← dmaSource_toNat page hi] at hv
  rw [dmaStores_read s page hi, extRead_of_lookupKey hext hv]

/-- A `DMA` of a page that the front image lists whole leaves `OAM` with the listed bytes, and uses up that image. -/
theorem exec_dma_of_listed {s : State} {image : HostImage} {later : List HostImage} {page : Byte}
    (hext : s.ext = image :: later) (hlisted : ∀ i < 256, ∃ v, lookupKey image (256 * page.toNat + i) = some v) :
    ∃ t, exec (.dma page) s = .next t ∧ t.ext = later ∧
      ∀ i < 256, lookupKey image (256 * page.toNat + i) = some (t.oam.read ((s.oamAddr.toNat + i) % 256)) := by
  refine ⟨_, exec_dma page s, congrArg List.tail hext, fun i hi => ?_⟩
  obtain ⟨v, hv⟩ := hlisted i hi
  dsimp only
  rw [hv, dmaStores_read_of_lookupKey hext hi hv]

/-- Settles O31: the first `DMA` uses up the first image and keeps `OAMADDR`, so the second stores the bytes of the second
image at the same places. -/
theorem dmaReadsTheHostsNextImage : Obligations.DmaReadsTheHostsNextImage := by
  refine ⟨fun s image later a v => extRead_of_lookupKey, fun p q s first second later hext hlisted => ?_⟩
  have htail : s.ext.tail = second :: later := by rw [hext, List.tail_cons]
  obtain ⟨u, hu, hlater, hread⟩ := exec_dma_of_listed
    (s := { s with oam := dmaStores s p, ext := s.ext.tail, dmaCount := s.dmaCount + 1 }) htail hlisted
  exact ⟨_, u, exec_dma p s, hu, hlater, hread⟩

end Sys2Proof.Machine
end

section
/-! PROOF. The pixel compositor (43_compositor.md R193 to R203): blocks pixel by pixel, and the bytes a block
depends on. -/

namespace Sys2Proof.Machine

/-! ### `Flip` (43_compositor.md R193) -/

/-- A mirrored coordinate is the one as far from the other edge. -/
theorem mirrorIf_eq (f : Bool) (k : Fin 8) : mirrorIf f k = if f then ⟨7 - k.val, by omega⟩ else k := by
  ext
  rw [mirrorIf_val]
  cases f <;> rfl

/-- Mirroring a place twice gives it back. -/
@[simp] theorem flipBlock_flipBlock {n : Nat} (fx fy : Bool) (b : Block n) :
    flipBlock fx fy (flipBlock fx fy b) = b :=
  Block.ext_at fun r p => by simp only [Block.at_flipBlock, mirrorIf_mirrorIf]

/-- Settles O34: the flip pixel by pixel, each coordinate mirrored by its own flag. -/
theorem flipReordersBlock : Obligations.FlipReordersBlock := by
  refine fun n b fx fy => ⟨fun row px => ?_, flipBlock_none b, flipBlock_flipBlock fx fy b⟩
  rw [Block.at_flipBlock, mirrorIf_eq, mirrorIf_eq]

/-! ### Palette places (43_compositor.md R195, R203) -/

/-- Where in `PAL` the byte of a pixel index stands; `none` for a transparent pixel, which reads no byte. -/
def palettePlace (pt : PaletteType) (attr : BitVec 4) (idx : BitVec 2) : Option Nat :=
  match pt with
  | .background => some (if idx = 0#2 then 0 else 4 * (attr.toNat % 4) + idx.toNat)
  | .sprite p   => if idx = 0#2 then none else some (0x10 + 4 * p.toNat + idx.toNat)

/-- The palette byte of a pixel is the byte at its place. -/
theorem palByte_eq_map_palettePlace (pal : Memory) (pt : PaletteType) (attr : BitVec 4) (idx : BitVec 2) :
    palByte pal pt attr idx = (palettePlace pt attr idx).map pal.read := by
  cases pt with
  | background => simp only [palByte, palettePlace]; split <;> rfl
  | sprite p => simp only [palByte, palettePlace]; split <;> rfl

/-- A pixel of a true-colour block is the colour of the byte at the place of its index. -/
theorem Block.at_block32_eq_map_palettePlace (s : State) (tile : Nat) (pt : PaletteType) (attr : BitVec 4)
    (fx fy : Bool) (r p : Fin 8) : Block.at (block32 s tile pt attr fx fy) r p =
      (palettePlace pt attr (pixelIndex s.cfg.chr tile (mirrorIf fy r) (mirrorIf fx p))).map
        (fun k => colour32 s.rgb (s.pal.read k)) := by
  rw [Block.at_block32, palByte_eq_map_palettePlace, Option.map_map]
  rfl

/-- The places a palette type can read: those of its four pixel indices (R203). -/
def palettePlaces (pt : PaletteType) (attr : BitVec 4) : List Nat :=
  match pt with
  | .background => [0, 4 * (attr.toNat % 4) + 1, 4 * (attr.toNat % 4) + 2, 4 * (attr.toNat % 4) + 3]
  | .sprite p   => [0x10 + 4 * p.toNat + 1, 0x10 + 4 * p.toNat + 2, 0x10 + 4 * p.toNat + 3]

theorem pixelIndex_cases : ∀ idx : BitVec 2, idx = 0#2 ∨ idx = 1#2 ∨ idx = 2#2 ∨ idx = 3#2 := by decide

theorem mem_palettePlaces {pt : PaletteType} {attr : BitVec 4} {idx : BitVec 2} {k : Nat}
    (h : palettePlace pt attr idx = some k) : k ∈ palettePlaces pt attr := by
  cases pt with
  | background =>
    obtain rfl := Option.some.inj h
    obtain rfl | rfl | rfl | rfl := pixelIndex_cases idx <;> simp [palettePlaces]
  | sprite p =>
    obtain rfl | rfl | rfl | rfl := pixelIndex_cases idx
    · exact nomatch h
    all_goals
      obtain rfl := Option.some.inj h
      simp [palettePlaces]

/-! ### True-colour blocks (43_compositor.md R197, R201) -/

/-- Masking to the low six bits is the index into the 64 entries. -/
theorem colour32_eq_getElem (rgb : Vector Word 64) {e : Byte} {k : Fin 64} (h : (e &&& 0x3F#8).toNat = k.val) :
    colour32 rgb e = rgb[k] := by
  have hmod : e.toNat % 64 = k.val := (Nat.and_two_pow_sub_one_eq_mod e.toNat 6).symm.trans h
  simp only [colour32, hmod, Fin.getElem_fin]

/-- Settles O33, by the place each palette type gives an index. -/
theorem trueColourBlockPixels : Obligations.TrueColourBlockPixels := by
  refine ⟨fun s tile attr fx fy row px => ?_, fun s tile palette attr fx fy row px => ?_,
    fun rgb _ _ h => colour32_eq_getElem rgb h⟩
  · exact Block.at_block32_eq_map_palettePlace ..
  · refine (Block.at_block32_eq_map_palettePlace ..).trans ?_
    exact apply_ite (Option.map _) ..

/-! ### Compact blocks (43_compositor.md R198, R199, R202) -/

/-- A field shifted down and masked to its width is the field, zero-extended. -/
theorem shiftRight_and_mask (w : Word) (start len : Nat) :
    (w >>> start) &&& BitVec.ofNat 32 (2 ^ len - 1) = (w.extractLsb' start len).setWidth 32 := by
  ext i hi
  simp [BitVec.getLsbD_ofNat, hi, Bool.and_comm, ← BitVec.getLsbD_eq_getElem]

/-- The three channels joined are the three shifted to their places: at each bit the other two are zero. -/
theorem channels_append (red : BitVec 5) (green : BitVec 6) (blue : BitVec 5) : red ++ green ++ blue =
    (red.setWidth 32 <<< 11 ||| green.setWidth 32 <<< 5 ||| blue.setWidth 32).setWidth 16 := by
  refine BitVec.eq_of_getLsbD_eq fun i hi => ?_
  simp only [BitVec.getLsbD_append, BitVec.getLsbD_setWidth, BitVec.getLsbD_or, BitVec.getLsbD_shiftLeft]
  have h32 : i < 32 := by omega
  by_cases hb : i < 5
  · simp [hi, h32, hb, show i < 11 by omega]
  have hb0 : blue.getLsbD i = false := BitVec.getLsbD_of_ge blue i (by omega)
  by_cases hg : i < 11
  · simp [hi, h32, hb, hg, hb0, show i - 5 < 6 by omega, show i - 5 < 32 by omega]
  · have hg0 : green.getLsbD (i - 5) = false := BitVec.getLsbD_of_ge green (i - 5) (by omega)
    simp [hi, h32, hb, hg, hb0, hg0, show ¬ i - 5 < 6 by omega, show i - 11 < 32 by omega, Nat.sub_sub]

theorem to565_eq_shifts (w : Word) : to565 w = (((w >>> 19) &&& 0x1F#32) <<< 11 |||
    ((w >>> 10) &&& 0x3F#32) <<< 5 ||| ((w >>> 3) &&& 0x1F#32)).setWidth 16 := by
  have hred : (w >>> 19) &&& 0x1F#32 = (w.extractLsb' 19 5).setWidth 32 := shiftRight_and_mask w 19 5
  have hgreen : (w >>> 10) &&& 0x3F#32 = (w.extractLsb' 10 6).setWidth 32 := shiftRight_and_mask w 10 6
  have hblue : (w >>> 3) &&& 0x1F#32 = (w.extractLsb' 3 5).setWidth 32 := shiftRight_and_mask w 3 5
  rw [hred, hgreen, hblue]
  exact channels_append ..

/-- A compact pixel is the true-colour pixel converted, a transparent one kept. -/
theorem Block.at_block16_eq_map (s : State) (tile : Nat) (pt : PaletteType) (attr : BitVec 4) (fx fy : Bool)
    (r p : Fin 8) : Block.at (block16 s tile pt attr fx fy) r p =
      (Block.at (block32 s tile pt attr fx fy) r p).map to565 := by
  rw [Block.at_block16, Block.at_block32, Option.map_map]
  rfl

/-- Settles O35: the conversion by bits, and the pixel of both blocks from one palette byte. -/
theorem compactBlockIsConverted : Obligations.CompactBlockIsConverted :=
  ⟨to565_eq_shifts, fun _ _ => rfl, Block.at_block16_eq_map⟩

/-! ### What a block depends on (43_compositor.md R203) -/

/-- An index depends on the 16 bytes of its tile's record. -/
theorem pixelIndex_congr {chr chr' : Vector Byte 8192} {tile : Fin 512}
    (h : ∀ row : Fin 16, chr'[16 * tile.val + row.val] = chr[16 * tile.val + row.val]) (row px : Fin 8) :
    pixelIndex chr' tile row px = pixelIndex chr tile row px := by
  have hplane (r : Fin 16) : readPlane chr' tile r = readPlane chr tile r := by
    rw [readPlane_of_lt chr' (by omega), readPlane_of_lt chr (by omega), h r]
  simp only [pixelIndex, plane1, plane2, hplane]

/-- Settles O36: the pixels have the same indices, an index reads only a place of its palette type, and the compact
block is the true-colour block converted. -/
theorem blockDependsOnItsInputs : Obligations.BlockDependsOnItsInputs := by
  intro s t tile pt attr fx fy used hused hchr hpal
  obtain rfl : used = palettePlaces pt attr := hused
  have h32 (r p : Fin 8) :
      Block.at (block32 t tile pt attr fx fy) r p = Block.at (block32 s tile pt attr fx fy) r p := by
    rw [Block.at_block32_eq_map_palettePlace, Block.at_block32_eq_map_palettePlace, pixelIndex_congr hchr]
    refine Option.map_congr fun k hk => ?_
    obtain ⟨hread, hcolour⟩ := hpal k (mem_palettePlaces hk)
    rw [hread, hcolour]
  refine ⟨Block.ext_at h32, Block.ext_at fun r p => ?_⟩
  rw [Block.at_block16_eq_map, Block.at_block16_eq_map, h32]

/-! ### The two bits of a background cell (43_compositor.md R200) -/

/-- Nametables 0 and 2 read alike at every offset where the table maps them to one half. -/
theorem vRead_nametable2_eq_nametable0 {s : State} (h : s.cfg.mirror[2] = s.cfg.mirror[0]) {o : Nat}
    (ho : o < 0x400) : vRead s (BitVec.ofNat 16 (0x2800 + o)) = vRead s (BitVec.ofNat 16 (0x2000 + o)) := by
  have hread (t : Nat) (ht : t < 4) : vRead s (BitVec.ofNat 16 (0x2000 + 0x400 * t + o)) =
      s.nt.read (s.cfg.mirror[t].val * 0x400 + o) := by
    have hplace : ppuAddr (BitVec.ofNat 16 (0x2000 + 0x400 * t + o)) = 0x2000 + 0x400 * t + o := by
      rw [ppuAddr_ofNat]; omega
    rw [vRead_nametable (by omega) (by omega), hplace, ntIndex_eq _ _ _ ht ho]
  exact (hread 2 (by decide)).trans (h ▸ (hread 0 (by decide)).symm)

/-- Settles O37: masking by 3 leaves the two bits, and the byte they come from lies inside its nametable. -/
theorem attributeOfCell : Obligations.AttributeOfCell := by
  refine ⟨fun s base tx ty _ _ _ => ?_, fun s tx ty hmirror htx hty => ?_⟩
  · rw [attrOf, attrShift, BitVec.extractLsb'_toNat]
    exact (Nat.and_two_pow_sub_one_eq_mod _ 2).symm
  · have hoffset : 0x3C0 + (8 * (ty / 4) + tx / 4) < 0x400 := by omega
    simp only [attrOf, Nat.add_assoc, vRead_nametable2_eq_nametable0 hmirror hoffset]

end Sys2Proof.Machine
end

section
/-! PROOF. The tile cache (44_tile_cache.md R222, R228, R231, R232): what a base request answers and stores, what either
request answers once `CHR` has changed under the caches, and which commands drop entries. -/

namespace Sys2Proof.Machine

/-- Setting a place inside the vector needs no check of bounds. -/
theorem setIfInBounds_eq_set {α : Type} {n : Nat} (xs : Vector α n) {i : Nat} (a : α) (h : i < n) :
    xs.setIfInBounds i a = xs.set i a h :=
  Vector.ext fun k hk => by rw [Vector.getElem_setIfInBounds, Vector.getElem_set]

section Request

variable (s t : State) {c : Caches} {tile ptype : Nat} {pt : PaletteType} {attr : BitVec 4} {fx fy : Bool}

/-! ### A hit and a miss in the base cache (44_tile_cache.md R222) -/

/-- A request whose entry stands under the same tags is answered with the stored pixels. -/
theorem getBase_of_entry {e : BaseEntry} (ht : tile < 512) (hp : ptype < 5)
    (he : c.bc[8 * tile + ptype]? = some (some e)) (htile : e.tile.toNat = tile) (hptype : e.ptype.toNat = ptype)
    (hattr : e.attr = attr) : getBase s tile ptype attr c = (some e.px, c) := by
  obtain ⟨_, hentry⟩ := Vector.getElem?_eq_some_iff.mp he
  exact getBase_hit s ht hp hentry (by simp [cacheHit, htile, hptype, hattr])

/-- A request that does not hit is answered with the block of the memories, which is stored under its tags. -/
theorem getBase_of_not_baseHit (ht : tile < 512) (hpt : paletteTypeOf ptype = some pt)
    (hmiss : ¬ baseHit c tile ptype attr) : getBase s tile ptype attr c =
      (some (block16 s tile pt attr false false), { c with
        bc := c.bc.setIfInBounds (8 * tile + ptype)
          (some ⟨BitVec.ofNat 9 tile, BitVec.ofNat 3 ptype, attr, block16 s tile pt attr false false⟩) }) := by
  obtain ⟨e, he, htile, hptype, hattr, -⟩ | ⟨-, hget⟩ := getBase_cases s attr c ht hpt
  · exact absurd ⟨e, Vector.getElem?_eq_some_iff.mpr ⟨_, he⟩, htile, hptype, hattr⟩ hmiss
  · rw [hget, setIfInBounds_eq_set]

/-! ### A hit reads no memory, a miss reads them as they are (44_tile_cache.md R232) -/

/-- A base request that hits is answered alike in every state. -/
theorem getBase_eq_of_baseHit (ht : tile < 512) (hp : ptype < 5) (hhit : baseHit c tile ptype attr) :
    getBase t tile ptype attr c = getBase s tile ptype attr c := by
  obtain ⟨e, he, htile, hptype, hattr⟩ := hhit
  rw [getBase_of_entry t ht hp he htile hptype hattr, getBase_of_entry s ht hp he htile hptype hattr]

/-- A flip request stored in either tier is answered alike in every state. -/
theorem getFlipped_eq_of_stored (ht : tile < 512) (hp : ptype < 5)
    (hstored : (lookupKey c.fc (flipKey tile ptype attr fx fy)).isSome = true ∨ baseHit c tile ptype attr) :
    getFlipped t tile ptype attr fx fy c = getFlipped s tile ptype attr fx fy c := by
  obtain hflip | hbase := hstored
  · obtain ⟨b, hb⟩ := Option.isSome_iff_exists.mp hflip
    rw [getFlipped_hit t hb, getFlipped_hit s hb]
  · simp only [getFlipped, getBase_eq_of_baseHit s t ht hp hbase]

/-- A flip request stored in neither tier is answered with the block of the memories. -/
theorem getFlipped_of_not_stored (ht : tile < 512) (hpt : paletteTypeOf ptype = some pt)
    (hflip : lookupKey c.fc (flipKey tile ptype attr fx fy) = none) (hbase : ¬ baseHit c tile ptype attr) :
    (getFlipped s tile ptype attr fx fy c).1 = some (block16 s tile pt attr fx fy) := by
  rw [getFlipped_miss s hflip (getBase_of_not_baseHit s ht hpt hbase), flipBlock_block16]

end Request

/-- Settles O38: a request is out of range, a hit or a miss. -/
theorem baseCacheRequest : Obligations.BaseCacheRequest := by
  refine fun s c tile ptype attr => ⟨getBase_none s attr c, fun pt ht hpt => ⟨?hit, fun hmiss => ?miss⟩⟩
  case hit => exact fun e => getBase_of_entry s ht (paletteTypeOf_lt hpt)
  case miss =>
    have hp := paletteTypeOf_lt hpt
    have hnot : ¬ baseHit c tile ptype attr := fun ⟨e, he, htags⟩ => hmiss e he htags
    have htile : (BitVec.ofNat 9 tile).toNat = tile := Nat.mod_eq_of_lt ht
    have hptype : (BitVec.ofNat 3 ptype).toNat = ptype := Nat.mod_eq_of_lt (by omega)
    exact ⟨⟨_, _, _, _⟩, htile, hptype, rfl, rfl, getBase_of_not_baseHit s ht hpt hnot⟩

/-- Settles O40: with good caches the answers are those of the current memories; once `CHR` has changed, a hit answers
as before the change and a miss from the memories after it. -/
theorem cachesAreInvisible : Obligations.CachesAreInvisible := by
  intro s c tile ptype pt attr fx fy hgood ht hpt
  have hp := paletteTypeOf_lt hpt
  obtain ⟨c₁, hbase, hgood₁, -⟩ := getBase_good (attr := attr) hgood ht hpt
  obtain ⟨c₂, hflipped, hgood₂⟩ := getFlipped_good (attr := attr) (fx := fx) (fy := fy) hgood ht hpt
  refine ⟨⟨c₁, hbase, hgood₁⟩, ⟨c₂, hflipped, hgood₂⟩, fun chr => ⟨fun hhit => ?_, fun hmiss => ?_,
    fun hstored => ?_, fun hnew => ?_⟩⟩
  · rw [getBase_eq_of_baseHit s _ ht hp hhit, hbase]
  · rw [getBase_of_not_baseHit _ ht hpt hmiss]
  · rw [getFlipped_eq_of_stored s _ ht hp hstored, hflipped]
  · obtain ⟨hflip, hbaseMiss⟩ := not_or.mp hnew
    exact getFlipped_of_not_stored _ ht hpt (Option.not_isSome_iff_eq_none.mp hflip) hbaseMiss

/-! ### Which commands drop entries (44_tile_cache.md R228) -/

/-- A command that does not clear the caches evicts nothing: only `RENDER16` changes them, by requests. -/
theorem exec_noEviction {i : Instr} {s t : State} (h : exec i s = .next t) (hclears : clearsCaches i s = false) :
    noEviction s.caches t.caches := by
  obtain ⟨-, -, hsame | hrender⟩ := exec_caches_of_not_clears h hclears
  · rw [hsame]; exact noEviction_refl _
  · rw [hrender]; exact renderCanvas16_noEviction s

/-- Settles O41: a command empties the caches or evicts nothing. -/
theorem onlyClearsEmptyTheCaches : Obligations.OnlyClearsEmptyTheCaches := by
  refine ⟨fun k hk => Vector.getElem_replicate hk, rfl, fun i s => ?_⟩
  obtain ⟨t, h, -⟩ := exec_withQueues i s
  exact ⟨t, h, exec_caches_of_clears h, exec_noEviction h⟩

end Sys2Proof.Machine
end

section
/-! PROOF. The two frames pixel by pixel (45_frame_renderer.md R250 to R267): what each pass leaves at a pixel, and so
what a whole render leaves there. -/

namespace Sys2Proof.Machine

/-! ### The true-colour frame (45_frame_renderer.md R250) -/

/-- A pixel of the true-colour frame: the front pass over the background pass over the behind pass over the fill. -/
theorem renderFrame32_at (s : State) (X : Fin 256) (Y : Fin 240) :
    (renderFrame32 s).at X Y = colour32 s.rgb (pixelByte32 s X Y) := by
  have hbehind := behindPass_at s (colour32 s.rgb) (drawSprite32 s) X Y (fun sp fb => drawSprite32_at s sp fb X Y)
  have hback := fun fb => backgroundPass32_at s fb X Y
  have hfront := frontPass_at s (colour32 s.rgb) (drawSprite32 s) X Y (fun sp fb => drawSprite32_at s sp fb X Y)
  unfold renderFrame32 renderPasses pixelByte32
  cases maskSpen s.mask <;> cases maskBgen s.mask <;>
    simp [hfront, hback, hbehind, ubc32, Option.getD_map, -List.map_findSome?]

/-- Settles O42: the frame is built in the fold of the passes, whose pixels the layering rules give. -/
theorem render32PixelByPixel : Obligations.Render32PixelByPixel :=
  fun s => ⟨renderFrame32 s, rfl, renderFrame32_at s⟩

/-! ### The compact frame under the front pass (45_frame_renderer.md R251, R259 b) -/

/-- One pixel after the behind pass over the fill: of the sprites drawn, the first with a colour other than `UBC16`
stays, for the suppress test keeps the later ones off it. -/
theorem behindPass16_at (s : State) (X : Fin 256) (Y : Fin 240) :
    (behindPass s (plainSprite16 s) (fill (ubc16 s))).at X Y =
      (behindOrder.findSome? fun i =>
        ((behindByte s X Y i).map (colour16 s.rgb)).filter (· != ubc16 s)).getD (ubc16 s) := by
  unfold behindPass
  rw [view_foldl_ground (view := fun fb : Frame 16 => fb.at X Y) behindOrder _ (ubc16 s)
    (fun i => (behindByte s X Y i).map (colour16 s.rgb)), fill_at, if_pos rfl]
  intro fb i _
  unfold behindByte
  by_cases hpass : inBehindPass (readSprite s.oam i) = true
  · have hbehind : attrBehind (readSprite s.oam i).attr = true := (Bool.and_eq_true_iff.mp hpass).1
    simp only [if_pos hpass, plainSprite16_at, spriteTest, if_pos hbehind]
    cases spriteByte s (readSprite s.oam i) X Y <;> simp [overlay]
  · simp [hpass]

/-- The compact frame before its front pass, every block computed afresh. -/
def underFrontFrame16 (s : State) : Frame 16 :=
  let behind := if maskSpen s.mask then behindPass s (plainSprite16 s) (fill (ubc16 s)) else fill (ubc16 s)
  if maskBgen s.mask then backgroundPass s (plainCell16 s) behind else behind

theorem underFrontFrame16_at (s : State) (X : Fin 256) (Y : Fin 240) :
    (underFrontFrame16 s).at X Y = underFront16 s X Y := by
  simp only [underFrontFrame16, underFront16]
  split
  · exact backgroundPass16_at s _ X Y
  · split
    · exact behindPass16_at s X Y
    · exact fill_at _ X Y

theorem plainFrame16_eq (s : State) : plainFrame16 s =
    if maskSpen s.mask then frontPass s (plainSprite16 s) (underFrontFrame16 s) else underFrontFrame16 s := rfl

/-! ### The front pass of the compact frame (45_frame_renderer.md R259 a, R266) -/

/-- Of the front pass only sprite 0 can be drawn with `BEHIND` set, as the special sprite. -/
theorem spriteTest_of_inFrontPass (s : State) {i : Nat} (hi : i ≠ 0)
    (hfront : inFrontPass (readSprite s.oam i) = true) : spriteTest s (readSprite s.oam i) = none := by
  have hspecial : special (readSprite s.oam i) = false := by simp [special, readSprite, hi]
  have hbehind : attrBehind (readSprite s.oam i).attr = false := by simp_all [inFrontPass]
  simp [spriteTest, hbehind]

/-- Sprite 0 over the frame the front pass starts from. -/
theorem plainSpriteZero16_at (s : State) (X : Fin 256) (Y : Fin 240)
    (hfront : inFrontPass (readSprite s.oam 0) = true) :
    (plainSprite16 s (readSprite s.oam 0) (underFrontFrame16 s)).at X Y =
      (spriteZero16 s X Y).getD (underFront16 s X Y) := by
  rw [plainSprite16_at, underFrontFrame16_at, spriteZero16, frontByte, if_pos hfront, spriteTest]
  cases attrBehind (readSprite s.oam 0).attr
  · cases spriteByte s (readSprite s.oam 0) X Y <;> rfl
  · by_cases hu : underFront16 s X Y = ubc16 s <;> cases spriteByte s (readSprite s.oam 0) X Y <;> simp [overlay, hu]

/-- Sprite 0 is drawn first, so it stands under every other front sprite. -/
theorem frontOrder_eq : frontOrder = 0 :: (List.range' 1 63).reverse := by decide

theorem frontPass16_at (s : State) (X : Fin 256) (Y : Fin 240) :
    (frontPass s (plainSprite16 s) (underFrontFrame16 s)).at X Y =
      (((List.range' 1 63).findSome? (frontByte s X Y)).map (colour16 s.rgb) <|> spriteZero16 s X Y).getD
        (underFront16 s X Y) := by
  have hzero : (if inFrontPass (readSprite s.oam 0) then plainSprite16 s (readSprite s.oam 0) (underFrontFrame16 s)
      else underFrontFrame16 s).at X Y = (spriteZero16 s X Y).getD (underFront16 s X Y) := by
    by_cases hfront : inFrontPass (readSprite s.oam 0) = true
    · rw [if_pos hfront, plainSpriteZero16_at s X Y hfront]
    · simp [spriteZero16, frontByte, hfront, underFrontFrame16_at]
  unfold frontPass
  rw [frontOrder_eq, List.foldl_cons,
    view_foldl_getD (view := fun fb : Frame 16 => fb.at X Y) (List.range' 1 63).reverse _
      (Option.map (colour16 s.rgb) ∘ frontByte s X Y), List.reverse_reverse, hzero, ← List.map_findSome?]
  · cases (List.range' 1 63).findSome? (frontByte s X Y) <;> rfl
  · intro fb i hi
    have hne : i ≠ 0 := by rintro rfl; simp at hi
    simp only [Function.comp_apply, frontByte]
    split
    · rw [plainSprite16_at, spriteTest_of_inFrontPass s hne ‹_›]
      cases spriteByte s (readSprite s.oam i) X Y <;> rfl
    · rfl

theorem plainFrame16_at (s : State) (X : Fin 256) (Y : Fin 240) : (plainFrame16 s).at X Y = pixel16 s X Y := by
  rw [plainFrame16_eq]
  unfold pixel16
  split
  · exact frontPass16_at s X Y
  · exact underFrontFrame16_at s X Y

/-- A pixel of the compact frame, drawn through good caches. -/
theorem renderCanvas16_at {s : State} (h : cachesGood s s.caches) (X : Fin 256) (Y : Fin 240) :
    (renderCanvas16 s).fb.at X Y = pixel16 s X Y := by
  rw [(renderCanvas16_good h).1, plainFrame16_at]

/-- Settles O43: good caches answer as if there were none, and stay good. -/
theorem render16PixelByPixel : Obligations.Render16PixelByPixel :=
  fun s h => ⟨(renderCanvas16 s).fb, (renderCanvas16 s).caches, rfl, (renderCanvas16_good h).2, renderCanvas16_at h⟩

end Sys2Proof.Machine
end

section
/-! PROOF. What a frame shows and what it does not (45_frame_renderer.md R252, R255, R258, R261, R267 to R270). Two
states whose layers agree at a pixel show the same there; each statement names layers that agree. -/

namespace Sys2Proof.Machine

/-! ### Pixels whose layers agree -/

/-- The layers of `s` and `t` give the pixel the same. Behind sprites count only where no background hides them, and
the suppress test of sprite 0 only where sprite 0 gives a byte. -/
structure SameLayers (s t : State) (X Y : Nat) : Prop where
  mask       : t.mask = s.mask
  rgb        : t.rgb = s.rgb
  backdrop   : t.pal.read 0 = s.pal.read 0
  front      : ∀ i < 64, frontByte t X Y i = frontByte s X Y i
  zeroBehind : frontByte s X Y 0 = none ∨ attrBehind (readSprite t.oam 0).attr = attrBehind (readSprite s.oam 0).attr
  background : maskBgen s.mask = true → backgroundByte t X Y = backgroundByte s X Y
  behind     : maskBgen s.mask = false → ∀ i < 64, behindByte t X Y i = behindByte s X Y i

theorem findSome?_congr {α : Type} {f g : Nat → Option α} {l : List Nat} (hl : ∀ i ∈ l, i < 64)
    (h : ∀ i < 64, f i = g i) : l.findSome? f = l.findSome? g := by
  induction l with
  | nil => rfl
  | cons i l ih =>
    rw [List.forall_mem_cons] at hl
    simp only [List.findSome?_cons, h i hl.1, ih hl.2]

theorem findSome?_frontPriority {α : Type} (f : Nat → Option α) :
    frontPriority.findSome? f = ((List.range' 1 63).findSome? f <|> f 0) := by
  rw [frontPriority, List.findSome?_append, List.findSome?_singleton, Option.or_eq_orElse]
  rfl

namespace SameLayers

variable {s t : State} {X Y : Nat} (h : SameLayers s t X Y)
include h

theorem pixelByte32 : pixelByte32 t X Y = pixelByte32 s X Y := by
  have hfront := findSome?_congr (l := frontPriority) (by decide) h.front
  unfold Machine.pixelByte32
  rw [h.mask, h.backdrop, hfront]
  cases hbg : maskBgen s.mask
  · rw [findSome?_congr (l := behindPriority) (by decide) (h.behind hbg)]
    simp only [Bool.false_eq_true, if_false]
  · rw [h.background hbg]
    cases maskSpen s.mask <;> simp

theorem ubc16 : ubc16 t = ubc16 s := by
  simp only [Machine.ubc16, h.rgb, h.backdrop]

theorem underFront16 : underFront16 t X Y = underFront16 s X Y := by
  unfold Machine.underFront16
  rw [h.mask, h.rgb, h.ubc16]
  cases hbg : maskBgen s.mask
  · have hbehind := h.behind hbg
    rw [findSome?_congr (l := behindOrder) (by decide) fun i hi => by rw [hbehind i hi]]
    simp only [Bool.false_eq_true, if_false]
  · simp only [h.background hbg, if_true]

theorem spriteZero16 : spriteZero16 t X Y = spriteZero16 s X Y := by
  unfold Machine.spriteZero16
  rw [h.underFront16, h.ubc16, h.front 0 (by decide), h.rgb]
  rcases h.zeroBehind with hnone | hattr
  · simp [hnone]
  · rw [hattr]

theorem pixel16 : pixel16 t X Y = pixel16 s X Y := by
  unfold Machine.pixel16
  rw [h.mask, h.underFront16, h.spriteZero16, h.rgb, findSome?_congr (l := List.range' 1 63) (by decide) h.front]

end SameLayers

/-- Where the layers agree, so do the true-colour frames. -/
theorem renderFrame32_at_congr {s t : State} {X : Fin 256} {Y : Fin 240} (h : SameLayers s t X Y) :
    (renderFrame32 t).at X Y = (renderFrame32 s).at X Y := by
  rw [renderFrame32_at, renderFrame32_at, h.rgb, h.pixelByte32]

/-- Where the layers agree, so do the compact frames, each drawn through good caches. -/
theorem renderCanvas16_at_congr {s t : State} (hs : cachesGood s s.caches) (ht : cachesGood t t.caches)
    {X : Fin 256} {Y : Fin 240} (h : SameLayers s t X Y) :
    (renderCanvas16 t).fb.at X Y = (renderCanvas16 s).fb.at X Y := by
  rw [renderCanvas16_at ht, renderCanvas16_at hs, h.pixel16]

section Layers

variable (s t : State) (hcfg : t.cfg = s.cfg) (hpal : t.pal = s.pal)
include hcfg hpal

/-- The bytes a sprite gives depend on `CHR`, on `PAL` and on the sprite pattern table (R256, R257). -/
theorem spriteByte_congr (hspt : ctrlSpt t.ctrl = ctrlSpt s.ctrl) (sp : Sprite) (X Y : Nat) :
    spriteByte t sp X Y = spriteByte s sp X Y := by
  simp only [spriteByte, spriteTile, hcfg, hpal, hspt]

theorem frontByte_congr (hspt : ctrlSpt t.ctrl = ctrlSpt s.ctrl) {i : Nat}
    (hread : readSprite t.oam i = readSprite s.oam i) (X Y : Nat) : frontByte t X Y i = frontByte s X Y i := by
  simp only [frontByte, hread, spriteByte_congr s t hcfg hpal hspt]

theorem behindByte_congr (hspt : ctrlSpt t.ctrl = ctrlSpt s.ctrl) {i : Nat}
    (hread : readSprite t.oam i = readSprite s.oam i) (X Y : Nat) : behindByte t X Y i = behindByte s X Y i := by
  simp only [behindByte, hread, spriteByte_congr s t hcfg hpal hspt]

/-- The bytes the background gives depend on the memories, on the background pattern table and on where the scroll
puts the pixel (R261 to R264). -/
theorem backgroundByte_congr (hnt : t.nt = s.nt) (hbpt : ctrlBpt t.ctrl = ctrlBpt s.ctrl) {X Y : Nat}
    (hcell : cellAt t X Y = cellAt s X Y) (hcol : pixelColAt t X Y = pixelColAt s X Y) :
    backgroundByte t X Y = backgroundByte s X Y := by
  simp only [backgroundByte, hcell, hcol, bgTile, bgAttr, attrOf, hbpt, vRead_congr _ hcfg hnt hpal, hcfg, hpal]

end Layers

/-! ### The two renders, and the states they are compared from -/

/-- The state after `RENDER32` (R250). -/
def State.rendered32 (s : State) : State := { s with fb32 := renderFrame32 s }
/-- The state after `RENDER16` (R251). -/
def State.rendered16 (s : State) : State :=
  { s with fb16 := (renderCanvas16 s).fb, caches := (renderCanvas16 s).caches }

theorem exec_render32 (s : State) : exec .render32 s = .next s.rendered32 := rfl
theorem exec_render16 (s : State) : exec .render16 s = .next s.rendered16 := rfl

@[simp] theorem rendered32_fb32 (s : State) : s.rendered32.fb32 = renderFrame32 s := rfl
@[simp] theorem rendered16_fb16 (s : State) : s.rendered16.fb16 = (renderCanvas16 s).fb := rfl

/-- The state with other `OAM` contents. -/
def State.withOam (s : State) (oam : Memory) : State := { s with oam := oam }
@[simp] theorem withOam_oam (s : State) (oam : Memory) : (s.withOam oam).oam = oam := rfl

/-- The state with another scroll and another `CTRL`. -/
def State.withScroll (s : State) (x y ctrl : Byte) : State := { s with scrollX := x, scrollY := y, ctrl := ctrl }

/-! ### Behind sprites under the background (45_frame_renderer.md R267) -/

/-- A behind sprite that is not special is in no front pass. -/
theorem frontByte_of_behind {s : State} {i : Nat}
    (h : (attrBehind (readSprite s.oam i).attr && !special (readSprite s.oam i)) = true) (X Y : Nat) :
    frontByte s X Y i = none := by
  simp only [Bool.and_eq_true, Bool.not_eq_true'] at h
  obtain ⟨hbehind, hspecial⟩ := h
  simp [frontByte, inFrontPass, hbehind, hspecial]

/-- With the background on, such sprites belong to no layer that counts. -/
theorem sameLayers_withOam_of_background {s : State} {oam : Memory} (hbg : maskBgen s.mask = true)
    (hoam : ∀ i < 64, readSprite oam i = readSprite s.oam i ∨
      (attrBehind (readSprite oam i).attr && !special (readSprite oam i)) = true ∧
        (attrBehind (readSprite s.oam i).attr && !special (readSprite s.oam i)) = true) (X Y : Nat) :
    SameLayers s (s.withOam oam) X Y where
  mask       := rfl
  rgb        := rfl
  backdrop   := rfl
  background := fun _ => backgroundByte_congr s (s.withOam oam) rfl rfl rfl rfl rfl rfl
  behind     := fun hoff => absurd (hbg.symm.trans hoff) (by decide)
  front      := fun i hi => by
    rcases hoam i hi with hsame | ⟨hnew, hold⟩
    · exact frontByte_congr s (s.withOam oam) rfl rfl rfl hsame X Y
    · rw [frontByte_of_behind hold, frontByte_of_behind (s := s.withOam oam) hnew]
  zeroBehind := by
    rcases hoam 0 (by decide) with hsame | ⟨_, hold⟩
    · exact .inr (by rw [withOam_oam, hsame])
    · exact .inl (frontByte_of_behind hold X Y)

/-- Settles O45: with the background on the behind pass shows nowhere, and such sprites are in no front pass. -/
theorem backgroundHidesBehindSprites : Obligations.BackgroundHidesBehindSprites := by
  intro s oam hbg hoam
  have hlayers := sameLayers_withOam_of_background hbg hoam
  refine ⟨s.rendered32, (s.withOam oam).rendered32, s.rendered16, (s.withOam oam).rendered16, exec_render32 s,
    exec_render32 (s.withOam oam), ?_, exec_render16 s, exec_render16 (s.withOam oam), fun hgood => ?_⟩
  · exact Frame.ext_at fun X Y => renderFrame32_at_congr (hlayers X Y)
  · have hgood' : cachesGood (s.withOam oam) s.caches := cachesGood_congr rfl rfl rfl hgood
    exact Frame.ext_at fun X Y => renderCanvas16_at_congr hgood hgood' (hlayers X Y)

/-! ### The status bar and the scroll (45_frame_renderer.md R261, R270 c) -/

/-- Sprites move with no scroll, nor does the background in screen rows 0 to 31. -/
theorem sameLayers_withScroll {s : State} {x y ctrl : Byte} (hctrl : ctrl &&& 0x18#8 = s.ctrl &&& 0x18#8)
    {X Y : Nat} (hrow : maskBgen s.mask = true → Y < 32) :
    SameLayers s (s.withScroll x y ctrl) X Y := by
  have hspt : ctrlSpt ctrl = ctrlSpt s.ctrl := getLsbD_eq_of_and_eq hctrl rfl
  have hbpt : ctrlBpt ctrl = ctrlBpt s.ctrl := getLsbD_eq_of_and_eq hctrl rfl
  exact {
    mask := rfl, rgb := rfl, backdrop := rfl, zeroBehind := .inr rfl
    front := fun i _ => frontByte_congr s (s.withScroll x y ctrl) rfl rfl hspt rfl X Y
    behind := fun _ i _ => behindByte_congr s (s.withScroll x y ctrl) rfl rfl hspt rfl X Y
    background := fun hon => backgroundByte_congr s (s.withScroll x y ctrl) rfl rfl rfl hbpt
      (by simp only [cellAt, if_pos (hrow hon)]) (by simp only [pixelColAt, if_pos (hrow hon)]) }

/-- Settles O46: the layers agree in the status bar, and with the background off everywhere. -/
theorem statusBarIgnoresScroll : Obligations.StatusBarIgnoresScroll := by
  intro s x y ctrl hctrl
  have hbar : ∀ X {Y}, Y < 32 → SameLayers s (s.withScroll x y ctrl) X Y :=
    fun X Y hY => sameLayers_withScroll hctrl fun _ => hY
  have hoff : s.mask.getLsbD 3 = false → ∀ X Y, SameLayers s (s.withScroll x y ctrl) X Y :=
    fun hbg X Y => sameLayers_withScroll hctrl fun hon => absurd (hon.symm.trans hbg) (by decide)
  refine ⟨s.rendered32, (s.withScroll x y ctrl).rendered32, s.rendered16, (s.withScroll x y ctrl).rendered16,
    exec_render32 _, exec_render32 _, fun X Y hY => renderFrame32_at_congr (hbar X hY),
    fun hbg => Frame.ext_at fun X Y => renderFrame32_at_congr (hoff hbg X Y), exec_render16 _, exec_render16 _,
    fun hgood => ?_⟩
  have hgood' : cachesGood (s.withScroll x y ctrl) s.caches := cachesGood_congr rfl rfl rfl hgood
  exact ⟨fun X Y hY => renderCanvas16_at_congr hgood hgood' (hbar X hY),
    fun hbg => Frame.ext_at fun X Y => renderCanvas16_at_congr hgood hgood' (hoff hbg X Y)⟩

/-! ### The special sprite's skipped pixels (R258) -/

/-- The screen offset that the flip gives a pattern coordinate, seen back through the flip, is that coordinate. -/
theorem mirrorIf_ofNat_mirrored (f : Bool) (k : Fin 8) :
    mirrorIf f (Fin.ofNat 8 (if f then 7 - k.val else k.val)) = k := by
  rw [← mirrorIf_val, Fin.ofNat_val_eq_self, mirrorIf_mirrorIf]

/-- A special sprite gives no byte where its pattern row 5, column 2 or 3, stands on the screen. -/
theorem spriteByte_skipped (s : State) {sp : Sprite} {px : Fin 8} {X Y : Nat} (hsp : special sp = true)
    (hpx : px = 2 ∨ px = 3) (hX : X = sp.x.toNat + if attrFlipX sp.attr then 7 - px.val else px.val)
    (hY : Y = sp.y.toNat + 1 + if attrFlipY sp.attr then 7 - 5 else 5) : spriteByte s sp X Y = none := by
  have hcol : spriteCol sp X = px := by
    rw [spriteCol, hX, Nat.add_sub_cancel_left, mirrorIf_ofNat_mirrored]
  have hrow : spriteRow sp Y = 5 := by
    rw [spriteRow, hY, Nat.add_sub_cancel_left]
    exact mirrorIf_ofNat_mirrored _ 5
  have hskip : skipped sp 5 px = true := by
    rcases hpx with rfl | rfl <;> simp [skipped, hsp]
  rw [spriteByte, hrow, hcol, hskip]
  simp

/-- The state with sprite 0 off the screen. -/
def State.hideZero (s : State) : State := s.withOam (s.oam.write 0 0xFF#8)

theorem visible_readSprite_hideZero (s : State) : visible (readSprite s.hideZero.oam 0) = false := by
  simp [State.hideZero, visible, readSprite]

theorem readSprite_hideZero (s : State) {i : Nat} (hi : i ≠ 0) :
    readSprite s.hideZero.oam i = readSprite s.oam i := by
  simp [State.hideZero, readSprite, hi]

/-- Where sprite 0 gives nothing, hiding it changes no layer. -/
theorem sameLayers_hideZero {s : State} {X Y : Nat} (h : spriteByte s (readSprite s.oam 0) X Y = none) :
    SameLayers s s.hideZero X Y where
  mask       := rfl
  rgb        := rfl
  backdrop   := rfl
  zeroBehind := .inl (by simp [frontByte, h])
  background := fun _ => backgroundByte_congr s s.hideZero rfl rfl rfl rfl rfl rfl
  front      := fun i _ => by
    rcases eq_or_ne i 0 with rfl | hi
    · simp [frontByte, inFrontPass, visible_readSprite_hideZero, h]
    · exact frontByte_congr s s.hideZero rfl rfl rfl (readSprite_hideZero s hi) X Y
  behind     := fun _ i _ => by
    rcases eq_or_ne i 0 with rfl | hi
    · simp [behindByte, inBehindPass, visible_readSprite_hideZero, h]
    · exact behindByte_congr s s.hideZero rfl rfl rfl (readSprite_hideZero s hi) X Y

/-- Settles O48: sprite 0 gives nothing at its skipped pixels, shown or hidden, and every other layer is the same. -/
theorem specialPixelsAreNeverWritten : Obligations.SpecialPixelsAreNeverWritten := by
  intro s X Y px hgood htile hpx hX hY
  have hspecial : special (readSprite s.oam 0) = true := by simp [special, readSprite, htile]
  have hlayers : SameLayers s s.hideZero X Y := sameLayers_hideZero (spriteByte_skipped s hspecial hpx hX hY)
  have hgood' : cachesGood s.hideZero s.caches := cachesGood_congr rfl rfl rfl hgood
  exact ⟨s.rendered32, s.hideZero.rendered32, s.rendered16, s.hideZero.rendered16, exec_render32 s,
    exec_render32 s.hideZero, (renderFrame32_at_congr hlayers).symm, exec_render16 s, exec_render16 s.hideZero,
    (renderCanvas16_at_congr hgood hgood' hlayers).symm⟩

/-! ### Hidden sprites (45_frame_renderer.md R255) -/

theorem visible_eq_false {sp : Sprite} (h : 0xEF ≤ sp.y.toNat ∨ 0xF9 ≤ sp.x.toNat) : visible sp = false := by
  have hy : spriteYLimit.toNat = 0xEF := rfl
  have hx : spriteXLimit.toNat = 0xF9 := rfl
  simp only [visible, BitVec.lt_def, hy, hx, Bool.and_eq_false_iff, decide_eq_false_iff_not]
  omega

/-- Two `OAM` contents that differ in hidden sprites alone. -/
def SameShownSprites (oam oam' : Memory) : Prop :=
  ∀ i < 64, readSprite oam' i = readSprite oam i ∨
    visible (readSprite oam' i) = false ∧ visible (readSprite oam i) = false

/-- A pass that takes visible sprites alone draws the same from both contents, over any canvas. -/
theorem spritePass_of_sameShownSprites {σ : Type} {oam oam' : Memory} (h : SameShownSprites oam oam')
    {inPass : Sprite → Bool} (hpass : ∀ sp, visible sp = false → inPass sp = false) {order : List Nat}
    (horder : ∀ i ∈ order, i < 64) (draw : Sprite → σ → σ) (c : σ) :
    order.foldl (fun c i => if inPass (readSprite oam' i) then draw (readSprite oam' i) c else c) c =
      order.foldl (fun c i => if inPass (readSprite oam i) then draw (readSprite oam i) c else c) c := by
  refine List.foldl_ext _ _ _ fun c i hmem => ?_
  rcases h i (horder i hmem) with hsame | ⟨hnew, hold⟩
  · rw [hsame]
  · simp [hpass _ hnew, hpass _ hold]

theorem renderPasses_of_sameShownSprites {σ : Type} {s : State} {oam : Memory} (h : SameShownSprites s.oam oam)
    (sprite : Sprite → σ → σ) (cell : BgCell → σ → σ) (c : σ) :
    renderPasses (s.withOam oam) sprite cell c = renderPasses s sprite cell c := by
  have hbehind : ∀ c, behindPass (s.withOam oam) sprite c = behindPass s sprite c :=
    spritePass_of_sameShownSprites h (fun sp hsp => by simp [inBehindPass, hsp]) (by decide) sprite
  have hfront : ∀ c, frontPass (s.withOam oam) sprite c = frontPass s sprite c :=
    spritePass_of_sameShownSprites h (fun sp hsp => by simp [inFrontPass, hsp]) (by decide) sprite
  simp only [renderPasses, hbehind, hfront]
  rfl

/-- Settles O47: no pass draws a hidden sprite, so both renders draw alike, through any caches. -/
theorem hiddenSpritesDrawNothing : Obligations.HiddenSpritesDrawNothing := by
  intro s oam hoam
  have hshown : SameShownSprites s.oam oam := fun i hi =>
    (hoam i hi).imp_right fun ⟨hnew, hold⟩ => ⟨visible_eq_false hnew, visible_eq_false hold⟩
  have hinputs : SameInputs s (s.withOam oam) := ⟨rfl, rfl, rfl, rfl, rfl⟩
  have hframe : renderFrame32 (s.withOam oam) = renderFrame32 s :=
    (renderPasses_of_sameShownSprites hshown _ _ _).trans
      (renderPasses_congr _ rfl rfl rfl rfl hinputs.drawSprite32 hinputs.drawCell32)
  have hcanvas : renderCanvas16 (s.withOam oam) = renderCanvas16 s :=
    (renderPasses_of_sameShownSprites hshown _ _ _).trans
      (renderPasses_congr _ rfl rfl rfl rfl hinputs.drawSprite16 hinputs.drawCell16)
  exact ⟨s.rendered32, (s.withOam oam).rendered32, s.rendered16, (s.withOam oam).rendered16, exec_render32 _,
    exec_render32 _, hframe, exec_render16 _, exec_render16 _, congrArg Canvas16.fb hcanvas,
    congrArg Canvas16.caches hcanvas⟩

/-! ### The compact frame against the true-colour frame (45_frame_renderer.md R268) -/

section NoVisibleBehind

variable {s : State}
  (hbehind : ∀ i < 64, attrBehind (readSprite s.oam i).attr = true → visible (readSprite s.oam i) = false)
include hbehind

theorem behindByte_of_noVisibleBehind (X Y : Nat) {i : Nat} (hi : i < 64) : behindByte s X Y i = none := by
  have hnot : inBehindPass (readSprite s.oam i) = false := by
    rw [inBehindPass]
    cases hb : attrBehind (readSprite s.oam i).attr
    · rfl
    · rw [hbehind i hi hb]; rfl
  simp [behindByte, hnot]

/-- Sprite 0 makes no suppress test that matters: with `BEHIND` set it is hidden. -/
theorem spriteZero16_of_noVisibleBehind (X Y : Nat) :
    spriteZero16 s X Y = (frontByte s X Y 0).map (colour16 s.rgb) := by
  unfold spriteZero16
  cases hb : attrBehind (readSprite s.oam 0).attr
  · rfl
  · simp [frontByte, inFrontPass, hbehind 0 (by decide) hb]

theorem pixelByte32_of_noVisibleBehind (X Y : Nat) : pixelByte32 s X Y =
    (if maskSpen s.mask then frontPriority.findSome? (frontByte s X Y) else none).getD
      (if maskBgen s.mask then backgroundByte s X Y else s.pal.read 0) := by
  have hnone : behindPriority.findSome? (behindByte s X Y) = none := List.findSome?_eq_none_iff.mpr fun i hi =>
    behindByte_of_noVisibleBehind hbehind X Y (List.mem_range.mp hi)
  unfold pixelByte32
  rw [hnone]
  cases maskBgen s.mask <;> simp

theorem underFront16_of_noVisibleBehind (X Y : Nat) : underFront16 s X Y =
    colour16 s.rgb (if maskBgen s.mask then backgroundByte s X Y else s.pal.read 0) := by
  have hnone : (behindOrder.findSome? fun i =>
      ((behindByte s X Y i).map (colour16 s.rgb)).filter (· != ubc16 s)) = none :=
    List.findSome?_eq_none_iff.mpr fun i hi => by
      rw [behindByte_of_noVisibleBehind hbehind X Y (List.mem_range.mp (List.mem_reverse.mp hi))]
      rfl
  rw [underFront16, hnone]
  cases maskBgen s.mask
  · cases maskSpen s.mask <;> rfl
  · rfl

theorem pixel16_of_noVisibleBehind (X Y : Nat) : pixel16 s X Y = colour16 s.rgb (pixelByte32 s X Y) := by
  rw [pixel16, spriteZero16_of_noVisibleBehind hbehind, underFront16_of_noVisibleBehind hbehind,
    pixelByte32_of_noVisibleBehind hbehind, findSome?_frontPriority]
  split
  · rw [← Option.getD_map (colour16 s.rgb)]
    simp only [Option.orElse_eq_orElse, ← Option.or_eq_orElse, Option.map_or]
  · rfl

end NoVisibleBehind

/-- Settles O44: the layers of the two paths differ in the suppress test and the order of behind sprites alone. -/
theorem compactFrameIsConvertedFrame : Obligations.CompactFrameIsConvertedFrame := by
  intro s hgood hbehind
  refine ⟨s.rendered32, s.rendered16, exec_render32 s, exec_render16 s, fun X Y => ?_⟩
  rw [rendered16_fb16, renderCanvas16_at hgood, pixel16_of_noVisibleBehind hbehind, rendered32_fb32, renderFrame32_at]
  rfl

/-! ### Renders of nothing, and renders again (45_frame_renderer.md R252, R269, R270 a) -/

theorem renderPasses_of_disabled {σ : Type} {s : State} (hbg : maskBgen s.mask = false) (hsp : maskSpen s.mask = false)
    (sprite : Sprite → σ → σ) (cell : BgCell → σ → σ) (c : σ) : renderPasses s sprite cell c = c := by
  simp [renderPasses, hbg, hsp]

/-- Settles O50: no pass is run over the fill. -/
theorem disabledFrameIsBackdrop : Obligations.DisabledFrameIsBackdrop := by
  intro s hbg hsp
  have hframe : renderFrame32 s = fill (ubc32 s) := renderPasses_of_disabled hbg hsp _ _ _
  have hcanvas : renderCanvas16 s = ⟨fill (ubc16 s), s.caches⟩ := renderPasses_of_disabled hbg hsp _ _ _
  simp only [exec, execRender32, execRender16, hframe, hcanvas]
  exact ⟨rfl, rfl⟩

theorem rendered32_rendered32 (s : State) : s.rendered32.rendered32 = s.rendered32 := by
  have hframe : renderFrame32 s.rendered32 = renderFrame32 s :=
    renderFrame32_congr ⟨rfl, rfl, rfl, rfl, rfl⟩ rfl rfl rfl
  rw [State.rendered32, hframe]
  rfl

theorem sameLayers_rendered16 (s : State) (X Y : Nat) : SameLayers s s.rendered16 X Y where
  mask       := rfl
  rgb        := rfl
  backdrop   := rfl
  zeroBehind := .inr rfl
  front      := fun _ _ => frontByte_congr s s.rendered16 rfl rfl rfl rfl X Y
  behind     := fun _ _ _ => behindByte_congr s s.rendered16 rfl rfl rfl rfl X Y
  background := fun _ => backgroundByte_congr s s.rendered16 rfl rfl rfl rfl rfl rfl

/-- Settles O51: neither render reads the frame it writes, and good caches answer as if there were none. -/
theorem renderLeavesRestAndRepeats : Obligations.RenderLeavesRestAndRepeats := by
  refine ⟨fun s => ⟨s.rendered32, exec_render32 s, rfl, ?_⟩, fun s => ⟨s.rendered16, exec_render16 s, rfl⟩,
    fun s hgood => ⟨s.rendered16, s.rendered16.rendered16, exec_render16 s, exec_render16 s.rendered16, ?_⟩⟩
  · rw [exec_render32, rendered32_rendered32]
  · have hgood' : cachesGood s.rendered16 s.rendered16.caches :=
      cachesGood_congr rfl rfl rfl (renderCanvas16_good hgood).2
    exact Frame.ext_at fun X Y => renderCanvas16_at_congr hgood hgood' (sameLayers_rendered16 s X Y)

end Sys2Proof.Machine
end

section
/-! PROOF. The scaler (46_output_scaler.md): a `SCALE` that cannot act, the parameters of a size, and the scaled image,
whose places are the cells of the rectangle the image fills. -/

namespace Sys2Proof.Machine

/-! ### When a `SCALE` acts (46_output_scaler.md R306, R307) -/

theorem scaleRuns_iff (s : State) (w h : BitVec 13) :
    scaleRuns s w h = true ↔ s.cfg.hasScaler = true ∧ 256 ≤ w.toNat ∧ 240 ≤ h.toNat := by
  simp only [scaleRuns, Bool.and_eq_true, decide_eq_true_eq, and_assoc]

/-- Settles O54: each of the three conditions takes away one that a `SCALE` needs to act. -/
theorem scaleDoesNothingWhenItCannot : Obligations.ScaleDoesNothingWhenItCannot := by
  intro s src w h hcannot
  refine exec_scale_of_not_runs src fun hruns => ?_
  obtain ⟨hscaler, hw, hh⟩ := (scaleRuns_iff s w h).mp hruns
  obtain hnone | hnarrow | hlow := hcannot
  · exact Bool.false_ne_true (hnone.symm.trans hscaler)
  · exact Nat.not_le.mpr hnarrow hw
  · exact Nat.not_le.mpr hlow hh

/-! ### The image fits (46_output_scaler.md R301) -/

section Fit

variable {w h : BitVec 13} (hw : 256 ≤ w.toNat) (hh : 240 ≤ h.toNat)

include hw hh

/-- Halving the left-over space loses at most the odd pixel, so each offset leaves room for the image. -/
theorem scaleParams_fits : (scaleParams w h).offX + 256 * (scaleParams w h).factor ≤ w.toNat ∧
    (scaleParams w h).offY + 240 * (scaleParams w h).factor ≤ h.toNat := by
  have hfit := scaleFactor_fits hw hh
  simp only [scaleParams_offX, scaleParams_offY, scaleParams_factor]
  omega

/-- Each side holds the source once at least. -/
theorem scaleParams_factor_of_fits : (scaleParams w h).factor = min (w.toNat / 256) (h.toNat / 240) :=
  max_eq_right (le_min (Nat.div_pos hw (by decide)) (Nat.div_pos hh (by decide)))

end Fit

/-- Settles O53: the parameters are as defined, and a width of 13 bits holds the source 31 times at most. -/
theorem scaleParametersFit : Obligations.ScaleParametersFit := by
  refine ⟨fun w h => ⟨rfl, rfl, rfl, rfl, rfl, scaleParams_mapX w h, scaleParams_mapY w h⟩, fun w h hw hh => ?_⟩
  obtain ⟨hfitX, hfitY⟩ := scaleParams_fits hw hh
  refine ⟨scaleParams_factor_of_fits hw hh, scaleFactor_pos _ _, ?_, hfitX, hfitY⟩
  have hwidth := w.isLt
  omega

/-! ### The places of the image (46_output_scaler.md R300, R308, R309) -/

/-- A place of a buffer `w` wide has one row and one column. -/
theorem row_col_unique {w X Y X' Y' : Nat} (hX : X < w) (hX' : X' < w) (he : w * Y + X = w * Y' + X') :
    X = X' ∧ Y = Y' := by
  have hpos : 0 < w := Nat.zero_lt_of_lt hX
  obtain ⟨hrow, hcol⟩ := (Nat.div_mod_unique hpos).mpr ⟨Nat.add_comm X (w * Y), hX⟩
  obtain ⟨hrow', hcol'⟩ := (Nat.div_mod_unique hpos).mpr ⟨Nat.add_comm X' (w * Y'), hX'⟩
  exact ⟨by rw [← hcol, he, hcol'], by rw [← hrow, he, hrow']⟩

/-- A copy of source position `x` of `n` lies in the image's extent. -/
theorem copy_lt {n f x i : Nat} (hx : x < n) (hi : i < f) : x * f + i < n * f := by
  rw [Nat.mul_comm x]
  exact Nat.mul_add_lt_mul_of_lt_of_lt hx hi

/-- A word outside the image's rectangle is as before: the image's words are all in it (46_output_scaler.md R305). -/
theorem scaleImage_outside_rectangle (s : State) (src : FrameSource) {w h : BitVec 13} (hw : 256 ≤ w.toNat)
    (hh : 240 ≤ h.toNat) {X Y : Nat} (hX : X < w.toNat)
    (hout : ¬ ((scaleParams w h).offX ≤ X ∧ X < (scaleParams w h).offX + 256 * (scaleParams w h).factor ∧
      (scaleParams w h).offY ≤ Y ∧ Y < (scaleParams w h).offY + 240 * (scaleParams w h).factor)) :
    dstRead (scaleImage s src (scaleParams w h)) (w.toNat * Y + X) = dstRead s.dst (w.toNat * Y + X) := by
  have hfitX := (scaleParams_fits hw hh).1
  refine scaleImage_outside s src w h fun y x j i hj hi he => hout ?_
  have hcol := copy_lt x.isLt hi
  have hrow := copy_lt y.isLt hj
  obtain ⟨rfl, rfl⟩ := row_col_unique hX (by omega) he
  omega

/-- Settles O52: the image fits, so each place of it is below the size of the destination and is one source pixel's. -/
theorem scaleReplicatesEveryPixel : Obligations.ScaleReplicatesEveryPixel := by
  intro s src w h hgood hscaler hw hh
  obtain ⟨hfitX, hfitY⟩ := scaleParams_fits hw hh
  have hexec := exec_scale_of_runs src ((scaleRuns_iff s w h).mpr ⟨hscaler, hw, hh⟩)
  rw [scaleCacheFor_good hgood] at hexec
  refine ⟨_, hexec, fun y x i j hi hj => ?_, fun X Y hX hout => scaleImage_outside_rectangle s src hw hh hX hout⟩
  rw [Nat.mul_comm _ y.val, Nat.mul_comm _ x.val, Nat.add_assoc (_ * _), Nat.add_assoc (_ * _)]
  constructor
  · have hcol := copy_lt x.isLt hi
    have hrow := copy_lt y.isLt hj
    rw [Nat.mul_comm _ h.toNat]
    exact Nat.mul_add_lt_mul_of_lt_of_lt (by omega) (by omega)
  · rw [scaleImage_inside s src w h hw hh y x hj hi]
    cases src <;> rfl

end Sys2Proof.Machine
end

section
/-! PROOF. Host control (47_host_control.md R320 to R324), and that every command, step and run completes
(60_exceptions.md R340). -/

namespace Sys2Proof.Machine

/-! ### What the three commands do to the whole state -/

theorem exec_loadRgb (k : BitVec 6) (v : Word) (s : State) : exec (.loadRgb k v) s =
    .next { s with rgb := s.rgb.set k.toNat v, caches := Caches.empty } := rfl

theorem exec_cclr (s : State) : exec .cclr s = .next { s with caches := Caches.empty } := rfl

theorem exec_reset (s : State) : exec .reset s = .next { s with
    ctrl := 0x00#8, mask := 0x00#8, oamAddr := 0x00#8, scrollX := 0x00#8, scrollY := 0x00#8
    vaddr := 0x0000#16, w := false, rdBuf := 0x00#8, stCnt := false
    nt := [], pal := [], oam := [], caches := Caches.empty, sc := none } := rfl

/-- `INDEX` is the low six bits of the word. -/
theorem indexField_toNat (w : Word) : (indexField w).toNat = w.toNat % 64 := by
  simp only [indexField, BitVec.extractLsb'_toNat, Nat.shiftRight_zero]

/-- Settles O55: the row of each word, and the one entry that a `LOADRGB` sets. -/
theorem loadRgbAndCclr : Obligations.LoadRgbAndCclr := by
  refine ⟨fun w v rest h => ⟨indexField w, indexField_toNat w, decode_loadRgb v rest ((and_opMask w _ rfl).mp h)⟩,
    fun w rest h => decode_cclr rest ((and_opMask w _ rfl).mp h),
    fun k v s => ⟨_, exec_loadRgb k v s, fun j => ?_⟩, exec_cclr⟩
  simp only [Fin.getElem_fin, Vector.getElem_set, eq_comm (a := k.toNat)]

/-- Settles O56: the row of the word, and memories that list nothing read zero everywhere. -/
theorem resetCommandClears : Obligations.ResetCommandClears :=
  ⟨fun w rest h => decode_reset rest ((and_opMask w _ rfl).mp h),
    fun s => ⟨_, exec_reset s, fun k => ⟨Memory.read_nil k, Memory.read_nil k, Memory.read_nil k⟩, rfl⟩⟩

/-! ### Every command, step and run completes (60_exceptions.md R340) -/

theorem exec_completes (i : Instr) (s : State) : ∃ t, exec i s = .next t :=
  (exec_withQueues i s).imp fun _ => And.left

/-- A step is a command, which completes, or the host's turn alone. -/
theorem step_completes (s : State) : ∃ t, step s = .next t := by
  cases hd : decode s.cmds with
  | error e => exact ⟨_, step_of_decode_error hd⟩
  | ok command =>
    obtain ⟨i, rest⟩ := command
    rw [step_of_decode_ok hd]
    exact exec_completes i _

theorem run_completes (k : Nat) (s : State) : ∃ t, Host.Core.run Sys2Proof.core k s = .next t := by
  induction k generalizing s with
  | zero => exact ⟨s, run_zero s⟩
  | succ k ih =>
    obtain ⟨t, ht⟩ := step_completes s
    rw [run_succ k ht]
    exact ih t

/-- Settles O8: a run completes by induction on its steps, each of which completes. -/
theorem everyCommandAndRunCompletes : Obligations.EveryCommandAndRunCompletes :=
  ⟨exec_completes, run_completes⟩

end Sys2Proof.Machine
end
